-- ==== Sys2Proof/Word.lean ====
section
/-! DEFINITION. The word types of OTPE (00_scope.md R7, R8; 20_memory.md R55). -/

namespace Sys2Proof

/-- A byte of a buffer or of an HMAC message (R7). -/
abbrev Byte := BitVec 8

/-- A 32-bit register of the host window, a host bus word or a command word (R19, R55, R78). -/
abbrev Word := BitVec 32

/-- A 64-bit counter or time, held as a register pair (R58). -/
abbrev DWord := BitVec 64

end Sys2Proof
end

