-- ==== Sys2Proof/Syntax.lean ====
section
/-! DEFINITION. The commands of OTPE: one constructor per row of the opcode map (30_encoding.md R82). -/

namespace Sys2Proof

/-- A command (R82). `w` is the window operand W of form W (R79, R80), a number; `Instr.wellFormed` bounds it. -/
inductive Instr where
  | nop
  | cfg
  | clear
  | b32Enc
  | b32Dec
  | b32Deck
  | trunc
  | hotpGen
  | hotpVal (w : Nat)
  | totpGen
  | totpVer (w : Nat)
  | totpRem
deriving DecidableEq, Repr

end Sys2Proof
end

