-- ==== Sys2Proof/Decode.lean ====
section
/-! DEFINITION. The decoder of command words, total on u32 (30_encoding.md R78 to R85), and the encoder beside it. -/

namespace Sys2Proof

/-- Why a word decodes to ILLEGAL (R84). -/
inductive IllegalWord where
  /-- The OPC value is none of the opcode map's. -/
  | reservedOpcode
  /-- The OPC value is in the map, and a bit its mask covers outside 7:0 is not zero. -/
  | reservedBits
deriving DecidableEq, Repr

/-- One row of the opcode map (R82): a word `v` is the command when `v &&& mask = pattern`. -/
structure OpcodeRow where
  pattern : Word
  mask : Word
  instr : Instr
deriving DecidableEq, Repr

/-- W = cmd[15:8], unsigned (R80). -/
def windowOf (v : Word) : Nat := (v.extractLsb' 8 8).toNat

/-- The mask of form N and of form W (R79, R82). -/
def maskN : Word := 0xFFFFFFFF#32
def maskW : Word := 0xFFFF00FF#32

/-- The opcode map (R82), with the operand of form W taken from the word `v`. -/
def opcodeMap (v : Word) : List OpcodeRow :=
  [ ⟨0x00000000#32, maskN, .nop⟩,
    ⟨0x00000001#32, maskN, .cfg⟩,
    ⟨0x00000002#32, maskN, .clear⟩,
    ⟨0x00000010#32, maskN, .b32Enc⟩,
    ⟨0x00000011#32, maskN, .b32Dec⟩,
    ⟨0x00000012#32, maskN, .b32Deck⟩,
    ⟨0x00000020#32, maskN, .trunc⟩,
    ⟨0x00000021#32, maskN, .hotpGen⟩,
    ⟨0x00000022#32, maskW, .hotpVal (windowOf v)⟩,
    ⟨0x00000030#32, maskN, .totpGen⟩,
    ⟨0x00000031#32, maskW, .totpVer (windowOf v)⟩,
    ⟨0x00000032#32, maskN, .totpRem⟩ ]

/-- Does the row match the word (R82)? -/
def OpcodeRow.covers (r : OpcodeRow) (v : Word) : Bool := v &&& r.mask == r.pattern

/-- Is the OPC field of `v`, bits 7:0 (R78), one of the opcode map's? -/
def knownOpcode (v : Word) : Bool :=
  (opcodeMap v).any fun r => r.pattern &&& 0xFF#32 == v &&& 0xFF#32

/-- `decode(v)` of R83: the first row of the map that matches, else ILLEGAL, with the reason R84 gives. -/
def decode (v : Word) : Except IllegalWord Instr :=
  match (opcodeMap v).find? (·.covers v) with
  | some r => .ok r.instr
  | none => .error (if knownOpcode v then .reservedBits else .reservedOpcode)

/-- A word of form N (R79). -/
def formN (opc : Byte) : Word := 0#16 ++ 0#8 ++ opc

/-- A word of form W (R79): `opc + W * 0x100`. -/
def formW (opc : Byte) (w : Nat) : Word := 0#16 ++ BitVec.ofNat 8 w ++ opc

/-- The command word of a well-formed command (R82, R88). -/
def encode : Instr → Word
  | .nop => formN 0x00#8
  | .cfg => formN 0x01#8
  | .clear => formN 0x02#8
  | .b32Enc => formN 0x10#8
  | .b32Dec => formN 0x11#8
  | .b32Deck => formN 0x12#8
  | .trunc => formN 0x20#8
  | .hotpGen => formN 0x21#8
  | .hotpVal w => formW 0x22#8 w
  | .totpGen => formN 0x30#8
  | .totpVer w => formW 0x31#8 w
  | .totpRem => formN 0x32#8

/-- The opcode table's numbering is the command word's own: every command is one 32-bit word (R78), so bit 0 of `w` is bit
0 of the CMD write, and the bits above `nbits` are 0. No command is longer than 32 bits. -/
def decodeTableWord (nbits w : Nat) : Option Instr :=
  if nbits ≤ 32 then
    match decode (BitVec.ofNat 32 (w % 2 ^ nbits)) with
    | .ok i => some i
    | .error _ => none
  else none

end Sys2Proof
end

