-- ==== Sys2Proof/Config.lean ====
section
/-! DEFINITION. What is fixed for one OTPE: the parameters of 00_scope.md R6 that the spec settles, the two that it
leaves OPEN (`HMAC_FN`, R73, and the base address, R54), and the free values of the spec's unspecified reads
(R64, R172). The OPEN parameters and the free values are opaque: nothing can be proved of what they are. -/

namespace Sys2Proof

/-- The hash selections of CONFIG.ALG (R3, R26): ALG = 0, 1, 2. ALG = 3 is no selection. -/
inductive HashAlg where
  | sha1
  | sha256
  | sha512
deriving DecidableEq, Repr

namespace Config

/-- `HMAC_FN` (R73): the external HMAC core's answer to (algorithm, key, message); `none` is `fail`. An OPEN parameter:
only its determinism, which being a function gives, may be assumed (DESIGN CHOICE, assumption 1). -/
opaque hmacFn : HashAlg → List Byte → List Byte → Option (List Byte)

/-- FREE VALUE. What the byte of BUF_A or BUF_B at window offset `a` holds from the `n`-th reset on until it is written
(R172: "unspecified"), as `powerUpByte n a` (DEDUCED, assumption 2). -/
opaque powerUpByte : Nat → Nat → Byte

/-- FREE VALUE. The `n`-th unspecified word a host read returns while BUSY = 1 (R64: "any u32 value"; DEDUCED, assumption 3). -/
opaque freeWord : Nat → Word

/-- `OTPE_BASE` (R54): the platform's address of the host window. An OPEN parameter; no rule depends on it
(DESIGN CHOICE, assumption 16). -/
opaque otpeBase : Nat

/-- The constant of the ID register (R22), ASCII "OTP1". -/
abbrev idValue : Word := 0x4F545031#32

/-- The largest digit count CFG accepts (R6, R26). -/
abbrev maxDigits : Nat := 10

/-- The capacity of KEY and the largest KEY_LEN CFG accepts (R6, R29). -/
abbrev maxKeyLen : Nat := 128

/-- The capacity of CAND and the largest CAND_LEN a validation accepts (R6, R32). -/
abbrev maxCandLen : Nat := 16

/-- The largest source B32_ENC accepts, in bytes (R6, R33). -/
abbrev maxEncodeLen : Nat := 160

/-- The largest source B32_DEC and B32_DECK accept, in characters (R6, R33). -/
abbrev maxDecodeLen : Nat := 256

end Config

end Sys2Proof
end

