-- ==== Sys2Proof/Machine/State.lean ====
section
/-! DEFINITION. The state of OTPE (10_state.md), of its HMAC port (20_memory.md R71) and of the host that drives it, as
plain data; the reasons a step can stop; the state after reset (70_reset_and_hazards.md R171). -/

namespace Sys2Proof.Machine

/-- Why the machine stops. -/
inductive Fault where
  /-- Raised by an OTP command (TRUNC, HOTP_GEN, HOTP_VAL, TOTP_GEN, TOTP_VER, TOTP_REM) that runs with LOCK = 1 and a
  configuration that CFG rejects. No run from reset reaches such a state (R26, R149) and the spec gives the command no
  effect in it. SAFE: the model stops (DESIGN CHOICE, assumption 5). -/
  | illegalConfigUnderLock
deriving DecidableEq, Repr

/-- What the model gives no meaning to. -/
inductive Refusal where
  /-- An instruction without a meaning, by its mnemonic in spec/opcode_table.json; no arm of `exec` uses it. SAFE. -/
  | notModelled (mnemonic : String)
  /-- A host access presented while the reset input is asserted: OTPE answers none, and the platform must not present one
  (R170; 93_implementation_defined.md I13, "refuse"). Raised by the host's turn. SAFE (DEDUCED, assumption 6). -/
  | accessDuringReset
deriving DecidableEq, Repr

/-- The sequencer's `phase` (R50). -/
inductive Phase where
  | idle
  | run
  | waitHmac
deriving DecidableEq, Repr

/-- The errors a command can end with (R151). -/
inductive ErrCode where
  | illegalCmd
  | locked
  | notConfigured
  | invalidConfig
  | length
  | invalidChar
  | hmacFail
deriving DecidableEq, Repr

/-- One request on the HMAC port (R71). -/
structure HmacReq where
  alg : HashAlg
  key : List Byte
  msg : List Byte
deriving DecidableEq, Repr

/-- A write a command has computed and not yet committed, an element of `staged` (R50, R96). -/
inductive Pending where
  | lock (b : Bool)
  | matched (b : Bool)
  | keyLen (v : BitVec 8)
  | dstLen (v : BitVec 9)
  | otp (v : BitVec 31)
  | binary (v : BitVec 31)
  | offset (v : BitVec 4)
  | mctr (v : DWord)
  | tctr (v : DWord)
  | remain (v : Word)
  /-- `bs` into the buffer bytes from window offset `base` on. -/
  | bytes (base : Nat) (bs : List Byte)
deriving DecidableEq, Repr

/-- The Base32 shifter (R50, R103, R109): `acc` and `nbits`; the source index `i` of the pseudocode, as `pos`; and the
bytes emitted so far, `out`, which are part of `staged` until the command completes (DESIGN CHOICE, assumption 14). -/
structure Shifter where
  acc : Nat
  nbits : Nat
  pos : Nat
  out : List Byte
deriving DecidableEq, Repr

/-- The shifter as issue leaves it (R51, R92). -/
def Shifter.start : Shifter := { acc := 0, nbits := 0, pos := 0, out := [] }

/-- The width of a host access (R56). -/
inductive Width where
  | byte
  | half
  | word
deriving DecidableEq, Repr

/-- One host access at a byte offset of the 4096-byte window (R55). -/
inductive Access where
  | read (w : Width) (a : BitVec 12)
  | write (w : Width) (a : BitVec 12) (v : Word)
deriving DecidableEq, Repr

/-- The bus response (R55, R56). -/
inductive Resp where
  | okay
  | error
deriving DecidableEq, Repr

/-- What the host receives for one access (R55). -/
inductive Reply where
  | read (r : Resp) (v : Word)
  | write (r : Resp)
deriving DecidableEq, Repr

/-- One operation of the host's program (R91): an access, or the polling loop `wait` (R89). -/
inductive HostOp where
  | access (x : Access)
  | wait
deriving DecidableEq, Repr

/-- Which agent moves (R16, R99), or a change of the reset input (R170): the MODEL's own (DESIGN CHOICE, assumption 7). -/
inductive Turn where
  /-- The host performs the next operation of its program. -/
  | host
  /-- The sequencer takes one internal step of the running command (R94, R99). -/
  | seq
  /-- The HMAC core answers the outstanding request (R72). -/
  | hmac
  /-- The sequencer and the HMAC core bring the running command to its completion, no host access in between. -/
  | run
  /-- The reset input is asserted (R170, R173). -/
  | assertReset
  /-- The reset input is released (R171). -/
  | releaseReset
deriving DecidableEq, Repr

/-- The buffers' bytes: (window offset, byte), offsets strictly rising, none listed that equals what an unlisted offset
reads as (`Memory.wf`). -/
abbrev Memory := List Host.Cell

/-- The state. Registers and flags are those of R19 and R23, in the widths R22 to R42 give; the buffers of R43 to R48 are
in `mem`; the hidden state is R50's. `request` is the HMAC port's outstanding request (R71, R72). `inReset` is the level
of the reset input (R170). The MODEL's own (assumptions 2, 3, 7, 8): `epoch` and `draws` index the free values of `Config`;
`program` is the host's remaining program; `schedule` and `recurring` are the order in which the agents move, the turns still
to come and the turns that come over and over after them; `replies` and `requests` are what the host has received and what
the HMAC port has carried. -/
structure State where
  busy : Bool
  done : Bool
  err : Bool
  matched : Bool
  lock : Bool
  ovr : Bool
  errCode : BitVec 4
  digits : BitVec 4
  alg : BitVec 2
  strictLen : Bool
  tstep : Word
  keyLen : BitVec 8
  ctrLo : Word
  ctrHi : Word
  timeLo : Word
  timeHi : Word
  candLen : BitVec 5
  srcLen : BitVec 9
  dstLen : BitVec 9
  otp : BitVec 31
  binary : BitVec 31
  offset : BitVec 4
  mctrLo : Word
  mctrHi : Word
  tctrLo : Word
  tctrHi : Word
  remain : Word
  irqEn : Bool
  errInfo : Word
  mem : Memory
  phase : Phase
  cmd : Word
  j : Nat
  first : Option DWord
  scratch : List Byte
  shifter : Shifter
  staged : List Pending
  request : Option HmacReq
  inReset : Bool
  epoch : Nat
  draws : Nat
  program : List HostOp
  schedule : List Turn
  recurring : List Turn
  replies : List Reply
  requests : List HmacReq
deriving DecidableEq, Repr

/-- The machine right after reset (R171, R174): idle, unconfigured, the interrupt masked, KEY zeroed, BUF_A and BUF_B
unspecified (`mem` lists nothing), no program. `scratch` is DL zero bytes for the reset algorithm SHA-1 (DEDUCED, assumption 4). -/
def State.reset : State where
  busy := false
  done := false
  err := false
  matched := false
  lock := false
  ovr := false
  errCode := 0#4
  digits := 6#4
  alg := 0#2
  strictLen := false
  tstep := 30#32
  keyLen := 0#8
  ctrLo := 0#32
  ctrHi := 0#32
  timeLo := 0#32
  timeHi := 0#32
  candLen := 0#5
  srcLen := 0#9
  dstLen := 0#9
  otp := 0#31
  binary := 0#31
  offset := 0#4
  mctrLo := 0#32
  mctrHi := 0#32
  tctrLo := 0#32
  tctrHi := 0#32
  remain := 0#32
  irqEn := false
  errInfo := 0#32
  mem := []
  phase := .idle
  cmd := 0#32
  j := 0
  first := none
  scratch := List.replicate 20 0#8
  shifter := Shifter.start
  staged := []
  request := none
  inReset := false
  epoch := 0
  draws := 0
  program := []
  schedule := []
  recurring := []
  replies := []
  requests := []

end Sys2Proof.Machine
end

