-- ==== Sys2Proof/Machine/Flags.lean ====
section
/-! DEFINITION. STATUS (10_state.md R23, R24), what issue and completion do to it (30_encoding.md R92, R96, R98), and the
interrupt output (60_exceptions.md R161). -/

namespace Sys2Proof.Machine

/-- The word a read of STATUS returns (R23): ERRCODE in 11:8, OVR 5, LOCK 4, MATCH 3, ERR 2, DONE 1, BUSY 0; the rest 0. -/
def statusWord (s : State) : Word :=
  (s.errCode ++ 0#2 ++ BitVec.ofBool s.ovr ++ BitVec.ofBool s.lock ++ BitVec.ofBool s.matched ++ BitVec.ofBool s.err
    ++ BitVec.ofBool s.done ++ BitVec.ofBool s.busy).setWidth 32

/-- A host write of `v` to STATUS (R24): bit 1 clears DONE, bit 2 clears ERR and ERRCODE, bit 5 clears OVR. -/
def writeStatus (v : Word) (s : State) : State :=
  { s with
    done := s.done && !v.getLsbD 1
    err := s.err && !v.getLsbD 2
    errCode := if v.getLsbD 2 then 0#4 else s.errCode
    ovr := s.ovr && !v.getLsbD 5 }

/-- The flags at issue (R92): BUSY set; DONE, ERR and ERRCODE cleared. -/
def flagsAtIssue (s : State) : State :=
  { s with busy := true, done := false, err := false, errCode := 0#4 }

/-- The flags and ERRINFO at a successful completion (R52, R96). -/
def flagsAtSuccess (s : State) : State :=
  { s with busy := false, done := true, err := false, errCode := 0#4, errInfo := 0#32 }

/-- The value of STATUS.ERRCODE for an error (R151). -/
def ErrCode.code : ErrCode → BitVec 4
  | .illegalCmd => 1#4
  | .locked => 2#4
  | .notConfigured => 3#4
  | .invalidConfig => 4#4
  | .length => 5#4
  | .invalidChar => 6#4
  | .hmacFail => 7#4

/-- The flags and ERRINFO at an error completion (R98). -/
def flagsAtError (e : ErrCode) (info : Word) (s : State) : State :=
  { s with busy := false, done := true, err := true, errCode := e.code, errInfo := info }

/-- The busy rule's mark of a dropped write (R63). -/
def flagDropped (s : State) : State := { s with ovr := true }

/-- The interrupt output (R161): level-sensitive, DONE AND IE. -/
def irq (s : State) : Bool := s.done && s.irqEn

end Sys2Proof.Machine
end

