-- ==== Sys2Proof/Machine/Ops.lean ====
section
/-! DEFINITION. The named operations over the buffers and registers, and the life cycle of a command: issue, commit, the
error completion (this hardware's taking of an exception: 60_exceptions.md R153, R157), the HMAC port, reset. -/

namespace Sys2Proof.Machine

/-! ## The buffers -/

/-- The buffers of the window (R19). -/
inductive Buffer where
  | code
  | cand
  | digest
  | key
  | bufA
  | bufB
deriving DecidableEq, Repr

/-- A buffer's window offset (R19). -/
def Buffer.base : Buffer → Nat
  | .code => 0x060
  | .cand => 0x070
  | .digest => 0x080
  | .key => 0x100
  | .bufA => 0x200
  | .bufB => 0x300

/-- A buffer's size in bytes (R19). -/
def Buffer.size : Buffer → Nat
  | .code => 16
  | .cand => 16
  | .digest => 64
  | .key => 128
  | .bufA => 256
  | .bufB => 256

/-- Does window offset `a` lie in the buffer? -/
def Buffer.holds (b : Buffer) (a : Nat) : Bool := decide (b.base ≤ a) && decide (a < b.base + b.size)

/-- The buffer that holds window offset `a`, if one does. -/
def bufferAt (a : Nat) : Option Buffer :=
  [Buffer.code, .cand, .digest, .key, .bufA, .bufB].find? (·.holds a)

/-- What an unlisted offset reads as: the reset contents, all 0x00, but no value in BUF_A and BUF_B, whose reset contents
R172 leaves unspecified (`byteAt` gives them a free value). -/
def Memory.unlisted (a : Nat) : Option Byte :=
  if Buffer.bufA.holds a || Buffer.bufB.holds a then none else some 0#8

/-- The listed cell that holds `b` at `a`: none where an unlisted offset reads as `b`, none outside the buffers. -/
def Memory.cell (a : Nat) (b : Byte) : List Host.Cell :=
  if (bufferAt a).isSome && Memory.unlisted a != some b then [(a, b)] else []

/-- The canonical form: offsets strictly rising, each in a buffer, none listed that equals what an unlisted one reads. -/
abbrev Memory.wf (m : Memory) : Prop :=
  m.Pairwise (fun c d => c.1 < d.1) ∧ ∀ c ∈ m, (bufferAt c.1).isSome = true ∧ Memory.unlisted c.1 ≠ some c.2

/-- The byte at `a`: the listed one, else what an unlisted offset reads as. -/
def Memory.read (m : Memory) (a : Nat) : Option Byte :=
  match m.find? (fun c => c.1 == a) with
  | some c => some c.2
  | none => Memory.unlisted a

/-- The cells of the bytes `bs` from `a` on. -/
def Memory.cells : Nat → List Byte → List Host.Cell
  | _, [] => []
  | a, b :: bs => Memory.cell a b ++ Memory.cells (a + 1) bs

/-- Write the bytes `bs` from `a` on, keeping the canonical form. -/
def Memory.write (m : Memory) (a : Nat) (bs : List Byte) : Memory :=
  m.filter (fun c => decide (c.1 < a)) ++ Memory.cells a bs ++ m.filter (fun c => decide (a + bs.length ≤ c.1))

/-- The byte at window offset `a`: what was written, else the reset contents, else (BUF_A and BUF_B) a free value. -/
def byteAt (s : State) (a : Nat) : Byte :=
  match s.mem.read a with
  | some b => b
  | none => Config.powerUpByte s.epoch a

/-- `BUF[0..n)` of the buffer `b` (R7, R10). -/
def bytesOf (s : State) (b : Buffer) (n : Nat) : List Byte :=
  (List.range n).map fun k => byteAt s (b.base + k)

/-- The buffer word at window offset `a`, in the lane order of R57. -/
def wordAt (s : State) (a : Nat) : Word :=
  byteAt s (a + 3) ++ byteAt s (a + 2) ++ byteAt s (a + 1) ++ byteAt s a

/-- The four bytes of a word in the lane order of R57. -/
def lanes (v : Word) : List Byte :=
  [v.extractLsb' 0 8, v.extractLsb' 8 8, v.extractLsb' 16 8, v.extractLsb' 24 8]

/-- Write the bytes `bs` into the buffers from window offset `a` on. -/
def writeBytes (a : Nat) (bs : List Byte) (s : State) : State :=
  { s with mem := s.mem.write a bs }

/-! ## Register pairs and bytes of a counter -/

/-- The halves of a 64-bit value (R58). -/
def loHalf (v : DWord) : Word := v.extractLsb' 0 32
def hiHalf (v : DWord) : Word := v.extractLsb' 32 32

/-- CTR (R30), TIME (R31), MCTR (R38) and TCTR (R39), each from its pair. -/
def ctr (s : State) : DWord := s.ctrHi ++ s.ctrLo
def time (s : State) : DWord := s.timeHi ++ s.timeLo
def mctr (s : State) : DWord := s.mctrHi ++ s.mctrLo
def tctr (s : State) : DWord := s.tctrHi ++ s.tctrLo

/-- `BE_8(v)` (R9, R123): the 8 bytes of a counter, most significant first. -/
def be8 (v : DWord) : List Byte :=
  (List.range 8).map fun k => v.extractLsb' (56 - 8 * k) 8

/-! ## Issue, commit and error completion -/

/-- Apply one staged write to the architectural state. -/
def applyPending (s : State) : Pending → State
  | .lock b => { s with lock := b }
  | .matched b => { s with matched := b }
  | .keyLen v => { s with keyLen := v }
  | .dstLen v => { s with dstLen := v }
  | .otp v => { s with otp := v }
  | .binary v => { s with binary := v }
  | .offset v => { s with offset := v }
  | .mctr v => { s with mctrLo := loHalf v, mctrHi := hiHalf v }
  | .tctr v => { s with tctrLo := loHalf v, tctrHi := hiHalf v }
  | .remain v => { s with remain := v }
  | .bytes a bs => writeBytes a bs s

/-- What every completion does to the hidden state (R96 to R98): `phase <- IDLE`, nothing staged, no request outstanding.
The rest of it stays until the next issue (DEDUCED, assumption 13). -/
def idleSequencer (s : State) : State :=
  { s with phase := .idle, staged := [], shifter := { s.shifter with out := [] }, request := none }

/-- The issue of a command word (R92). -/
def issue (v : Word) (s : State) : State :=
  { flagsAtIssue s with
    cmd := v, phase := .run, j := 0, first := none, shifter := Shifter.start, staged := [], request := none }

/-- The commit of the staged writes `ws`, with the completion, in one step (R96). -/
def commit (ws : List Pending) (s : State) : State :=
  idleSequencer (flagsAtSuccess (ws.foldl applyPending s))

/-- `raise E(info)` (R98): the error completion. It discards what is staged and writes STATUS and ERRINFO only. -/
def raise (e : ErrCode) (info : Word) (s : State) : State :=
  idleSequencer (flagsAtError e info s)

/-- The host's acknowledgement of an error (R158): writing 1 to STATUS.ERR, the return from `raise`. -/
def acknowledge (s : State) : State := writeStatus 0x4#32 s

/-! ## The HMAC port -/

/-- DL, the digest length (R116). -/
def digestLen : HashAlg → Nat
  | .sha1 => 20
  | .sha256 => 32
  | .sha512 => 64

/-- The HMAC core's answer to a request, after the digest length check (R72, R74). -/
def hmacAnswer (r : HmacReq) : Option (List Byte) :=
  match Config.hmacFn r.alg r.key r.msg with
  | some d => if d.length = digestLen r.alg then some d else none
  | none => none

/-- Send a request (R72); while one is outstanding it stays the one outstanding (R71). -/
def sendRequest (r : HmacReq) (s : State) : State :=
  match s.request with
  | some _ => s
  | none => { s with phase := .waitHmac, request := some r, requests := s.requests ++ [r] }

/-- Take the response: the request is no longer outstanding and `phase <- RUN` (R72). -/
def endRequest (s : State) : State := { s with phase := .run, request := none }

/-! ## Reset -/

/-- The reset input asserted (R170, R171, R173): the state is the reset state, a running command and an outstanding
request are abandoned. The host's program, the schedule and the records of what host and port saw are not OTPE's and stay;
`epoch` moves on, so that BUF_A and BUF_B hold new unspecified bytes (R172; DEDUCED, assumptions 2 and 18). -/
def assertReset (s : State) : State :=
  { State.reset with
    inReset := true, epoch := s.epoch + 1, draws := s.draws, program := s.program, schedule := s.schedule,
    recurring := s.recurring, replies := s.replies, requests := s.requests }

/-- The reset input released (R171). -/
def releaseReset (s : State) : State := { s with inReset := false }

end Sys2Proof.Machine
end

