-- ==== Sys2Proof/Machine/Operands.lean ====
section
/-! DEFINITION. Where commands and host accesses find their operands: the register map (10_state.md R19 to R49), the
configuration CFG checks (43_control.md R148) and the engine instance an OTP command reads (30_encoding.md R81). -/

namespace Sys2Proof.Machine

/-! ## The register map -/

/-- A location of the host window (R19); `buf b a` is the word at offset `a` of buffer `b`. -/
inductive Loc where
  | id
  | status
  | cmd
  | config
  | tstep
  | keyLen
  | ctrLo
  | ctrHi
  | timeLo
  | timeHi
  | candLen
  | srcLen
  | dstLen
  | otp
  | binary
  | offset
  | mctrLo
  | mctrHi
  | tctrLo
  | tctrHi
  | remain
  | irqEn
  | errInfo
  | buf (b : Buffer) (a : Nat)
  | reserved
deriving DecidableEq, Repr

/-- The registers' offsets (R19). -/
def registerMap : List (Nat × Loc) :=
  [ (0x000, .id), (0x004, .status), (0x008, .cmd), (0x00C, .config), (0x010, .tstep), (0x014, .keyLen),
    (0x018, .ctrLo), (0x01C, .ctrHi), (0x020, .timeLo), (0x024, .timeHi), (0x028, .candLen), (0x02C, .srcLen),
    (0x030, .dstLen), (0x034, .otp), (0x038, .binary), (0x03C, .offset), (0x040, .mctrLo), (0x044, .mctrHi),
    (0x048, .tctrLo), (0x04C, .tctrHi), (0x050, .remain), (0x054, .irqEn), (0x058, .errInfo) ]

/-- The location at a word-aligned window offset (R19); every offset not listed is reserved (R21). -/
def locate (a : Nat) : Loc :=
  match registerMap.lookup a with
  | some l => l
  | none =>
    match bufferAt a with
    | some b => .buf b a
    | none => .reserved

/-- The word a read of CONFIG returns (R26): STRICT_LEN in bit 8, ALG in 5:4, DIGITS in 3:0, the rest 0. -/
def configWord (s : State) : Word :=
  (BitVec.ofBool s.strictLen ++ 0#2 ++ s.alg ++ s.digits).setWidth 32

/-- The value a read of a location returns outside the busy rule (R20 to R48). CMD and KEY are write-only: they read 0. -/
def readLoc (s : State) : Loc → Word
  | .id => Config.idValue
  | .status => statusWord s
  | .cmd => 0#32
  | .config => configWord s
  | .tstep => s.tstep
  | .keyLen => s.keyLen.setWidth 32
  | .ctrLo => s.ctrLo
  | .ctrHi => s.ctrHi
  | .timeLo => s.timeLo
  | .timeHi => s.timeHi
  | .candLen => s.candLen.setWidth 32
  | .srcLen => s.srcLen.setWidth 32
  | .dstLen => s.dstLen.setWidth 32
  | .otp => s.otp.setWidth 32
  | .binary => s.binary.setWidth 32
  | .offset => s.offset.setWidth 32
  | .mctrLo => s.mctrLo
  | .mctrHi => s.mctrHi
  | .tctrLo => s.tctrLo
  | .tctrHi => s.tctrHi
  | .remain => s.remain
  | .irqEn => (BitVec.ofBool s.irqEn).setWidth 32
  | .errInfo => s.errInfo
  | .buf .key _ => 0#32
  | .buf .code a => wordAt s a
  | .buf .cand a => wordAt s a
  | .buf .digest a => wordAt s a
  | .buf .bufA a => wordAt s a
  | .buf .bufB a => wordAt s a
  | .reserved => 0#32

/-- The effect of a host write of `v` that the busy rule and the lock let through (R20, R24 to R49): the bits of the
location's fields are stored, the rest discarded (R49); a read-only or reserved location ignores it; CMD issues (R25). -/
def writeLoc (v : Word) (s : State) : Loc → State
  | .id => s
  | .status => writeStatus v s
  | .cmd => issue v s
  | .config => { s with digits := v.extractLsb' 0 4, alg := v.extractLsb' 4 2, strictLen := v.getLsbD 8 }
  | .tstep => { s with tstep := v }
  | .keyLen => { s with keyLen := v.extractLsb' 0 8 }
  | .ctrLo => { s with ctrLo := v }
  | .ctrHi => { s with ctrHi := v }
  | .timeLo => { s with timeLo := v }
  | .timeHi => { s with timeHi := v }
  | .candLen => { s with candLen := v.extractLsb' 0 5 }
  | .srcLen => { s with srcLen := v.extractLsb' 0 9 }
  | .dstLen => s
  | .otp => s
  | .binary => s
  | .offset => s
  | .mctrLo => s
  | .mctrHi => s
  | .tctrLo => s
  | .tctrHi => s
  | .remain => s
  | .irqEn => { s with irqEn := v.getLsbD 0 }
  | .errInfo => s
  | .buf .code _ => s
  | .buf .cand a => writeBytes a (lanes v) s
  | .buf .digest a => writeBytes a (lanes v) s
  | .buf .key a => writeBytes a (lanes v) s
  | .buf .bufA a => writeBytes a (lanes v) s
  | .buf .bufB a => writeBytes a (lanes v) s
  | .reserved => s

/-- The locations frozen while LOCK = 1 (R19 column L, R27). -/
def frozenByLock : Loc → Bool
  | .config => true
  | .tstep => true
  | .keyLen => true
  | .buf .key _ => true
  | _ => false

/-- The locations a host write reaches while BUSY = 1 (R63). -/
def openWhileBusy : Loc → Bool
  | .status => true
  | .irqEn => true
  | _ => false

/-! ## The configuration and the engine instance -/

/-- The hash selection of CONFIG.ALG (R26): 3 is none. -/
def hashAlg (a : BitVec 2) : Option HashAlg :=
  if a = 0#2 then some .sha1
  else if a = 1#2 then some .sha256
  else if a = 2#2 then some .sha512
  else none

/-- CFG's field checks (R148), in its order: the error and ERRINFO of the first that fails. -/
def configFault (s : State) : Option (ErrCode × Word) :=
  if s.digits = 0#4 ∨ Config.maxDigits < s.digits.toNat then some (.invalidConfig, 1#32)
  else if s.alg = 3#2 then some (.invalidConfig, 2#32)
  else if s.tstep = 0#32 then some (.invalidConfig, 3#32)
  else if Config.maxKeyLen < s.keyLen.toNat then some (.length, s.keyLen.setWidth 32)
  else none

/-- The configuration and secret an OTP command reads (R81), of a configuration that CFG accepts. -/
structure Engine where
  digits : Nat
  alg : HashAlg
  strict : Bool
  tstep : Nat
  key : List Byte
deriving DecidableEq, Repr

/-- The engine instance of a state (R149), where its configuration passes CFG's checks. -/
def engineOf (s : State) : Option Engine :=
  match configFault s, hashAlg s.alg with
  | none, some h =>
    some {
      digits := s.digits.toNat, alg := h, strict := s.strictLen, tstep := s.tstep.toNat,
      key := bytesOf s .key s.keyLen.toNat }
  | _, _ => none

/-! ## What a command has to do -/

/-- Where a Base32 decode puts its bytes: BUF_B (R112) or KEY (R113). -/
inductive DecodeTo where
  | bufB
  | key
deriving DecidableEq, Repr

/-- What a command, its checks made (R93) and its operands read (R95), has to do. -/
inductive Job where
  /-- `raise E(info)`: a check failed. -/
  | fail (e : ErrCode) (info : Word)
  /-- Commit these writes; no loop is needed. -/
  | write (ws : List Pending)
  /-- Encode the source in the Base32 shifter (R103, R106). -/
  | encode (src : List Byte)
  /-- Decode the stripped, valid source in the Base32 shifter (R109, R112, R113). -/
  | decode (src : List Byte) (dst : DecodeTo)
  /-- One generation at counter `c` (R124), committed after the writes `pre`. -/
  | generate (e : Engine) (c : DWord) (pre : List Pending)
  /-- The passes `ps` of the multi-pass validator on the normalized candidate `t` (R129), `none` being SKIP; the result
  is committed after the writes `pre`. -/
  | validate (e : Engine) (t : List Byte) (ps : List (Option DWord)) (pre : List Pending)
  /-- LOCK = 1 with a configuration that CFG rejects: no run reaches it (`Fault.illegalConfigUnderLock`). -/
  | unreachable
deriving DecidableEq, Repr

/-- The lock requirement of the OTP commands (R154): NOT_CONFIGURED when LOCK = 0, else `k` of the engine instance. -/
def withEngine (s : State) (k : Engine → Job) : Job :=
  if s.lock then
    match engineOf s with
    | some e => k e
    | none => .unreachable
  else .fail .notConfigured 0#32

/-- The candidate length check of the validation commands (R130). -/
def withCandidate (s : State) (k : List Byte → Job) : Job :=
  if Config.maxCandLen < s.candLen.toNat then .fail .length (s.candLen.setWidth 32)
  else k (bytesOf s .cand s.candLen.toNat)

end Sys2Proof.Machine
end

