-- ==== Sys2Proof/Machine/Base32.lean ====
section
/-! DEFINITION. The Base32 unit (40_base32.md): the lookup tables, the shifter, and what B32_ENC, B32_DEC and B32_DECK do. -/

namespace Sys2Proof.Machine

/-! ## The lookup tables -/

/-- The encode table `ALPHA[v]`, `v` in 0 to 31 (R101): 'A' to 'Z', then '2' to '7'. -/
def alpha (v : Nat) : Byte := if v < 26 then BitVec.ofNat 8 (0x41 + v) else BitVec.ofNat 8 (0x32 + (v - 26))

/-- The padding character '=' (R101). -/
def padByte : Byte := 0x3D#8

/-- The decode table `LUT(c)` (R102); `none` is INVALID. -/
def lut (c : Byte) : Option Nat :=
  if 0x41 ≤ c.toNat ∧ c.toNat ≤ 0x5A then some (c.toNat - 0x41)
  else if 0x61 ≤ c.toNat ∧ c.toNat ≤ 0x7A then some (c.toNat - 0x61)
  else if 0x32 ≤ c.toNat ∧ c.toNat ≤ 0x37 then some (c.toNat - 0x32 + 26)
  else none

/-! ## Encode -/

/-- The `while nbits >= 5` loop of R103: the symbols of `acc`'s low `nbits` bits, five bits each, from the top. -/
def drainSymbols (acc : Nat) : Nat → List Byte
  | n + 5 => alpha ((acc >>> n) &&& 0x1F) :: drainSymbols acc n
  | _ => []

/-- One source byte into the encode shifter (the `for` body of R103). -/
def encodeByte (sh : Shifter) (b : Byte) : Shifter :=
  let acc := (sh.acc <<< 8) ||| b.toNat
  let nbits := sh.nbits + 8
  { acc := acc &&& ((1 <<< (nbits % 5)) - 1)
    nbits := nbits % 5
    pos := sh.pos + 1
    out := sh.out ++ drainSymbols acc nbits }

/-- The text of R103 once the source is used up: the residual bits zero-filled on the low side, then '=' to a multiple of 8. -/
def encodedText (sh : Shifter) : List Byte :=
  let out := if 0 < sh.nbits then sh.out ++ [alpha ((sh.acc <<< (5 - sh.nbits)) &&& 0x1F)] else sh.out
  out ++ List.replicate ((8 - out.length % 8) % 8) padByte

/-- `b32encode(src)` (R103). -/
def b32encode (src : List Byte) : List Byte := encodedText (src.foldl encodeByte Shifter.start)

/-! ## Decode -/

/-- The source without its trailing '=' (R107). -/
def stripPadding (src : List Byte) : List Byte := (src.reverse.dropWhile (· == padByte)).reverse

/-- The smallest index of an invalid character (R108). -/
def firstInvalid (src : List Byte) : Option Nat := src.findIdx? fun c => (lut c).isNone

/-- One source character into the decode shifter (the second `for` body of R109). -/
def decodeChar (sh : Shifter) (c : Byte) : Shifter :=
  let acc := (sh.acc <<< 5) ||| (lut c).getD 0
  let nbits := sh.nbits + 5
  if 8 ≤ nbits then
    { acc := acc &&& ((1 <<< (nbits - 8)) - 1)
      nbits := nbits - 8
      pos := sh.pos + 1
      out := sh.out ++ [BitVec.ofNat 8 ((acc >>> (nbits - 8)) &&& 0xFF)] }
  else
    { acc := acc &&& ((1 <<< nbits) - 1), nbits := nbits, pos := sh.pos + 1, out := sh.out }

/-- `b32decode(src)` (R109): the bytes, or the index of the first invalid character. -/
def b32decode (src : List Byte) : Except Nat (List Byte) :=
  let stripped := stripPadding src
  match firstInvalid stripped with
  | some i => .error i
  | none => .ok (stripped.foldl decodeChar Shifter.start).out

/-! ## The ends of the Base32 commands -/

/-- The commit of B32_ENC (R106). -/
def finishEncode (s : State) : State :=
  let out := encodedText s.shifter
  commit [.bytes Buffer.bufB.base out, .dstLen (BitVec.ofNat 9 out.length)] s

/-- What B32_DEC (R112) and B32_DECK (R113) stage for the decoded bytes `r`. -/
def decodeWrites (r : List Byte) : DecodeTo → List Pending
  | .bufB => [.bytes Buffer.bufB.base r, .dstLen (BitVec.ofNat 9 r.length)]
  | .key =>
    [ .bytes Buffer.key.base (r ++ List.replicate (Config.maxKeyLen - r.length) 0#8),
      .keyLen (BitVec.ofNat 8 r.length), .dstLen (BitVec.ofNat 9 r.length) ]

/-- The commit of B32_DEC and B32_DECK. -/
def finishDecode (dst : DecodeTo) (s : State) : State := commit (decodeWrites s.shifter.out dst) s

/-- The Base32 source `BUF_A[0..SRC_LEN)` (R33). -/
def sourceOf (s : State) : List Byte := bytesOf s .bufA s.srcLen.toNat

/-! ## The commands -/

/-- B32_ENC (R106). -/
def jobB32Enc (s : State) : Job :=
  if Config.maxEncodeLen < s.srcLen.toNat then .fail .length (s.srcLen.setWidth 32) else .encode (sourceOf s)

/-- B32_DEC (R112). -/
def jobB32Dec (s : State) : Job :=
  if Config.maxDecodeLen < s.srcLen.toNat then .fail .length (s.srcLen.setWidth 32)
  else
    match b32decode (sourceOf s) with
    | .error i => .fail .invalidChar (BitVec.ofNat 32 i)
    | .ok _ => .decode (stripPadding (sourceOf s)) .bufB

/-- B32_DECK (R113). -/
def jobB32Deck (s : State) : Job :=
  if s.lock then .fail .locked 0#32
  else if Config.maxDecodeLen < s.srcLen.toNat then .fail .length (s.srcLen.setWidth 32)
  else
    match b32decode (sourceOf s) with
    | .error i => .fail .invalidChar (BitVec.ofNat 32 i)
    | .ok r =>
      if Config.maxKeyLen < r.length then .fail .length (BitVec.ofNat 32 r.length)
      else .decode (stripPadding (sourceOf s)) .key

end Sys2Proof.Machine
end

