-- ==== Sys2Proof/Machine/Bus.lean ====
section
/-! DEFINITION. The host's side: accesses to the window (20_memory.md R55 to R66), the busy rules (R63, R64), the lock
(10_state.md R27), and the polling loop `wait` (30_encoding.md R89). -/

namespace Sys2Proof.Machine

/-- The platform address of a window offset (R54). -/
def platformAddress (a : BitVec 12) : Nat := Config.otpeBase + a.toNat

/-- Accesses OTPE admits: 32 bits wide, at a word-aligned offset (R56). -/
def admitted (w : Width) (a : BitVec 12) : Bool := w == .word && a.extractLsb' 0 2 == 0#2

/-- Does the word at offset `a` hold a byte of the first `n` bytes of buffer `b`? -/
def inFirst (b : Buffer) (n : Nat) (a : Nat) : Bool := decide (a < b.base + n)

/-- The length of B32_ENC's result (R104), from the operands: the DST_LEN of the write set `BUF_B[0..DST_LEN)` of R52
(DEDUCED, assumption 11). Above 160 bytes B32_ENC fails and the spec gives no DST_LEN: the same formula stands for it (DESIGN
CHOICE, assumption 20). -/
def encodeLength (s : State) : Nat := 8 * ((s.srcLen.toNat + 4) / 5)

/-- The length of B32_DEC's result (R110), from the operands: its DST_LEN, likewise (DEDUCED, assumption 11). Where B32_DEC
fails the spec gives no DST_LEN: the same formula stands for it, and with SRC_LEN 257 to 511 the source it counts runs on past
BUF_A's 256 bytes into BUF_B's (DESIGN CHOICE, assumption 20). -/
def decodeLength (s : State) : Nat := 5 * (stripPadding (sourceOf s)).length / 8

/-- DL of CONFIG.ALG (R116), as the extent of what a generation writes into DIGEST. -/
def digestExtent (s : State) : Nat :=
  match hashAlg s.alg with
  | some h => digestLen h
  | none => 0

/-- The results of `stage_code` (R121): OFFSET, BINARY, OTP, CODE. -/
def codeResult : Loc → Bool
  | .offset => true
  | .binary => true
  | .otp => true
  | .buf .code _ => true
  | _ => false

/-- The result pairs MCTR and TCTR. -/
def mctrResult (l : Loc) : Bool := l == .mctrLo || l == .mctrHi
def tctrResult (l : Loc) : Bool := l == .tctrLo || l == .tctrHi

/-- DIGEST[0..DL), which a generation writes. -/
def digestResult (s : State) : Loc → Bool
  | .buf .digest a => inFirst .digest (digestExtent s) a
  | _ => false

/-- BUF_B[0..n), which B32_ENC and B32_DEC write. -/
def bufBResult (n : Nat) : Loc → Bool
  | .buf .bufB a => inFirst .bufB n a
  | _ => false

/-- A word of KEY: the result of B32_DECK (all 128 bytes, R113), and write-only (R46). -/
def keyWord : Loc → Bool
  | .buf .key _ => true
  | _ => false

/-- The locations of CLEAR's row of R52. -/
def clearResult : Loc → Bool
  | .keyLen => true
  | .dstLen => true
  | .remain => true
  | .buf .code _ => true
  | .buf .digest _ => true
  | .buf .key _ => true
  | .buf .bufA _ => true
  | .buf .bufB _ => true
  | l => codeResult l || mctrResult l || tctrResult l

/-- The write set of a command (R52), STATUS and ERRINFO apart. -/
def commandWrites (s : State) (l : Loc) : Instr → Bool
  | .nop => false
  | .cfg => false
  | .clear => clearResult l
  | .b32Enc => bufBResult (encodeLength s) l || l == .dstLen
  | .b32Dec => bufBResult (decodeLength s) l || l == .dstLen
  | .b32Deck => keyWord l || l == .keyLen || l == .dstLen
  | .trunc => codeResult l
  | .hotpGen => digestResult s l || codeResult l
  | .hotpVal _ => mctrResult l
  | .totpGen => tctrResult l || digestResult s l || codeResult l
  | .totpVer _ => tctrResult l || mctrResult l
  | .totpRem => tctrResult l || l == .remain

/-- Is a read of `l` unspecified now (R64)? `l` is in the running command's write set (R52), ERRINFO with it; a word of
which one byte is in it counts whole (DEDUCED, assumption 11). KEY reads 0 whatever runs (R46, R64). -/
def unspecifiedRead (s : State) (l : Loc) : Bool :=
  s.busy && !keyWord l &&
    (l == .errInfo ||
      match decode s.cmd with
      | .ok i => commandWrites s l i
      | .error _ => false)

/-- A host read of a location: the value, and the state after it. Only the counter of free values can change (R61). -/
def busRead (l : Loc) (s : State) : Word × State :=
  if unspecifiedRead s l then (Config.freeWord s.draws, { s with draws := s.draws + 1 }) else (readLoc s l, s)

/-- A host write of `v` to a location: the busy rule (R63), then the lock (R27), then the location's own effect. -/
def busWrite (l : Loc) (v : Word) (s : State) : State :=
  if s.busy && !openWhileBusy l then flagDropped s
  else if s.lock && frozenByLock l then s
  else writeLoc v s l

/-- Record what the host receives. -/
def reply (r : Reply) (s : State) : State := { s with replies := s.replies ++ [r] }

/-- One host access (R55, R56). -/
def access (x : Access) (s : State) : State :=
  match x with
  | .read w a =>
    if admitted w a then
      let (v, t) := busRead (locate a.toNat) s
      reply (.read .okay v) t
    else reply (.read .error 0#32) s
  | .write w a v => if admitted w a then reply (.write .okay) (busWrite (locate a.toNat) v s) else reply (.write .error) s

/-- The host's next operation. `wait` reads STATUS once and stays in the program while the value read has BUSY = 1 (R89). -/
def hostTurn (s : State) : Host.Outcome State Fault Refusal :=
  match s.program with
  | [] => .next s
  | op :: rest =>
    if s.inReset then .refused .accessDuringReset
    else
      match op with
      | .access x => .next (access x { s with program := rest })
      | .wait => .next (access (.read .word 0x004#12) (if s.busy then s else { s with program := rest }))

end Sys2Proof.Machine
end

