-- ==== Sys2Proof/Machine/Truncation.lean ====
section
/-! DEFINITION. The truncation engine and the multi-pass comparator (41_hotp.md R117 to R129), shared by TRUNC and by the
HOTP and TOTP commands. -/

namespace Sys2Proof.Machine

/-! ## Truncation -/

/-- The offset of dynamic truncation (R117): the low four bits of the digest's last byte. -/
def truncOffset (d : List Byte) : BitVec 4 := (d.getD (d.length - 1) 0#8).extractLsb' 0 4

/-- The 31-bit value of dynamic truncation (R117): the four bytes from the offset on, big-endian, the first one's top bit
cleared. -/
def truncBinary (d : List Byte) : BitVec 31 :=
  let o := (truncOffset d).toNat
  (d.getD o 0#8).extractLsb' 0 7 ++ d.getD (o + 1) 0#8 ++ d.getD (o + 2) 0#8 ++ d.getD (o + 3) 0#8

/-- `otp = binary mod 10^digits` (R119), exact. -/
def otpOf (binary : BitVec 31) (digits : Nat) : Nat := binary.toNat % 10 ^ digits

/-- `dec_d(v)` (R11): `d` ASCII decimal digits, most significant first. -/
def decString (d v : Nat) : List Byte :=
  (List.range d).map fun k => BitVec.ofNat 8 (0x30 + v / 10 ^ (d - 1 - k) % 10)

/-- The code of a digest (R120, R121). -/
def codeOf (digits : Nat) (d : List Byte) : List Byte := decString digits (otpOf (truncBinary d) digits)

/-- `stage_code` (R121): what TRUNC, HOTP_GEN and TOTP_GEN stage for the digest `d`. -/
def codeWrites (digits : Nat) (d : List Byte) : List Pending :=
  [ .offset (truncOffset d), .binary (truncBinary d), .otp (BitVec.ofNat 31 (otpOf (truncBinary d) digits)),
    .bytes Buffer.code.base (codeOf digits d ++ List.replicate (Buffer.code.size - digits) 0#8) ]

/-! ## One generation -/

/-- The request of one pass (R71, R124): the algorithm, the secret, and the counter's 8 bytes (R123). -/
def passRequest (e : Engine) (c : DWord) : HmacReq := { alg := e.alg, key := e.key, msg := be8 c }

/-- What HOTP_GEN (R125) and TOTP_GEN (R138) stage for the digest `d` they obtained. -/
def generateWrites (e : Engine) (pre : List Pending) (d : List Byte) : List Pending :=
  pre ++ [.bytes Buffer.digest.base d] ++ codeWrites e.digits d

/-- The step in which a generation takes its digest (R124): the digest into `scratch`, the results into `staged`. -/
def takeGenerated (e : Engine) (pre : List Pending) (d : List Byte) (s : State) : State :=
  { endRequest s with scratch := d, staged := generateWrites e pre d }

/-! ## The multi-pass comparator -/

/-- `pad_d(s)` (R12). -/
def padCandidate (d : Nat) (t : List Byte) : List Byte := List.replicate (d - t.length) 0x30#8 ++ t

/-- `norm(s)` (R127). -/
def normalize (e : Engine) (t : List Byte) : List Byte := if e.strict then t else padCandidate e.digits t

/-- The comparator (R128): the lengths agree and so does every one of the DIGITS byte positions. -/
def codesMatch (digits : Nat) (code t : List Byte) : Bool :=
  decide (t.length = digits) && (List.range digits).all fun k => t.getD k 0#8 == code.getD k 0#8

/-- The first-match latch after a pass at counter `c` with digest `d` (R129). -/
def latch (e : Engine) (t : List Byte) (c : DWord) (d : List Byte) (first : Option DWord) : Option DWord :=
  if codesMatch e.digits (codeOf e.digits d) t && first.isNone then some c else first

/-- The step in which a pass takes its digest (R129): the digest into `scratch`, the comparison, and on to the next pass.
After the last pass `j` is NP, one past R18's last index, until the commit has been made and the next command is issued
(DESIGN CHOICE, assumption 19). -/
def takePass (e : Engine) (t : List Byte) (c : DWord) (d : List Byte) (s : State) : State :=
  { endRequest s with scratch := d, first := latch e t c d s.first, j := s.j + 1 }

/-- A SKIP pass: no request (R129). After a last pass that is SKIP `j` is NP as well (DESIGN CHOICE, assumption 19). -/
def skipPass (s : State) : State := { s with j := s.j + 1 }

/-- What a validation commits (R132, R141): MATCH and MCTR from the latch, after the writes `pre`. -/
def validateWrites (pre : List Pending) (first : Option DWord) : List Pending :=
  pre ++ [.matched first.isSome, .mctr (first.getD 0#64)]

/-- The commit of a validation. -/
def finishValidate (pre : List Pending) (s : State) : State := commit (validateWrites pre s.first) s

/-- A failed request of pass `j` (R124, R129): HMAC_FAIL(j). -/
def hmacFailed (s : State) : State := raise .hmacFail (BitVec.ofNat 32 s.j) s

/-- A pass list entry from an exact counter (R131, R140): SKIP (`none`) outside u64. -/
def passCounter (c : Int) : Option DWord :=
  if 0 ≤ c ∧ c ≤ 2 ^ 64 - 1 then some (BitVec.ofNat 64 c.toNat) else none

end Sys2Proof.Machine
end

