-- ==== Sys2Proof/Machine/Engine.lean ====
section
/-! DEFINITION. How a job is brought to its completion: all of it (`runJob`, what `exec` answers), and one internal step
of it at a time (`stepJob`, `answerJob`), from the same operations (30_encoding.md R93 to R99). Both go on from wherever the
sequencer stands, so that a command may be run by single steps up to any point and by `runJob` from there. What one internal
step is, is the model's (DESIGN CHOICE, assumption 12). -/

namespace Sys2Proof.Machine

/-! ## To the completion -/

/-- The remaining passes of a validation, each request answered (R129). -/
def runPasses (e : Engine) (t : List Byte) (pre : List Pending) : List (Option DWord) → State → State
  | [], s => finishValidate pre s
  | none :: ps, s => runPasses e t pre ps (skipPass s)
  | some c :: ps, s =>
    let s := sendRequest (passRequest e c) s
    match s.request.bind hmacAnswer with
    | none => hmacFailed s
    | some d => runPasses e t pre ps (takePass e t c d s)

/-- A generation, its request answered (R124). What an answered request has already staged is committed. -/
def runGenerate (e : Engine) (c : DWord) (pre : List Pending) (s : State) : State :=
  if s.staged = [] then
    let s := sendRequest (passRequest e c) s
    match s.request.bind hmacAnswer with
    | none => hmacFailed s
    | some d => let s := takeGenerated e pre d s; commit s.staged s
  else commit s.staged s

/-- The rest of a Base32 encode: the source from the shifter's position on, then the commit (R103, R106). -/
def runEncode (src : List Byte) (s : State) : State :=
  finishEncode { s with shifter := (src.drop s.shifter.pos).foldl encodeByte s.shifter }

/-- The rest of a Base32 decode (R109, R112, R113). -/
def runDecode (src : List Byte) (dst : DecodeTo) (s : State) : State :=
  finishDecode dst { s with shifter := (src.drop s.shifter.pos).foldl decodeChar s.shifter }

/-- A job, to its completion. -/
def runJob (k : Job) (s : State) : Host.Outcome State Fault Refusal :=
  match k with
  | .fail e info => .next (raise e info s)
  | .write ws => .next (commit ws s)
  | .encode src => .next (runEncode src s)
  | .decode src dst => .next (runDecode src dst s)
  | .generate e c pre => .next (runGenerate e c pre s)
  | .validate e t ps pre => .next (runPasses e t pre (ps.drop s.j) s)
  | .unreachable => .fault .illegalConfigUnderLock

/-! ## One internal step -/

/-- One source byte of an encode, or its commit. -/
def stepEncode (src : List Byte) (s : State) : State :=
  match src[s.shifter.pos]? with
  | some b => { s with shifter := encodeByte s.shifter b }
  | none => finishEncode s

/-- One source character of a decode, or its commit. -/
def stepDecode (src : List Byte) (dst : DecodeTo) (s : State) : State :=
  match src[s.shifter.pos]? with
  | some c => { s with shifter := decodeChar s.shifter c }
  | none => finishDecode dst s

/-- The next pass's request, the passing over of a SKIP, or the commit. -/
def stepValidate (e : Engine) (ps : List (Option DWord)) (pre : List Pending) (s : State) : State :=
  match ps[s.j]? with
  | some (some c) => sendRequest (passRequest e c) s
  | some none => skipPass s
  | none => finishValidate pre s

/-- One internal step of a job in `phase = RUN`. -/
def stepJob (k : Job) (s : State) : Host.Outcome State Fault Refusal :=
  match k with
  | .fail e info => .next (raise e info s)
  | .write ws => .next (commit ws s)
  | .encode src => .next (stepEncode src s)
  | .decode src dst => .next (stepDecode src dst s)
  | .generate e c _ => .next (if s.staged = [] then sendRequest (passRequest e c) s else commit s.staged s)
  | .validate e _ ps pre => .next (stepValidate e ps pre s)
  | .unreachable => .fault .illegalConfigUnderLock

/-- A job takes the answer to its outstanding request: a digest, or `fail`, which ends the command at once (R94). -/
def answerJob (k : Job) (answer : Option (List Byte)) (s : State) : State :=
  match answer with
  | none => hmacFailed s
  | some d =>
    match k with
    | .generate e _ pre => takeGenerated e pre d s
    | .validate e t ps _ =>
      match ps[s.j]? with
      | some (some c) => takePass e t c d s
      | _ => endRequest s
    | _ => endRequest s

end Sys2Proof.Machine
end

