-- ==== Sys2Proof/Machine/Control.lean ====
section
/-! DEFINITION. The control commands NOP, CFG and CLEAR (43_control.md) and the Base32 commands' meanings (40_base32.md). -/

namespace Sys2Proof.Machine

/-- NOP (R147): no change but the completion fields. -/
def jobNop (_ : State) : Job := .write []

/-- CFG (R148): the lock, the field checks in their order, then LOCK. -/
def jobCfg (s : State) : Job :=
  if s.lock then .fail .locked 0#32
  else
    match configFault s with
    | some (e, info) => .fail e info
    | none => .write [.lock true]

/-- CLEAR (R150): the end of the engine instance. -/
def jobClear (_ : State) : Job :=
  .write [
    .lock false, .matched false,
    .bytes Buffer.key.base (List.replicate Buffer.key.size 0#8), .keyLen 0#8,
    .bytes Buffer.digest.base (List.replicate Buffer.digest.size 0#8),
    .bytes Buffer.code.base (List.replicate Buffer.code.size 0#8),
    .bytes Buffer.bufA.base (List.replicate Buffer.bufA.size 0#8),
    .bytes Buffer.bufB.base (List.replicate Buffer.bufB.size 0#8),
    .dstLen 0#9, .otp 0#31, .binary 0#31, .offset 0#4, .mctr 0#64, .tctr 0#64, .remain 0#32 ]

/-- The meaning of NOP. -/
def execNop (s : State) : Host.Outcome State Fault Refusal := runJob (jobNop s) s

/-- The meaning of CFG. -/
def execCfg (s : State) : Host.Outcome State Fault Refusal := runJob (jobCfg s) s

/-- The meaning of CLEAR. -/
def execClear (s : State) : Host.Outcome State Fault Refusal := runJob (jobClear s) s

/-- The meaning of B32_ENC. -/
def execB32Enc (s : State) : Host.Outcome State Fault Refusal := runJob (jobB32Enc s) s

/-- The meaning of B32_DEC. -/
def execB32Dec (s : State) : Host.Outcome State Fault Refusal := runJob (jobB32Dec s) s

/-- The meaning of B32_DECK. -/
def execB32Deck (s : State) : Host.Outcome State Fault Refusal := runJob (jobB32Deck s) s

end Sys2Proof.Machine
end

