-- ==== Sys2Proof/Machine/Hotp.lean ====
section
/-! DEFINITION. TRUNC, HOTP_GEN and HOTP_VAL (41_hotp.md). -/

namespace Sys2Proof.Machine

/-- TRUNC (R122): the truncation of DIGEST[0..DL). -/
def jobTrunc (s : State) : Job :=
  withEngine s fun e => .write (codeWrites e.digits (bytesOf s .digest (digestLen e.alg)))

/-- HOTP_GEN (R125): one generation at CTR. -/
def jobHotpGen (s : State) : Job := withEngine s fun e => .generate e (ctr s) []

/-- The HOTP pass list (R131): CTR to CTR + W, SKIP above 2^64 - 1. -/
def hotpPasses (c : DWord) (w : Nat) : List (Option DWord) :=
  (List.range (w + 1)).map fun j => passCounter ((c.toNat : Int) + (j : Int))

/-- HOTP_VAL (R132). -/
def jobHotpVal (w : Nat) (s : State) : Job :=
  withEngine s fun e =>
    withCandidate s fun t => .validate e (normalize e t) (hotpPasses (ctr s) w) []

/-- The meaning of TRUNC. -/
def execTrunc (s : State) : Host.Outcome State Fault Refusal := runJob (jobTrunc s) s

/-- The meaning of HOTP_GEN. -/
def execHotpGen (s : State) : Host.Outcome State Fault Refusal := runJob (jobHotpGen s) s

/-- The meaning of HOTP_VAL. -/
def execHotpVal (w : Nat) (s : State) : Host.Outcome State Fault Refusal := runJob (jobHotpVal w s) s

end Sys2Proof.Machine
end

