-- ==== Sys2Proof/Machine/Totp.lean ====
section
/-! DEFINITION. TOTP_GEN, TOTP_VER and TOTP_REM (42_totp.md). -/

namespace Sys2Proof.Machine

/-- Seconds since the epoch (R135). -/
def seconds (s : State) : Nat := (time s).toNat / 1000

/-- The TOTP counter C (R136). -/
def totpCounter (e : Engine) (s : State) : Nat := seconds s / e.tstep

/-- `TCTR <- C`, which every TOTP command stages (R136). -/
def tctrWrite (e : Engine) (s : State) : Pending := .tctr (BitVec.ofNat 64 (totpCounter e s))

/-- TOTP_GEN (R138): one generation at C. -/
def jobTotpGen (s : State) : Job :=
  withEngine s fun e => .generate e (BitVec.ofNat 64 (totpCounter e s)) [tctrWrite e s]

/-- The TOTP pass list (R140): C - W to C + W in that order, SKIP below 0 and above 2^64 - 1. -/
def totpPasses (c w : Nat) : List (Option DWord) :=
  (List.range (2 * w + 1)).map fun j => passCounter ((c : Int) + ((j : Int) - (w : Int)))

/-- TOTP_VER (R141). -/
def jobTotpVer (w : Nat) (s : State) : Job :=
  withEngine s fun e =>
    withCandidate s fun t => .validate e (normalize e t) (totpPasses (totpCounter e s) w) [tctrWrite e s]

/-- The seconds remaining in the step (R143). -/
def remaining (e : Engine) (s : State) : Nat := e.tstep - seconds s % e.tstep

/-- TOTP_REM (R144). -/
def jobTotpRem (s : State) : Job :=
  withEngine s fun e => .write [.remain (BitVec.ofNat 32 (remaining e s)), tctrWrite e s]

/-- The meaning of TOTP_GEN. -/
def execTotpGen (s : State) : Host.Outcome State Fault Refusal := runJob (jobTotpGen s) s

/-- The meaning of TOTP_VER. -/
def execTotpVer (w : Nat) (s : State) : Host.Outcome State Fault Refusal := runJob (jobTotpVer w s) s

/-- The meaning of TOTP_REM. -/
def execTotpRem (s : State) : Host.Outcome State Fault Refusal := runJob (jobTotpRem s) s

end Sys2Proof.Machine
end

