-- ==== Sys2Proof/Machine/Dispatch.lean ====
section
/-! DEFINITION. The meaning of every command: from where the sequencer stands to the command's completion. -/

namespace Sys2Proof.Machine

def exec (i : Instr) (s : State) : Host.Outcome State Fault Refusal :=
  match i with
  | .nop => Sys2Proof.Machine.execNop s
  | .cfg => Sys2Proof.Machine.execCfg s
  | .clear => Sys2Proof.Machine.execClear s
  | .b32Enc => Sys2Proof.Machine.execB32Enc s
  | .b32Dec => Sys2Proof.Machine.execB32Dec s
  | .b32Deck => Sys2Proof.Machine.execB32Deck s
  | .trunc => Sys2Proof.Machine.execTrunc s
  | .hotpGen => Sys2Proof.Machine.execHotpGen s
  | .hotpVal w => Sys2Proof.Machine.execHotpVal w s
  | .totpGen => Sys2Proof.Machine.execTotpGen s
  | .totpVer w => Sys2Proof.Machine.execTotpVer w s
  | .totpRem => Sys2Proof.Machine.execTotpRem s

end Sys2Proof.Machine
end

