-- ==== Sys2Proof/Machine/Sequencer.lean ====
section
/-! DEFINITION. The sequencer and the HMAC core as agents (10_state.md R16): one internal step (30_encoding.md R99), one
response (20_memory.md R72), and the run to the completion. -/

namespace Sys2Proof.Machine

/-- What a command has to do in a state (R93, R95). -/
def jobOf (i : Instr) (s : State) : Job :=
  match i with
  | .nop => jobNop s
  | .cfg => jobCfg s
  | .clear => jobClear s
  | .b32Enc => jobB32Enc s
  | .b32Dec => jobB32Dec s
  | .b32Deck => jobB32Deck s
  | .trunc => jobTrunc s
  | .hotpGen => jobHotpGen s
  | .hotpVal w => jobHotpVal w s
  | .totpGen => jobTotpGen s
  | .totpVer w => jobTotpVer w s
  | .totpRem => jobTotpRem s

/-- A word that decodes to ILLEGAL completes with ILLEGAL_CMD, ERRINFO = the word (R84, R93), at the sequencer's first step
after the issue (DEDUCED, assumption 9). -/
def raiseIllegal (s : State) : State := raise .illegalCmd s.cmd s

/-- The running command, brought to its completion; an idle OTPE does nothing (R169). -/
def runCommand (s : State) : Host.Outcome State Fault Refusal :=
  if s.busy then
    match decode s.cmd with
    | .ok i => exec i s
    | .error _ => .next (raiseIllegal s)
  else .next s

/-- One internal step of the running command; none while a request is outstanding (R72, R75) or when idle. -/
def sequencerTurn (s : State) : Host.Outcome State Fault Refusal :=
  if s.phase = .run then
    match decode s.cmd with
    | .ok i => stepJob (jobOf i s) s
    | .error _ => .next (raiseIllegal s)
  else .next s

/-- The HMAC core answers the outstanding request (R72). With none outstanding nothing happens: a response that arrives
after a reset is discarded (R173; DEDUCED, assumption 10). -/
def hmacTurn (s : State) : Host.Outcome State Fault Refusal :=
  match s.request with
  | none => .next s
  | some r =>
    match decode s.cmd with
    | .ok i => .next (answerJob (jobOf i s) (hmacAnswer r) s)
    | .error _ => .next (raiseIllegal s)

end Sys2Proof.Machine
end

