-- ==== Sys2Proof/Machine/Turns.lean ====
section
/-! DEFINITION. Who moves: the turns of the schedule, and what happens when it is used up (10_state.md R16;
20_memory.md R65, R75; 30_encoding.md R99; 70_reset_and_hazards.md R185). -/

namespace Sys2Proof.Machine

/-- One turn (R16, R99, R170). -/
def takeTurn (t : Turn) (s : State) : Host.Outcome State Fault Refusal :=
  match t with
  | .host => hostTurn s
  | .seq => sequencerTurn s
  | .hmac => hmacTurn s
  | .run => runCommand s
  | .assertReset => .next (assertReset s)
  | .releaseReset => .next (releaseReset s)

/-- The turns to come: the schedule, and once it is used up the recurring turns again, for ever. A recurring order without
the HMAC core's turn is a core that never answers (R75, R185; assumption 7). -/
def upcoming (s : State) : List Turn :=
  match s.schedule with
  | [] => s.recurring
  | ts => ts

/-- The turn taken when none is to come: a running command runs to its completion, else the host moves (DESIGN CHOICE,
assumption 7). -/
def defaultTurn (s : State) : Turn := if s.busy then .run else .host

/-- The next turn: the first to come, else the default. -/
def nextTurn (s : State) : Host.Outcome State Fault Refusal :=
  match upcoming s with
  | [] => takeTurn (defaultTurn s) s
  | t :: rest => takeTurn t { s with schedule := rest }

/-- `s` with the command word `v` issued (R92), OTPE out of reset and the next turn the command's. -/
def withCommand (s : State) (v : Word) : State :=
  let t := issue v s
  { t with inReset := false, schedule := .run :: t.schedule }

end Sys2Proof.Machine
end

