-- ==== Sys2Proof/WellFormed.lean ====
section
/-! DEFINITION. Which commands have an encoding: W is 0 to 255 (30_encoding.md R80, R88). -/

namespace Sys2Proof

/-- W of form W is an 8-bit unsigned number (R80); form N has no operand (R79). -/
def Instr.wellFormed : Instr → Bool
  | .nop => true
  | .cfg => true
  | .clear => true
  | .b32Enc => true
  | .b32Dec => true
  | .b32Deck => true
  | .trunc => true
  | .hotpGen => true
  | .hotpVal w => decide (w ≤ 255)
  | .totpGen => true
  | .totpVer w => decide (w ≤ 255)
  | .totpRem => true

end Sys2Proof
end

