-- ==== Sys2Proof/Safety.lean ====
section
/-! DEFINITION. The terms claims are stated in: a freshly issued command, the two completions and the window written out
field by field, the invariant of the machine, the reachable states, runs without end and fairness, and a safe step. -/

namespace Sys2Proof.Machine

/-- The hidden state as the issue of a command leaves it (R92), the command not yet begun. -/
def State.Fresh (s : State) : Prop :=
  s.phase = .run ∧ s.j = 0 ∧ s.first = none ∧ s.shifter = Shifter.start ∧ s.staged = [] ∧ s.request = none

/-- `s` with what every successful completion writes (R52, R96), and nothing else changed. -/
def State.completed (s : State) : State :=
  { s with
    busy := false, done := true, err := false, errCode := 0#4, errInfo := 0#32
    phase := .idle, staged := [], shifter := { s.shifter with out := [] }, request := none }

/-- `s` with what an error completion writes (R98), and nothing else changed. -/
def State.failed (s : State) (e : ErrCode) (info : Word) : State :=
  { s with
    busy := false, done := true, err := true, errCode := e.code, errInfo := info
    phase := .idle, staged := [], shifter := { s.shifter with out := [] }, request := none }

/-- The writes a generation may have staged (R52, rows HOTP_GEN and TOTP_GEN): TCTR, the digest's bytes, and what
`stage_code` stages (R121). -/
def Pending.ofGeneration : Pending → Bool
  | .tctr _ => true
  | .offset _ => true
  | .binary _ => true
  | .otp _ => true
  | .bytes a bs =>
    decide (a = Buffer.digest.base ∧ bs.length ≤ Buffer.digest.size) ||
      decide (a = Buffer.code.base ∧ bs.length ≤ Buffer.code.size)
  | .lock _ => false
  | .matched _ => false
  | .keyLen _ => false
  | .dstLen _ => false
  | .mctr _ => false
  | .remain _ => false

/-- The request a job waits for where the sequencer stands (R94), if it waits for one. -/
def Job.expects (k : Job) (s : State) : Option HmacReq :=
  match k with
  | .generate e c _ => if s.staged = [] then some (passRequest e c) else none
  | .validate e _ ps _ =>
    match ps[s.j]? with
    | some (some c) => some (passRequest e c)
    | _ => none
  | _ => none

/-- The window offset `a` lies in the `n` bytes from `base` on. -/
abbrev inRun (base n a : Nat) : Prop := base ≤ a ∧ a < base + n

/-- What a host read of the word-aligned window offset `a` returns outside the busy rule, written out from the register map
(R19 to R48): each register's fields at its offset, a buffer word's four bytes with the lowest offset in bits 7:0, and 0 for
CMD, KEY and the reserved offsets. -/
def windowWord (s : State) (a : BitVec 12) : Word :=
  let a := a.toNat
  let registers : List (Nat × Word) :=
    [ (0x000, 0x4F545031#32),
      (0x004, BitVec.ofNat 32 (s.busy.toNat + 2 * s.done.toNat + 4 * s.err.toNat + 8 * s.matched.toNat +
        16 * s.lock.toNat + 32 * s.ovr.toNat + 256 * s.errCode.toNat)),
      (0x008, 0#32),
      (0x00C, BitVec.ofNat 32 (s.digits.toNat + 16 * s.alg.toNat + 256 * s.strictLen.toNat)),
      (0x010, s.tstep), (0x014, BitVec.ofNat 32 s.keyLen.toNat), (0x018, s.ctrLo), (0x01C, s.ctrHi), (0x020, s.timeLo),
      (0x024, s.timeHi), (0x028, BitVec.ofNat 32 s.candLen.toNat), (0x02C, BitVec.ofNat 32 s.srcLen.toNat),
      (0x030, BitVec.ofNat 32 s.dstLen.toNat), (0x034, BitVec.ofNat 32 s.otp.toNat),
      (0x038, BitVec.ofNat 32 s.binary.toNat), (0x03C, BitVec.ofNat 32 s.offset.toNat), (0x040, s.mctrLo),
      (0x044, s.mctrHi), (0x048, s.tctrLo), (0x04C, s.tctrHi), (0x050, s.remain),
      (0x054, BitVec.ofNat 32 s.irqEn.toNat), (0x058, s.errInfo) ]
  match registers.lookup a with
  | some v => v
  | none =>
    if inRun 0x060 0x60 a ∨ inRun 0x200 0x200 a then
      BitVec.ofNat 32 ((byteAt s a).toNat + 2 ^ 8 * (byteAt s (a + 1)).toNat + 2 ^ 16 * (byteAt s (a + 2)).toNat +
        2 ^ 24 * (byteAt s (a + 3)).toNat)
    else 0#32

/-- The word-aligned window offset `a` lies in the write set of the running command (R52; its extent DEDUCED, assumption 11;
that of a B32_ENC or B32_DEC that fails DESIGN CHOICE, assumption 20), KEY apart, which reads 0 (R64). ERRINFO is in every
one, and is all of an illegal word's. -/
def inWriteSet (s : State) (a : Nat) : Prop :=
  let dl := [20, 32, 64].getD s.alg.toNat 0
  let codeSet := a ∈ [0x034, 0x038, 0x03C] ∨ inRun 0x060 16 a
  let mctrSet := a ∈ [0x040, 0x044]
  let tctrSet := a ∈ [0x048, 0x04C]
  a = 0x058 ∨
    match decode s.cmd with
    | .error _ => False
    | .ok .nop => False
    | .ok .cfg => False
    | .ok .clear =>
      a ∈ [0x014, 0x030, 0x050] ∨ codeSet ∨ mctrSet ∨ tctrSet ∨ inRun 0x080 64 a ∨ inRun 0x200 0x200 a
    | .ok .b32Enc => a = 0x030 ∨ (inRun 0x300 256 a ∧ a < 0x300 + 8 * ((s.srcLen.toNat + 4) / 5))
    | .ok .b32Dec =>
      a = 0x030 ∨
        (inRun 0x300 256 a ∧ a < 0x300 + 5 * (stripPadding (bytesOf s .bufA s.srcLen.toNat)).length / 8)
    | .ok .b32Deck => a ∈ [0x014, 0x030]
    | .ok .trunc => codeSet
    | .ok .hotpGen => codeSet ∨ inRun 0x080 dl a
    | .ok (.hotpVal _) => mctrSet
    | .ok .totpGen => tctrSet ∨ codeSet ∨ inRun 0x080 dl a
    | .ok (.totpVer _) => tctrSet ∨ mctrSet
    | .ok .totpRem => tctrSet ∨ a = 0x050

/-- `s` with the results of the truncation of `d` in OFFSET, BINARY and OTP (R121). -/
def State.truncated (s : State) (digits : Nat) (d : List Byte) : State :=
  { s with
    offset := truncOffset d, binary := truncBinary d
    otp := BitVec.ofNat 31 ((truncBinary d).toNat % 10 ^ digits) }

/-- The 16 bytes CODE holds after the truncation of `d` (R43, R121). -/
def codeBuffer (digits : Nat) (d : List Byte) : List Byte :=
  decString digits ((truncBinary d).toNat % 10 ^ digits) ++ List.replicate (16 - digits) 0#8

/-- The pass `p` makes a request that fails (R124). -/
def passFails (e : Engine) (p : Option DWord) : Bool :=
  match p with
  | some c => (hmacAnswer (passRequest e c)).isNone
  | none => false

/-- The counter of the pass `p`, if the pass matches the candidate `t` (R128, R129). -/
def passMatch (e : Engine) (t : List Byte) (p : Option DWord) : Option DWord :=
  match p with
  | some c =>
    match hmacAnswer (passRequest e c) with
    | some d => if codesMatch e.digits (codeOf e.digits d) t then some c else none
    | none => none
  | none => none

/-- The requests of the passes `ps`, in order: one for each that is not SKIP (R129). -/
def passRequests (e : Engine) (ps : List (Option DWord)) : List HmacReq := ps.filterMap fun p => p.map (passRequest e)

/-- What the validator does with the passes `ps` on the normalized candidate `t` (R129, R132, R141), `base` being the state
with what the command commits beside MATCH and MCTR. With no failing pass, every pass makes its request, and MATCH and MCTR
are those of the first match in pass order. With a failing pass, the first, the command ends with HMAC_FAIL and its index,
no later pass makes a request, and nothing is committed. `first` and `scratch` are hidden, and `j` too: that it is NP after
the last pass is the model's choice (assumption 19). -/
def Validates (e : Engine) (t : List Byte) (ps : List (Option DWord)) (s base : State)
    (o : Host.Outcome State Fault Refusal) : Prop :=
  match ps.findIdx? (passFails e) with
  | some k => ∃ f sc, o = .next (({ s with
      requests := s.requests ++ passRequests e (ps.take (k + 1)), j := k, first := f, scratch := sc }).failed
        .hmacFail (BitVec.ofNat 32 k))
  | none => ∃ f sc, o = .next (({ base with
      requests := s.requests ++ passRequests e ps, j := ps.length, first := f, scratch := sc
      matched := (ps.findSome? (passMatch e t)).isSome
      mctrLo := loHalf ((ps.findSome? (passMatch e t)).getD 0#64)
      mctrHi := hiHalf ((ps.findSome? (passMatch e t)).getD 0#64) }).completed)

/-- Two states that agree in everything but the bytes of KEY. -/
def State.sameButKey (s t : State) : Prop :=
  t = { s with mem := t.mem } ∧ ∀ a, ¬ inRun Buffer.key.base Buffer.key.size a → byteAt t a = byteAt s a

/-- What holds of every state a run reaches. -/
structure State.Inv (s : State) : Prop where
  /-- The buffers keep their canonical form. -/
  memory : Memory.wf s.mem
  /-- BUSY = 1 exactly while the phase is not IDLE (R50). -/
  busy_phase : s.busy = true ↔ s.phase ≠ .idle
  /-- The phase is WAIT_HMAC exactly while a request is outstanding (R50, R72). -/
  waiting : s.phase = .waitHmac ↔ s.request.isSome = true
  /-- BUSY = 1 shows DONE = 0 and ERR = 0 (R64). -/
  busy_flags : s.busy = true → s.done = false ∧ s.err = false
  /-- ERR and ERRCODE go together (R24, R92, R96, R98). -/
  err_code : s.err = true ↔ s.errCode ≠ 0#4
  /-- The reserved error codes 8 to 15 are never written (R151). -/
  code_range : s.errCode.toNat ≤ 7
  /-- LOCK = 1 implies that CFG accepted the configuration (R26, R149). -/
  locked : s.lock = true → configFault s = none
  /-- MATCH = 0 shows MCTR = 0 (R38, R150). -/
  no_match : s.matched = false → mctr s = 0#64
  /-- The pass index is 0 to 511 (R50). -/
  pass_range : s.j ≤ 511
  /-- The shifter holds at most 12 bits (R50). -/
  shifter_range : s.shifter.acc < 2 ^ 12 ∧ s.shifter.nbits ≤ 12
  /-- The outstanding request is the one the running command waits for (R71, R94). -/
  request_job : ∀ r, s.request = some r → ∃ i, decode s.cmd = .ok i ∧ (jobOf i s).expects s = some r
  /-- Only a generation's results are ever staged from one step to the next. -/
  staged_kinds : s.staged.all Pending.ofGeneration = true
  /-- While reset is asserted no command runs (R171, R173). -/
  reset_idle : s.inReset = true → s.busy = false

/-- The states of the runs from reset, whatever program the host has and however the agents' turns are ordered. -/
inductive Reachable : State → Prop
  | start (p : List HostOp) (ts us : List Turn) :
      Reachable { State.reset with program := p, schedule := ts, recurring := us }
  | step {s t : State} (h : Reachable s) (hs : Machine.step s = .next t) : Reachable t

/-! ## Runs without end, and fairness -/

/-- A run without end: `states n` is where it stands and `turns n` the turn taken there; what is still on the schedule after
that turn may be anything. -/
def EndlessRun (states : Nat → State) (turns : Nat → Turn) : Prop :=
  ∀ n, ∃ ts, step { states n with schedule := turns n :: ts } = .next (states (n + 1))

/-- Weak fairness of the HMAC core's response step (R185): a request that stays outstanding is answered. The turn `run`
holds the core's answers too. -/
def CoreIsFair (states : Nat → State) (turns : Nat → Turn) : Prop :=
  ∀ n, (∀ m, n ≤ m → (states m).request.isSome = true) → ∃ m, n ≤ m ∧ (turns m = .hmac ∨ turns m = .run)

/-- Weak fairness of the sequencer's internal step: what R185 takes for granted of OTPE itself (DEDUCED, assumption 17). -/
def SequencerMoves (states : Nat → State) (turns : Nat → Turn) : Prop :=
  ∀ n, (∀ m, n ≤ m → (states m).phase = .run) → ∃ m, n ≤ m ∧ (turns m = .seq ∨ turns m = .run)

/-- The turns of the sequencer and the HMAC core alone, `n` of them: the core answers as soon as it is asked (R185). -/
def drive : Nat → State → Host.Outcome State Fault Refusal
  | 0, s => .next s
  | n + 1, s =>
    match (if s.phase = .waitHmac then hmacTurn s else sequencerTurn s) with
    | .next t => drive n t
    | .fault f => .fault f
    | .refused r => .refused r

/-- A safe step: it does not end in a fault. -/
def State.Safe (s : State) : Prop := ∀ f, step s ≠ .fault f

end Sys2Proof.Machine
end

