-- ==== Sys2Proof/Certificates/Slice0/Obligations.lean ====
section
/-! DEFINITION. The statements for the provers. Each docstring names the rule of the spec it formalises; a model's choice in a
statement is named with its log entry. -/

open Sys2Proof Sys2Proof.Machine

/-! ## Encoding -/

/-- R82, R83: decoding the word of a well-formed command gives the command back, with every W from 0 to 255. -/
def Obligations.DecodeOfEncodeIsTheCommand : Prop :=
  ∀ i : Instr, i.wellFormed = true → decode (encode i) = .ok i

/-- R80, R82, R83: a word that decodes to a command is that command's one word, and the command is well formed. -/
def Obligations.EncodeOfDecodeIsTheWord : Prop :=
  ∀ (v : Word) (i : Instr), decode v = .ok i → i.wellFormed = true ∧ encode i = v

/-- R84, the encodings: a reserved OPC, and a listed OPC with a nonzero bit its mask covers above 7:0, are ILLEGAL. -/
def Obligations.ReservedEncodingsAreIllegal : Prop :=
  ∀ v : Word,
    let opc := (v.extractLsb' 0 8).toNat
    (((0x03 ≤ opc ∧ opc ≤ 0x0F) ∨ (0x13 ≤ opc ∧ opc ≤ 0x1F) ∨ (0x23 ≤ opc ∧ opc ≤ 0x2F) ∨ 0x33 ≤ opc) →
      decode v = .error .reservedOpcode) ∧
    (opc ∈ [0x00, 0x01, 0x02, 0x10, 0x11, 0x12, 0x20, 0x21, 0x30, 0x32] → v.extractLsb' 8 24 ≠ 0#24 →
      decode v = .error .reservedBits) ∧
    (opc ∈ [0x22, 0x31] → v.extractLsb' 16 16 ≠ 0#16 → decode v = .error .reservedBits)

/-- R82, R88: words written out from the spec's tables, one of every command at least, and illegal ones. -/
def Obligations.TableWordsDecode : Prop :=
  decode 0x00000000#32 = .ok .nop ∧ decode 0x00000001#32 = .ok .cfg ∧ decode 0x00000002#32 = .ok .clear ∧
  decode 0x00000010#32 = .ok .b32Enc ∧ decode 0x00000011#32 = .ok .b32Dec ∧ decode 0x00000012#32 = .ok .b32Deck ∧
  decode 0x00000020#32 = .ok .trunc ∧ decode 0x00000021#32 = .ok .hotpGen ∧ decode 0x0000FF22#32 = .ok (.hotpVal 255) ∧
  decode 0x00000030#32 = .ok .totpGen ∧ decode 0x00000131#32 = .ok (.totpVer 1) ∧ decode 0x00000032#32 = .ok .totpRem ∧
  decode 0x00000100#32 = .error .reservedBits ∧ decode 0x00000033#32 = .error .reservedOpcode

/-! ## A step -/

/-- R93, R99: when the running command's word decodes to `i`, the step that brings it to its completion is `exec i`, the
turn taken off the turns to come. With none to come that step is taken whenever BUSY = 1 (the model's choice, log entry 7). -/
def Obligations.StepRunsDecodedCommand : Prop :=
  ∀ (s : State) (i : Instr), s.busy = true → decode s.cmd = .ok i →
    (s.schedule = [] → s.recurring = [] → step s = exec i s) ∧
    (∀ ts, s.schedule = .run :: ts ∨ (s.schedule = [] ∧ s.recurring = .run :: ts) →
      step s = exec i { s with schedule := ts })

/-- R69, R92: a well-formed command's word placed by `withFetchWord` is what the very next step runs, from the state its
issue leaves (how a command is placed is the model's, log entry 7). -/
def Obligations.FetchedWordRunsNext : Prop :=
  ∀ (s : State) (i : Instr), i.wellFormed = true →
    step (s.withFetchWord 32 (encode i).toNat) = exec i { issue (encode i) s with inReset := false }

/-- R84, R93: a command word that decodes to ILLEGAL ends with ILLEGAL_CMD, ERRINFO the word, and nothing else written. -/
def Obligations.IllegalWordEndsWithIllegalCmd : Prop :=
  ∀ (s : State) (x : IllegalWord), s.busy = true → decode s.cmd = .error x →
    (s.schedule = [] → s.recurring = [] → step s = .next (s.failed .illegalCmd s.cmd)) ∧
    (∀ ts, s.schedule = .run :: ts ∨ (s.schedule = [] ∧ s.recurring = .run :: ts) →
      step s = .next (({ s with schedule := ts }).failed .illegalCmd s.cmd)) ∧
    (∀ ts, s.schedule = .seq :: ts ∨ (s.schedule = [] ∧ s.recurring = .seq :: ts) → s.phase = .run →
      step s = .next (({ s with schedule := ts }).failed .illegalCmd s.cmd))

/-- R65, R87, R170: the host's turn performs the next access of its program; while reset is asserted it is refused. -/
def Obligations.HostTurnPerformsTheNextAccess : Prop :=
  ∀ (s : State) (x : Access) (ops : List HostOp) (ts : List Turn),
    s.schedule = .host :: ts → s.program = .access x :: ops →
      (s.inReset = false → step s = .next (access x { s with schedule := ts, program := ops })) ∧
      (s.inReset = true → step s = .refused .accessDuringReset)

/-- R89: `wait` reads STATUS, once a turn, until the value read has BUSY = 0. -/
def Obligations.WaitPollsStatusUntilIdle : Prop :=
  ∀ (s : State) (ops : List HostOp) (ts : List Turn),
    s.schedule = .host :: ts → s.program = .wait :: ops → s.inReset = false →
      step s = .next { s with
        schedule := ts, program := if s.busy then .wait :: ops else ops
        replies := s.replies ++ [.read .okay (statusWord s)] }

/-! ## Host accesses -/

/-- R56: an access that is not 32 bits wide at a word-aligned offset gets ERROR, a read of it returns 0, and it has no
other effect, busy or not. -/
def Obligations.RefusedAccessHasNoEffect : Prop :=
  ∀ (s : State) (w : Width) (a : BitVec 12) (v : Word), (w ≠ .word ∨ a.toNat % 4 ≠ 0) →
    access (.read w a) s = { s with replies := s.replies ++ [.read .error 0#32] } ∧
    access (.write w a v) s = { s with replies := s.replies ++ [.write .error] }

/-- R63: while BUSY = 1 a write to any offset but STATUS and IRQ_EN is dropped, with OKAY and OVR set; those two take effect
as usual. -/
def Obligations.BusyWriteIsDropped : Prop :=
  ∀ (s : State) (a : BitVec 12) (v : Word), s.busy = true → a.toNat % 4 = 0 →
    (a ≠ 0x004#12 → a ≠ 0x054#12 →
      access (.write .word a v) s = { s with ovr := true, replies := s.replies ++ [.write .okay] }) ∧
    access (.write .word 0x004#12 v) s = { writeStatus v s with replies := s.replies ++ [.write .okay] } ∧
    access (.write .word 0x054#12 v) s = { s with irqEn := v.getLsbD 0, replies := s.replies ++ [.write .okay] }

/-- R24, R161: a STATUS write clears DONE (bit 1), ERR with ERRCODE (bit 2) and OVR (bit 5), whether or not BUSY = 1, leaves
the rest alone, and the interrupt output follows DONE. -/
def Obligations.StatusWriteClearsWhatItNames : Prop :=
  ∀ (s : State) (v : Word),
    let t := access (.write .word 0x004#12 v) s
    t = { s with
      done := if v.getLsbD 1 then false else s.done
      err := if v.getLsbD 2 then false else s.err
      errCode := if v.getLsbD 2 then 0#4 else s.errCode
      ovr := if v.getLsbD 5 then false else s.ovr
      replies := s.replies ++ [.write .okay] } ∧
    irq t = (irq s && !v.getLsbD 1)

/-- R27: while LOCK = 1 and BUSY = 0, writes to CONFIG, TSTEP, KEY_LEN and KEY get OKAY and do nothing; while LOCK = 0 they
take effect. -/
def Obligations.LockFreezesConfigurationAndKey : Prop :=
  ∀ (s : State) (a : BitVec 12) (v : Word), s.busy = false → a.toNat % 4 = 0 →
    (a ∈ [0x00C#12, 0x010#12, 0x014#12] ∨ inRun 0x100 128 a.toNat) →
    (s.lock = true → access (.write .word a v) s = { s with replies := s.replies ++ [.write .okay] }) ∧
    (s.lock = false →
      (a = 0x00C#12 → access (.write .word a v) s = { s with
        digits := v.extractLsb' 0 4, alg := v.extractLsb' 4 2, strictLen := v.getLsbD 8
        replies := s.replies ++ [.write .okay] }) ∧
      (a = 0x010#12 → access (.write .word a v) s = { s with tstep := v, replies := s.replies ++ [.write .okay] }) ∧
      (a = 0x014#12 → access (.write .word a v) s =
        { s with keyLen := v.extractLsb' 0 8, replies := s.replies ++ [.write .okay] }) ∧
      (inRun 0x100 128 a.toNat → ∃ m,
        access (.write .word a v) s = { s with mem := m, replies := s.replies ++ [.write .okay] } ∧
        ∀ x, byteAt { s with mem := m } x =
          if inRun a.toNat 4 x then v.extractLsb' (8 * (x - a.toNat)) 8 else byteAt s x))

/-- R25, R92: a CMD write while BUSY = 0 issues the command in one step; MATCH, LOCK, OVR, ERRINFO and everything else the
rule does not name keep their values. -/
def Obligations.CmdWriteIssues : Prop :=
  ∀ (s : State) (v : Word),
    (s.busy = false → access (.write .word 0x008#12 v) s = { s with
      cmd := v, busy := true, done := false, err := false, errCode := 0#4, phase := .run
      j := 0, first := none, shifter := { acc := 0, nbits := 0, pos := 0, out := [] }, staged := [], request := none
      replies := s.replies ++ [.write .okay] }) ∧
    (s.busy = true → access (.write .word 0x008#12 v) s =
      { s with ovr := true, replies := s.replies ++ [.write .okay] })

/-- R20, R27, R49: a write to a read-write register, BUSY = 0 and the register not frozen by LOCK = 1, stores the bits of its
fields and no others, a read of it gives them back, a read of any other location gives what it gave before, and nothing
but the read-write registers changes. -/
def Obligations.RegisterKeepsItsFieldBits : Prop :=
  ∀ (s : State) (a : BitVec 12) (mask v : Word), s.busy = false →
    (s.lock = true → a ∉ [0x00C#12, 0x010#12, 0x014#12]) →
    (a, mask) ∈ [(0x00C#12, 0x13F#32), (0x010#12, 0xFFFFFFFF#32), (0x014#12, 0xFF#32), (0x018#12, 0xFFFFFFFF#32),
      (0x01C#12, 0xFFFFFFFF#32), (0x020#12, 0xFFFFFFFF#32), (0x024#12, 0xFFFFFFFF#32), (0x028#12, 0x1F#32),
      (0x02C#12, 0x1FF#32), (0x054#12, 0x1#32)] →
    let t := access (.write .word a v) s
    access (.read .word a) t = { t with replies := t.replies ++ [.read .okay (v &&& mask)] } ∧
    (∀ b : BitVec 12, b.toNat % 4 = 0 → b ≠ a →
      access (.read .word b) t = { t with replies := t.replies ++ [.read .okay (windowWord s b)] }) ∧
    (∀ l, l ≠ locate a.toNat → readLoc t l = readLoc s l) ∧
    t = { s with
      digits := t.digits, alg := t.alg, strictLen := t.strictLen, tstep := t.tstep, keyLen := t.keyLen, ctrLo := t.ctrLo
      ctrHi := t.ctrHi, timeLo := t.timeLo, timeHi := t.timeHi, candLen := t.candLen, srcLen := t.srcLen
      irqEn := t.irqEn, replies := s.replies ++ [.write .okay] }

/-- R44 to R48, R57: a word written to CAND, DIGEST, BUF_A or BUF_B while BUSY = 0 stores its four bytes, lowest byte at the
lowest offset, changes no other byte and no register, and reads back as written. -/
def Obligations.BufferWordReadsBack : Prop :=
  ∀ (s : State) (b : Buffer) (k : Nat) (v : Word), s.busy = false →
    b ∈ [Buffer.cand, .digest, .bufA, .bufB] → 4 * k < b.size →
    ∃ m, access (.write .word (BitVec.ofNat 12 (b.base + 4 * k)) v) s =
        { s with mem := m, replies := s.replies ++ [.write .okay] } ∧
      (∀ a, byteAt { s with mem := m } a =
        if inRun (b.base + 4 * k) 4 a then v.extractLsb' (8 * (a - (b.base + 4 * k))) 8 else byteAt s a) ∧
      access (.read .word (BitVec.ofNat 12 (b.base + 4 * k))) { s with mem := m } =
        { s with mem := m, replies := s.replies ++ [.read .okay v] }

/-- R19 to R23, R34 to R43, R57: while BUSY = 0 a write to ID, to a read-only register or buffer, or to a reserved offset gets
OKAY and does nothing; and a read of any offset gives what the register map puts there: the register's fields, the buffer's
four bytes, ID's constant, 0 at a reserved offset. -/
def Obligations.ReadOnlyAndReservedIgnoreWrites : Prop :=
  ∀ (s : State) (a : BitVec 12) (v : Word), s.busy = false → a.toNat % 4 = 0 →
    ((a = 0x000#12 ∨ inRun 0x030 0x24 a.toNat ∨ inRun 0x058 0x18 a.toNat ∨ inRun 0x0C0 0x40 a.toNat ∨
      inRun 0x180 0x80 a.toNat ∨ 0x400 ≤ a.toNat) →
      access (.write .word a v) s = { s with replies := s.replies ++ [.write .okay] }) ∧
    access (.read .word a) s = { s with replies := s.replies ++ [.read .okay (windowWord s a)] } ∧
    (a = 0x000#12 → access (.read .word a) s = { s with replies := s.replies ++ [.read .okay 0x4F545031#32] }) ∧
    ((a = 0x05C#12 ∨ inRun 0x0C0 0x40 a.toNat ∨ inRun 0x180 0x80 a.toNat ∨ 0x400 ≤ a.toNat) →
      access (.read .word a) s = { s with replies := s.replies ++ [.read .okay 0x00000000#32] })

/-- R61: a host read changes nothing but what the host has received and the model's own count of free values. -/
def Obligations.HostReadHasNoSideEffect : Prop :=
  ∀ (s : State) (w : Width) (a : BitVec 12), ∃ n r,
    access (.read w a) s = { s with draws := n, replies := s.replies ++ [r] } ∧ (s.busy = false → n = s.draws)

/-- R46, R64: a read of KEY returns 0, whatever KEY holds and whatever runs. -/
def Obligations.KeyReadsZero : Prop :=
  ∀ (s : State) (a : BitVec 12), a.toNat % 4 = 0 → inRun 0x100 128 a.toNat →
    access (.read .word a) s = { s with replies := s.replies ++ [.read .okay 0x00000000#32] }

/-- R23, R64: a STATUS read, busy or not, returns BUSY in bit 0, DONE 1, ERR 2, MATCH 3, LOCK 4, OVR 5, ERRCODE in 11:8 and 0
elsewhere; while BUSY = 1 that is BUSY = 1, DONE = 0, ERR = 0, ERRCODE = 0, and MATCH, LOCK and OVR as they stand. -/
def Obligations.StatusIsExactWhileBusy : Prop :=
  ∀ s : State,
    access (.read .word 0x004#12) s = { s with replies := s.replies ++
      [.read .okay (BitVec.ofNat 32 (s.busy.toNat + 2 * s.done.toNat + 4 * s.err.toNat + 8 * s.matched.toNat +
        16 * s.lock.toNat + 32 * s.ovr.toNat + 256 * s.errCode.toNat))] } ∧
    (s.Inv → s.busy = true →
      access (.read .word 0x004#12) s = { s with replies := s.replies ++
        [.read .okay (1#32 ||| (if s.matched then 8#32 else 0#32) ||| (if s.lock then 16#32 else 0#32) |||
          (if s.ovr then 32#32 else 0#32))] })

/-- R52, R64: while BUSY = 1 a read of a word of the running command's write set, a register or a buffer's, returns a free
value, whatever it is; a read of any other offset returns what the register map puts there. KEY reads 0. How far the buffers
of a write set reach is the model's reading (log entry 11), and for a B32_ENC or B32_DEC that fails its choice (log entry 20). -/
def Obligations.BusyReadIsFreeExactlyInTheWriteSet : Prop :=
  ∀ (s : State) (a : BitVec 12), s.busy = true → a.toNat % 4 = 0 →
    (inWriteSet s a.toNat → access (.read .word a) s =
      { s with draws := s.draws + 1, replies := s.replies ++ [.read .okay (Config.freeWord s.draws)] }) ∧
    (¬ inWriteSet s a.toNat → access (.read .word a) s =
      { s with replies := s.replies ++ [.read .okay (windowWord s a)] })

/-- R46, R76: no host access tells anything of KEY: two states that differ only in KEY's bytes give the host the same
replies, and differ only in KEY's bytes afterwards. -/
def Obligations.HostLearnsNothingOfKey : Prop :=
  ∀ (s t : State) (x : Access), s.sameButKey t → (access x s).sameButKey (access x t)

/-! ## Reset and the interrupt -/

/-- R171, R174: the reset state: every register, flag and hidden item the spec gives a value, every byte of CODE, CAND,
DIGEST and KEY zero, the interrupt output 0. -/
def Obligations.ResetStateIsTheSpecs : Prop :=
  let s := State.reset
  (∀ l, (∀ b a, l ≠ .buf b a) → readLoc s l =
    if l = .id then 0x4F545031#32 else if l = .config then 0x00000006#32 else if l = .tstep then 30#32 else 0#32) ∧
  (∀ a, inRun 0x060 0x60 a ∨ inRun 0x100 128 a → byteAt s a = 0#8) ∧
  s.phase = .idle ∧ s.cmd = 0#32 ∧ s.j = 0 ∧ s.first = none ∧ (∀ b ∈ s.scratch, b = 0#8) ∧ s.shifter.acc = 0 ∧
  s.shifter.nbits = 0 ∧ s.staged = [] ∧ s.busy = false ∧ s.lock = false ∧ s.irqEn = false ∧ irq s = false

/-- R173: a reset abandons a running command and an outstanding request, commits nothing, and leaves OTPE in the reset
state; a response that arrives after it is discarded. -/
def Obligations.ResetAbandonsTheCommand : Prop :=
  ∀ (s : State) (ts : List Turn), s.schedule = .assertReset :: .releaseReset :: .hmac :: ts →
    ∃ t u v, step s = .next t ∧ step t = .next u ∧ step u = .next v ∧ v = { u with schedule := ts } ∧
      v = { State.reset with
        epoch := s.epoch + 1, draws := s.draws, program := s.program, schedule := ts, recurring := s.recurring,
        replies := s.replies, requests := s.requests }

/-- R97, R161, R162: every completion, successful or not, sets DONE and clears BUSY, so that the interrupt output follows IE
in the same step. -/
def Obligations.CompletionRaisesTheInterrupt : Prop :=
  ∀ (i : Instr) (s t : State), exec i s = .next t →
    t.busy = false ∧ t.done = true ∧ t.phase = .idle ∧ t.irqEn = s.irqEn ∧ irq t = s.irqEn

/-! ## Control commands -/

/-- R147: NOP completes with no change but the completion fields. -/
def Obligations.NopOnlyCompletes : Prop := ∀ s : State, exec .nop s = .next s.completed

/-- R148: CFG's checks in their order, each with its error and ERRINFO and nothing else written, then LOCK <- 1. -/
def Obligations.CfgChecksThenLocks : Prop :=
  ∀ s : State, exec .cfg s = .next
    (if s.lock then s.failed .locked 0#32
    else if s.digits.toNat = 0 ∨ 10 < s.digits.toNat then s.failed .invalidConfig 1#32
    else if s.alg.toNat = 3 then s.failed .invalidConfig 2#32
    else if s.tstep.toNat = 0 then s.failed .invalidConfig 3#32
    else if 128 < s.keyLen.toNat then s.failed .length (BitVec.ofNat 32 s.keyLen.toNat)
    else ({ s with lock := true }).completed)

/-- R150: CLEAR ends the engine instance, zeroizes the secret and everything derived from it, and keeps the rest. -/
def Obligations.ClearZeroizes : Prop :=
  ∀ s : State, ∃ m, exec .clear s = .next ({ s with
      lock := false, matched := false, keyLen := 0#8, dstLen := 0#9, otp := 0#31, binary := 0#31, offset := 0#4
      mctrLo := 0#32, mctrHi := 0#32, tctrLo := 0#32, tctrHi := 0#32, remain := 0#32, mem := m }).completed ∧
    ∀ a, byteAt { s with mem := m } a =
      if inRun 0x060 16 a ∨ inRun 0x080 64 a ∨ inRun 0x100 128 a ∨ inRun 0x200 512 a then 0#8 else byteAt s a

/-! ## Base32 -/

/-- R101, R102: the decode table inverts the encode table, folds the lower-case letters, and holds nothing else. -/
def Obligations.LookupTablesAgree : Prop :=
  (∀ v : Fin 32, alpha v.val = ("ABCDEFGHIJKLMNOPQRSTUVWXYZ234567".toList.map fun c => BitVec.ofNat 8 c.toNat).getD v.val 0#8 ∧
    lut (alpha v.val) = some v.val) ∧
  (∀ c : Byte, (0x61 ≤ c.toNat ∧ c.toNat ≤ 0x7A → lut c = lut (c - 0x20#8)) ∧
    ((lut c).isSome = true ↔
      (0x41 ≤ c.toNat ∧ c.toNat ≤ 0x5A) ∨ (0x61 ≤ c.toNat ∧ c.toNat ≤ 0x7A) ∨ (0x32 ≤ c.toNat ∧ c.toNat ≤ 0x37)) ∧
    ∀ v, lut c = some v → v < 32)

/-- R104: the encoded length, its symbols and its '='. -/
def Obligations.EncodedLength : Prop :=
  ∀ src : List Byte, (b32encode src).length = 8 * ((src.length + 4) / 5) ∧
    ∃ text, b32encode src = text ++ List.replicate (8 * ((src.length + 4) / 5) - (8 * src.length + 4) / 5) 0x3D#8 ∧
      text.length = (8 * src.length + 4) / 5 ∧ ∀ c ∈ text, ∃ v, v < 32 ∧ c = alpha v

/-- R103: symbol `k` of an encoding is the alphabet's letter of bits 5k to 5k+4 of the source, taken most significant bit
first and zero-filled on the low side. -/
def Obligations.EncodedSymbolsAreTheSourceBits : Prop :=
  ∀ (src : List Byte) (k : Nat), 5 * k < 8 * src.length →
    let n := (8 * src.length + 4) / 5
    let bits := src.foldl (fun x b => x * 256 + b.toNat) 0 * 2 ^ (5 * n - 8 * src.length)
    (b32encode src).getD k 0#8 = alpha (bits / 2 ^ (5 * (n - 1 - k)) % 32)

/-- R107, R108, R115: the decoder strips every trailing '=' and nothing else, and fails exactly when a stripped character is
outside the alphabet, with the smallest such index; so every source with a character outside A-Z2-7 (either case) left after
stripping is rejected. -/
def Obligations.DecodeRejectsAtTheFirstInvalid : Prop :=
  ∀ src : List Byte,
    (∃ k, src = stripPadding src ++ List.replicate k 0x3D#8) ∧ (stripPadding src).getLast? ≠ some 0x3D#8 ∧
    (∀ i, b32decode src = .error i ↔
      i < (stripPadding src).length ∧ lut ((stripPadding src).getD i 0#8) = none ∧
        ∀ k, k < i → (lut ((stripPadding src).getD k 0#8)).isSome = true) ∧
    (∀ c ∈ stripPadding src,
      ¬ ((0x41 ≤ c.toNat ∧ c.toNat ≤ 0x5A) ∨ (0x61 ≤ c.toNat ∧ c.toNat ≤ 0x7A) ∨ (0x32 ≤ c.toNat ∧ c.toNat ≤ 0x37)) →
      ∃ i, b32decode src = .error i)

/-- R109, R110: byte `k` of a decoding is bits 8k to 8k+7 of the symbols' values, most significant bit first; there are
floor(5e / 8) bytes, the trailing bits dropped. -/
def Obligations.DecodedBytesAreTheSymbolBits : Prop :=
  ∀ (src r : List Byte), b32decode src = .ok r →
    let e := (stripPadding src).length
    let bits := (stripPadding src).foldl (fun x c => x * 32 + (lut c).getD 0) 0
    r.length = 5 * e / 8 ∧
    ∀ k, 8 * (k + 1) ≤ 5 * e → r.getD k 0#8 = BitVec.ofNat 8 (bits / 2 ^ (5 * e - 8 * (k + 1)))

/-- R114: decoding an encoding gives the source back, for every byte sequence of every length. -/
def Obligations.Base32RoundTrip : Prop := ∀ b : List Byte, b32decode (b32encode b) = .ok b

/-- R106: B32_ENC, every source length: LENGTH above 160 bytes, else the encoding in BUF_B[0..DST_LEN), DST_LEN, and nothing
else. -/
def Obligations.B32EncWritesTheEncoding : Prop :=
  ∀ s : State, s.Fresh →
    let out := b32encode (bytesOf s .bufA s.srcLen.toNat)
    (160 < s.srcLen.toNat → exec .b32Enc s = .next (s.failed .length (BitVec.ofNat 32 s.srcLen.toNat))) ∧
    (s.srcLen.toNat ≤ 160 → ∃ m sh,
      exec .b32Enc s = .next ({ s with mem := m, dstLen := BitVec.ofNat 9 out.length, shifter := sh }).completed ∧
      ∀ a, byteAt { s with mem := m } a = if inRun 0x300 out.length a then out.getD (a - 0x300) 0#8 else byteAt s a)

/-- R112: B32_DEC, every source: LENGTH above 256 characters, INVALID_CHAR at the first invalid index, else the bytes in
BUF_B[0..DST_LEN), DST_LEN, and nothing else. -/
def Obligations.B32DecWritesTheDecoding : Prop :=
  ∀ s : State, s.Fresh →
    (256 < s.srcLen.toNat → exec .b32Dec s = .next (s.failed .length (BitVec.ofNat 32 s.srcLen.toNat))) ∧
    (s.srcLen.toNat ≤ 256 →
      match b32decode (bytesOf s .bufA s.srcLen.toNat) with
      | .error i => exec .b32Dec s = .next (s.failed .invalidChar (BitVec.ofNat 32 i))
      | .ok r => ∃ m sh,
        exec .b32Dec s = .next ({ s with mem := m, dstLen := BitVec.ofNat 9 r.length, shifter := sh }).completed ∧
        ∀ a, byteAt { s with mem := m } a = if inRun 0x300 r.length a then r.getD (a - 0x300) 0#8 else byteAt s a)

/-- R113: B32_DECK, every source: LOCKED, LENGTH, INVALID_CHAR and LENGTH of the decoded secret in that order, else all 128
bytes of KEY, KEY_LEN and DST_LEN, and nothing else. -/
def Obligations.B32DeckProvisionsTheKey : Prop :=
  ∀ s : State, s.Fresh →
    (s.lock = true → exec .b32Deck s = .next (s.failed .locked 0#32)) ∧
    (s.lock = false → 256 < s.srcLen.toNat →
      exec .b32Deck s = .next (s.failed .length (BitVec.ofNat 32 s.srcLen.toNat))) ∧
    (s.lock = false → s.srcLen.toNat ≤ 256 →
      match b32decode (bytesOf s .bufA s.srcLen.toNat) with
      | .error i => exec .b32Deck s = .next (s.failed .invalidChar (BitVec.ofNat 32 i))
      | .ok r =>
        if 128 < r.length then exec .b32Deck s = .next (s.failed .length (BitVec.ofNat 32 r.length))
        else ∃ m sh,
          exec .b32Deck s = .next ({ s with
            mem := m, keyLen := BitVec.ofNat 8 r.length, dstLen := BitVec.ofNat 9 r.length, shifter := sh }).completed ∧
          ∀ a, byteAt { s with mem := m } a = if inRun 0x100 128 a then r.getD (a - 0x100) 0#8 else byteAt s a)

/-! ## Truncation, HOTP -/

/-- R26, R116 to R118: DL is 20, 32 and 64 for SHA-1, SHA-256 and SHA-512, which ALG = 0, 1 and 2 select; the offset is the
low four bits of the digest's last byte; the four bytes from it lie inside the digest; `binary` is those bytes, big-endian,
the first one's top bit cleared. -/
def Obligations.TruncationTakesFourBytes : Prop :=
  (digestLen .sha1 = 20 ∧ digestLen .sha256 = 32 ∧ digestLen .sha512 = 64) ∧
  (hashAlg 0#2 = some .sha1 ∧ hashAlg 1#2 = some .sha256 ∧ hashAlg 2#2 = some .sha512 ∧ hashAlg 3#2 = none) ∧
  ∀ (h : HashAlg) (d : List Byte), d.length = digestLen h →
    let o := (truncOffset d).toNat
    o = (d.getD (d.length - 1) 0#8).toNat % 16 ∧ o + 3 < d.length ∧
    (truncBinary d).toNat = (d.getD o 0#8).toNat % 128 * 2 ^ 24 + (d.getD (o + 1) 0#8).toNat * 2 ^ 16 +
      (d.getD (o + 2) 0#8).toNat * 2 ^ 8 + (d.getD (o + 3) 0#8).toNat

/-- R11, R119, R120: the code is DIGITS characters '0' to '9' that spell `binary mod 10^DIGITS`, most significant first; for
DIGITS = 10 that is `binary` itself. -/
def Obligations.CodeSpellsBinaryModulo : Prop :=
  ∀ (digits : Nat) (d : List Byte), 1 ≤ digits → digits ≤ 10 →
    let code := codeOf digits d
    code.length = digits ∧ (∀ c ∈ code, 0x30 ≤ c.toNat ∧ c.toNat ≤ 0x39) ∧
    code.foldl (fun x c => x * 10 + (c.toNat - 0x30)) 0 = (truncBinary d).toNat % 10 ^ digits ∧
    (digits = 10 → (truncBinary d).toNat % 10 ^ digits = (truncBinary d).toNat)

/-- R122: TRUNC, either lock state: NOT_CONFIGURED, else the truncation of DIGEST[0..DL) in OFFSET, BINARY, OTP and CODE, and
nothing else; no request is made. The premise is an invariant (`State.Inv.locked`). -/
def Obligations.TruncTruncatesTheDigest : Prop :=
  ∀ s : State, (s.lock = true → configFault s = none) →
    (s.lock = false → exec .trunc s = .next (s.failed .notConfigured 0#32)) ∧
    (s.lock = true → ∃ h, hashAlg s.alg = some h ∧
      let d := bytesOf s .digest (digestLen h)
      ∃ m, exec .trunc s = .next (({ s with mem := m }).truncated s.digits.toNat d).completed ∧
        ∀ a, byteAt { s with mem := m } a =
          if inRun 0x060 16 a then (codeBuffer s.digits.toNat d).getD (a - 0x060) 0#8 else byteAt s a)

/-- R123, R126: the message of a counter is its 8 bytes, most significant first, and different counters have different
messages. -/
def Obligations.MessageHoldsTheWholeCounter : Prop :=
  ∀ c : DWord, (be8 c).length = 8 ∧ (be8 c).foldl (fun x b => x * 256 + b.toNat) 0 = c.toNat ∧
    ∀ c' : DWord, be8 c = be8 c' → c = c'

/-- R72, R74, R125: the answer to a request is HMAC_FN's digest when its length is DL, else a failure. HOTP_GEN, either lock
state: NOT_CONFIGURED with no request, else one request with CTR's message; HMAC_FAIL with ERRINFO 0 and nothing else
written, else DIGEST[0..DL), OFFSET, BINARY, OTP and CODE, and nothing else. -/
def Obligations.HotpGenGeneratesAtCtr : Prop :=
  (∀ (r : HmacReq) (d : List Byte), hmacAnswer r = some d ↔
    Config.hmacFn r.alg r.key r.msg = some d ∧
      d.length = match r.alg with | .sha1 => 20 | .sha256 => 32 | .sha512 => 64) ∧
  ∀ s : State, s.Fresh → (s.lock = true → configFault s = none) →
    (s.lock = false → exec .hotpGen s = .next (s.failed .notConfigured 0#32)) ∧
    (s.lock = true → ∃ h, hashAlg s.alg = some h ∧
      let r : HmacReq := { alg := h, key := bytesOf s .key s.keyLen.toNat, msg := be8 (s.ctrHi ++ s.ctrLo) }
      let s' := { s with requests := s.requests ++ [r] }
      match hmacAnswer r with
      | none => exec .hotpGen s = .next (s'.failed .hmacFail 0#32)
      | some d => d.length = digestLen h ∧
        ∃ m, exec .hotpGen s = .next (({ s' with mem := m, scratch := d }).truncated s.digits.toNat d).completed ∧
          ∀ a, byteAt { s with mem := m } a =
            if inRun 0x060 16 a then (codeBuffer s.digits.toNat d).getD (a - 0x060) 0#8
            else if inRun 0x080 (digestLen h) a then d.getD (a - 0x080) 0#8 else byteAt s a)

/-- R127, R128: a candidate matches a code of DIGITS characters exactly when, padded on the left with '0' to DIGITS unless
STRICT_LEN = 1, it is that code, byte by byte; one longer than DIGITS never matches. -/
def Obligations.CandidateMatchesByteWise : Prop :=
  ∀ (e : Engine) (code cand : List Byte), code.length = e.digits →
    (codesMatch e.digits code (normalize e cand) = true ↔
      (if e.strict then cand = code else List.replicate (e.digits - cand.length) 0x30#8 ++ cand = code)) ∧
    (e.digits < cand.length → codesMatch e.digits code (normalize e cand) = false)

/-- R130 to R132, R154: HOTP_VAL, every W and either lock state: NOT_CONFIGURED, LENGTH, else the validator's result on the
passes CTR to CTR + W, those above 2^64 - 1 skipped; MATCH and MCTR and nothing else. What the hidden `j` holds after the
last pass is the model's choice (log entry 19). -/
def Obligations.HotpValValidatesTheLookAhead : Prop :=
  ∀ (s : State) (w : Nat), s.Fresh → (s.lock = true → configFault s = none) → w ≤ 255 →
    (s.lock = false → exec (.hotpVal w) s = .next (s.failed .notConfigured 0#32)) ∧
    (s.lock = true → 16 < s.candLen.toNat →
      exec (.hotpVal w) s = .next (s.failed .length (BitVec.ofNat 32 s.candLen.toNat))) ∧
    (s.lock = true → s.candLen.toNat ≤ 16 → ∃ h, hashAlg s.alg = some h ∧
      let e : Engine := {
        digits := s.digits.toNat, alg := h, strict := s.strictLen, tstep := s.tstep.toNat
        key := bytesOf s .key s.keyLen.toNat }
      Validates e (normalize e (bytesOf s .cand s.candLen.toNat))
        ((List.range (w + 1)).map fun j =>
          if (ctr s).toNat + j ≤ 2 ^ 64 - 1 then some (BitVec.ofNat 64 ((ctr s).toNat + j)) else none)
        s s (exec (.hotpVal w) s))

/-! ## TOTP -/

/-- R135, R136, R138: TOTP_GEN, either lock state: as HOTP_GEN at C = floor(floor(TIME / 1000) / TSTEP), with TCTR, CTR
neither read nor written. -/
def Obligations.TotpGenGeneratesAtC : Prop :=
  ∀ s : State, s.Fresh → (s.lock = true → configFault s = none) →
    (s.lock = false → exec .totpGen s = .next (s.failed .notConfigured 0#32)) ∧
    (s.lock = true → ∃ h, hashAlg s.alg = some h ∧
      let c : DWord := BitVec.ofNat 64 ((s.timeHi.toNat * 2 ^ 32 + s.timeLo.toNat) / 1000 / s.tstep.toNat)
      let r : HmacReq := { alg := h, key := bytesOf s .key s.keyLen.toNat, msg := be8 c }
      let s' := { s with requests := s.requests ++ [r] }
      match hmacAnswer r with
      | none => exec .totpGen s = .next (s'.failed .hmacFail 0#32)
      | some d => d.length = digestLen h ∧
        ∃ m, exec .totpGen s = .next (({ s' with
            mem := m, scratch := d, tctrLo := loHalf c, tctrHi := hiHalf c }).truncated s.digits.toNat d).completed ∧
          ∀ a, byteAt { s with mem := m } a =
            if inRun 0x060 16 a then (codeBuffer s.digits.toNat d).getD (a - 0x060) 0#8
            else if inRun 0x080 (digestLen h) a then d.getD (a - 0x080) 0#8 else byteAt s a)

/-- R135, R136, R139, R140: S = floor(TIME / 1000) and C = floor(S / TSTEP); shifting TIME by `i` steps shifts S by i TSTEP
and C by `i`, exactly, for every integer `i`, and C + i < 0 exactly when the shifted time is before the epoch. Pass `j` of the
2W + 1 passes of TOTP_VER, every W, is the counter of TIME shifted by j - W steps, SKIP exactly when that is before the epoch. -/
def Obligations.ShiftedTimeShiftsTheCounter : Prop :=
  ∀ (e : Engine) (s : State), 1 ≤ e.tstep →
    let now : Nat := s.timeHi.toNat * 2 ^ 32 + s.timeLo.toNat
    let shifted (i : Int) : Int := now + 1000 * i * e.tstep
    seconds s = now / 1000 ∧ totpCounter e s = now / 1000 / e.tstep ∧
    (∀ i : Int, shifted i / 1000 = seconds s + i * e.tstep ∧ shifted i / 1000 / e.tstep = totpCounter e s + i ∧
      (shifted i < 0 ↔ (totpCounter e s : Int) + i < 0)) ∧
    ∀ w, w ≤ 255 →
      (totpPasses (totpCounter e s) w).length = 2 * w + 1 ∧
      ∀ j, j ≤ 2 * w → (totpPasses (totpCounter e s) w)[j]? =
        some (if shifted (j - w) < 0 then none
          else some (BitVec.ofNat 64 (shifted (j - w) / 1000 / e.tstep).toNat))

/-- R140, R141, R154: TOTP_VER, every W and either lock state: NOT_CONFIGURED, LENGTH, else the validator's result on the
passes C - W to C + W in that order, those below 0 skipped; TCTR, MATCH and MCTR and nothing else. What the hidden `j` holds
after the last pass is the model's choice (log entry 19). -/
def Obligations.TotpVerVerifiesTheWindow : Prop :=
  ∀ (s : State) (w : Nat), s.Fresh → (s.lock = true → configFault s = none) → w ≤ 255 →
    let c := (s.timeHi.toNat * 2 ^ 32 + s.timeLo.toNat) / 1000 / s.tstep.toNat
    (s.lock = false → exec (.totpVer w) s = .next (s.failed .notConfigured 0#32)) ∧
    (s.lock = true → 16 < s.candLen.toNat →
      exec (.totpVer w) s = .next (s.failed .length (BitVec.ofNat 32 s.candLen.toNat))) ∧
    (s.lock = true → s.candLen.toNat ≤ 16 → ∃ h, hashAlg s.alg = some h ∧
      let e : Engine := {
        digits := s.digits.toNat, alg := h, strict := s.strictLen, tstep := s.tstep.toNat
        key := bytesOf s .key s.keyLen.toNat }
      Validates e (normalize e (bytesOf s .cand s.candLen.toNat))
        ((List.range (2 * w + 1)).map fun j => if w ≤ c + j then some (BitVec.ofNat 64 (c + j - w)) else none)
        s { s with tctrLo := loHalf (BitVec.ofNat 64 c), tctrHi := hiHalf (BitVec.ofNat 64 c) } (exec (.totpVer w) s))

/-- R136, R143, R144: TOTP_REM, either lock state: NOT_CONFIGURED, else REMAIN and TCTR and nothing else; REMAIN is 1 to
TSTEP, TSTEP exactly on a boundary. -/
def Obligations.TotpRemGivesTheRemainder : Prop :=
  ∀ s : State, (s.lock = true → configFault s = none) →
    let secs := (s.timeHi.toNat * 2 ^ 32 + s.timeLo.toNat) / 1000
    (s.lock = false → exec .totpRem s = .next (s.failed .notConfigured 0#32)) ∧
    (s.lock = true → ∃ r : Word,
      exec .totpRem s = .next ({ s with
        remain := r, tctrLo := loHalf (BitVec.ofNat 64 (secs / s.tstep.toNat))
        tctrHi := hiHalf (BitVec.ofNat 64 (secs / s.tstep.toNat)) }).completed ∧
      r.toNat = s.tstep.toNat - secs % s.tstep.toNat ∧ 1 ≤ r.toNat ∧ r.toNat ≤ s.tstep.toNat ∧
      (secs % s.tstep.toNat = 0 → r.toNat = s.tstep.toNat))

/-- R146: verify after generate. `s` is where TOTP_GEN runs and `v` where TOTP_VER runs, later, with the same configuration
and secret: when the candidate is what TOTP_GEN put in CODE, TOTP_VER with window `w` matches while TIME has advanced by at
most `w` steps, unless an HMAC request fails. -/
def Obligations.VerifyAfterGenerateMatches : Prop :=
  ∀ (s v : State) (w : Nat), s.Fresh → v.Fresh → s.lock = true → v.lock = true → configFault s = none → w ≤ 255 →
    v.digits = s.digits → v.alg = s.alg → v.tstep = s.tstep → v.keyLen = s.keyLen →
    (∀ a, inRun 0x100 128 a → byteAt v a = byteAt s a) → v.candLen.toNat = s.digits.toNat →
    (let c := (s.timeHi.toNat * 2 ^ 32 + s.timeLo.toNat) / 1000 / s.tstep.toNat
     let c' := (v.timeHi.toNat * 2 ^ 32 + v.timeLo.toNat) / 1000 / s.tstep.toNat
     c ≤ c' ∧ c' ≤ c + w) →
    ∃ g t, exec .totpGen s = .next g ∧ exec (.totpVer w) v = .next t ∧
      (g.err = false → t.err = false → bytesOf v .cand s.digits.toNat = bytesOf g .code s.digits.toNat →
        t.matched = true)

/-! ## Whole-machine rules -/

/-- The invariant holds after reset, whatever program the host has and however the turns are ordered. -/
def Obligations.InvariantHoldsAtReset : Prop :=
  ∀ (p : List HostOp) (ts us : List Turn),
    ({ State.reset with program := p, schedule := ts, recurring := us }).Inv

/-- Every step keeps the invariant: the buffers' canonical form, BUSY with the phase, ERR with ERRCODE (never a reserved
code), LOCK only over a configuration CFG accepts, MATCH with MCTR, the ranges of the hidden state (R26, R50, R151, R149). -/
def Obligations.StepKeepsTheInvariant : Prop :=
  ∀ s t : State, s.Inv → step s = .next t → t.Inv

/-- R26, R149: no run from reset ends in a fault: an OTP command never meets a configuration that CFG rejects. -/
def Obligations.ReachableStepsAreSafe : Prop := ∀ s : State, Reachable s → s.Safe

/-- R98, R153, R155, R157: an error completion writes STATUS and ERRINFO only: whatever the command, nothing architectural
else changes; and unless the error is HMAC_FAIL no request was made. The hidden state is left out. -/
def Obligations.ErrorWritesOnlyStatusAndErrinfo : Prop :=
  ∀ (i : Instr) (s t : State), s.staged = [] → exec i s = .next t → t.err = true →
    t = { s with
      busy := false, done := true, err := true, errCode := t.errCode, errInfo := t.errInfo
      phase := .idle, j := t.j, first := t.first, scratch := t.scratch, shifter := t.shifter, request := none
      requests := t.requests } ∧
    (t.errCode ≠ 7#4 → t.requests = s.requests)

/-- R30, R31, R47, R52: no command writes CONFIG, TSTEP, CTR, TIME, CAND_LEN, SRC_LEN, IRQ_EN, OVR or CAND, and none but
CLEAR writes BUF_A. -/
def Obligations.CommandsLeaveTheOperands : Prop :=
  ∀ (i : Instr) (s t : State), s.Fresh → (s.lock = true → configFault s = none) → exec i s = .next t →
    t.digits = s.digits ∧ t.alg = s.alg ∧ t.strictLen = s.strictLen ∧ t.tstep = s.tstep ∧ t.ctrLo = s.ctrLo ∧
    t.ctrHi = s.ctrHi ∧ t.timeLo = s.timeLo ∧ t.timeHi = s.timeHi ∧ t.candLen = s.candLen ∧ t.srcLen = s.srcLen ∧
    t.irqEn = s.irqEn ∧ t.ovr = s.ovr ∧ t.cmd = s.cmd ∧ t.inReset = s.inReset ∧ t.program = s.program ∧
    (∀ a, inRun 0x070 16 a → byteAt t a = byteAt s a) ∧
    (i ≠ .clear → ∀ a, inRun 0x200 256 a → byteAt t a = byteAt s a)

/-- R51: a command's result depends on the operand state at issue, never on hidden state left by an earlier command. -/
def Obligations.HiddenStateLeavesNoTrace : Prop :=
  ∀ (i : Instr) (v : Word) (s : State) (ph : Phase) (c : Word) (n : Nat) (f : Option DWord) (sc : List Byte) (sh : Shifter)
    (st : List Pending) (t : State), exec i (issue v s) = .next t →
    ∃ sc', exec i (issue v { s with
      phase := ph, cmd := c, j := n, first := f, scratch := sc, shifter := sh, staged := st }) =
        .next { t with scratch := sc' }

/-- R75, R100, R185: with the HMAC core answering as soon as it is asked, the running command's single steps bring it to its
completion within 1024 turns, and to the very state that `step` reaches in one. In every run without end that is fair to the
HMAC core and in which the sequencer moves, whatever the host does, a running command completes or is abandoned by a reset.
If the core never answers, BUSY stays 1 and the request outstanding, for ever; where only the sequencer's turn recurs, `step`
leaves a state with a request outstanding as it is. -/
def Obligations.SingleStepsReachTheCompletion : Prop :=
  (∀ s : State, s.Inv → s.busy = true → ∃ n, n ≤ 1024 ∧ drive n s = runCommand s) ∧
  (∀ states turns, EndlessRun states turns → CoreIsFair states turns → SequencerMoves states turns →
    ∀ n, (states n).Inv → (states n).busy = true → ∃ m, n < m ∧ (states m).busy = false) ∧
  (∀ states turns, EndlessRun states turns → ∀ n r, (states n).Inv → (states n).request = some r →
    (∀ m, n ≤ m → turns m ≠ .hmac ∧ turns m ≠ .run ∧ turns m ≠ .assertReset) →
    ∀ m, n ≤ m → (states m).busy = true ∧ (states m).request = some r) ∧
  (∀ s : State, s.Inv → s.request.isSome = true → s.schedule = [] → s.recurring = [.seq] → step s = .next s)

/-- R94, R99: whatever single step of the sequencer or the HMAC core is taken, a command still running after it has the same
completion to come. -/
def Obligations.SingleStepKeepsTheCompletion : Prop :=
  ∀ s t : State, s.Inv → s.busy = true → t.busy = true → (sequencerTurn s = .next t ∨ hmacTurn s = .next t) →
    runCommand t = runCommand s

/-- R63, R69, R95: no host access changes what a running command reads or the sequencer's hidden state: its operands stand
from issue to completion. -/
def Obligations.OperandsStandWhileBusy : Prop :=
  ∀ (s : State) (x : Access) (i : Instr), s.busy = true →
    let t := access x s
    jobOf i t = jobOf i s ∧ t.busy = true ∧ t.phase = s.phase ∧ t.cmd = s.cmd ∧ t.j = s.j ∧ t.first = s.first ∧
    t.scratch = s.scratch ∧ t.shifter = s.shifter ∧ t.staged = s.staged ∧ t.request = s.request ∧ t.mem = s.mem

/-- R100: a command makes at most 511 requests. -/
def Obligations.AtMost511Requests : Prop :=
  ∀ (i : Instr) (s t : State), i.wellFormed = true → exec i s = .next t →
    ∃ rs, t.requests = s.requests ++ rs ∧ rs.length ≤ 511

/-- R149: from LOCK = 1, a step leaves CONFIG, TSTEP, KEY_LEN and KEY as they are, unless it ends the engine instance: by a
CLEAR's completion or by a reset. -/
def Obligations.EngineInstanceIsFixed : Prop :=
  ∀ s t : State, s.Inv → s.lock = true → step s = .next t →
    (t.lock = true ∧ t.digits = s.digits ∧ t.alg = s.alg ∧ t.strictLen = s.strictLen ∧ t.tstep = s.tstep ∧
      t.keyLen = s.keyLen ∧ ∀ a, inRun 0x100 128 a → byteAt t a = byteAt s a) ∨
    (s.busy = true ∧ decode s.cmd = .ok .clear) ∨
    (∃ ts, s.schedule = .assertReset :: ts ∨ (s.schedule = [] ∧ s.recurring = .assertReset :: ts))
end

