-- ==== Sys2Proof/Laws/State.lean ====
section
/-! SUPPORT. What each update of the state does to each field: one lemma per field per update, true by rfl. -/

namespace Sys2Proof.Machine

/-! ## flagsAtIssue -/

@[simp] theorem flagsAtIssue_busy (s : State) : (flagsAtIssue s).busy = true := rfl
@[simp] theorem flagsAtIssue_done (s : State) : (flagsAtIssue s).done = false := rfl
@[simp] theorem flagsAtIssue_err (s : State) : (flagsAtIssue s).err = false := rfl
@[simp] theorem flagsAtIssue_matched (s : State) : (flagsAtIssue s).matched = s.matched := rfl
@[simp] theorem flagsAtIssue_lock (s : State) : (flagsAtIssue s).lock = s.lock := rfl
@[simp] theorem flagsAtIssue_ovr (s : State) : (flagsAtIssue s).ovr = s.ovr := rfl
@[simp] theorem flagsAtIssue_errCode (s : State) : (flagsAtIssue s).errCode = 0#4 := rfl
@[simp] theorem flagsAtIssue_digits (s : State) : (flagsAtIssue s).digits = s.digits := rfl
@[simp] theorem flagsAtIssue_alg (s : State) : (flagsAtIssue s).alg = s.alg := rfl
@[simp] theorem flagsAtIssue_strictLen (s : State) : (flagsAtIssue s).strictLen = s.strictLen := rfl
@[simp] theorem flagsAtIssue_tstep (s : State) : (flagsAtIssue s).tstep = s.tstep := rfl
@[simp] theorem flagsAtIssue_keyLen (s : State) : (flagsAtIssue s).keyLen = s.keyLen := rfl
@[simp] theorem flagsAtIssue_ctrLo (s : State) : (flagsAtIssue s).ctrLo = s.ctrLo := rfl
@[simp] theorem flagsAtIssue_ctrHi (s : State) : (flagsAtIssue s).ctrHi = s.ctrHi := rfl
@[simp] theorem flagsAtIssue_timeLo (s : State) : (flagsAtIssue s).timeLo = s.timeLo := rfl
@[simp] theorem flagsAtIssue_timeHi (s : State) : (flagsAtIssue s).timeHi = s.timeHi := rfl
@[simp] theorem flagsAtIssue_candLen (s : State) : (flagsAtIssue s).candLen = s.candLen := rfl
@[simp] theorem flagsAtIssue_srcLen (s : State) : (flagsAtIssue s).srcLen = s.srcLen := rfl
@[simp] theorem flagsAtIssue_dstLen (s : State) : (flagsAtIssue s).dstLen = s.dstLen := rfl
@[simp] theorem flagsAtIssue_otp (s : State) : (flagsAtIssue s).otp = s.otp := rfl
@[simp] theorem flagsAtIssue_binary (s : State) : (flagsAtIssue s).binary = s.binary := rfl
@[simp] theorem flagsAtIssue_offset (s : State) : (flagsAtIssue s).offset = s.offset := rfl
@[simp] theorem flagsAtIssue_mctrLo (s : State) : (flagsAtIssue s).mctrLo = s.mctrLo := rfl
@[simp] theorem flagsAtIssue_mctrHi (s : State) : (flagsAtIssue s).mctrHi = s.mctrHi := rfl
@[simp] theorem flagsAtIssue_tctrLo (s : State) : (flagsAtIssue s).tctrLo = s.tctrLo := rfl
@[simp] theorem flagsAtIssue_tctrHi (s : State) : (flagsAtIssue s).tctrHi = s.tctrHi := rfl
@[simp] theorem flagsAtIssue_remain (s : State) : (flagsAtIssue s).remain = s.remain := rfl
@[simp] theorem flagsAtIssue_irqEn (s : State) : (flagsAtIssue s).irqEn = s.irqEn := rfl
@[simp] theorem flagsAtIssue_errInfo (s : State) : (flagsAtIssue s).errInfo = s.errInfo := rfl
@[simp] theorem flagsAtIssue_mem (s : State) : (flagsAtIssue s).mem = s.mem := rfl
@[simp] theorem flagsAtIssue_phase (s : State) : (flagsAtIssue s).phase = s.phase := rfl
@[simp] theorem flagsAtIssue_cmd (s : State) : (flagsAtIssue s).cmd = s.cmd := rfl
@[simp] theorem flagsAtIssue_j (s : State) : (flagsAtIssue s).j = s.j := rfl
@[simp] theorem flagsAtIssue_first (s : State) : (flagsAtIssue s).first = s.first := rfl
@[simp] theorem flagsAtIssue_scratch (s : State) : (flagsAtIssue s).scratch = s.scratch := rfl
@[simp] theorem flagsAtIssue_shifter (s : State) : (flagsAtIssue s).shifter = s.shifter := rfl
@[simp] theorem flagsAtIssue_staged (s : State) : (flagsAtIssue s).staged = s.staged := rfl
@[simp] theorem flagsAtIssue_request (s : State) : (flagsAtIssue s).request = s.request := rfl
@[simp] theorem flagsAtIssue_inReset (s : State) : (flagsAtIssue s).inReset = s.inReset := rfl
@[simp] theorem flagsAtIssue_epoch (s : State) : (flagsAtIssue s).epoch = s.epoch := rfl
@[simp] theorem flagsAtIssue_draws (s : State) : (flagsAtIssue s).draws = s.draws := rfl
@[simp] theorem flagsAtIssue_program (s : State) : (flagsAtIssue s).program = s.program := rfl
@[simp] theorem flagsAtIssue_schedule (s : State) : (flagsAtIssue s).schedule = s.schedule := rfl
@[simp] theorem flagsAtIssue_recurring (s : State) : (flagsAtIssue s).recurring = s.recurring := rfl
@[simp] theorem flagsAtIssue_replies (s : State) : (flagsAtIssue s).replies = s.replies := rfl
@[simp] theorem flagsAtIssue_requests (s : State) : (flagsAtIssue s).requests = s.requests := rfl

/-! ## flagsAtSuccess -/

@[simp] theorem flagsAtSuccess_busy (s : State) : (flagsAtSuccess s).busy = false := rfl
@[simp] theorem flagsAtSuccess_done (s : State) : (flagsAtSuccess s).done = true := rfl
@[simp] theorem flagsAtSuccess_err (s : State) : (flagsAtSuccess s).err = false := rfl
@[simp] theorem flagsAtSuccess_matched (s : State) : (flagsAtSuccess s).matched = s.matched := rfl
@[simp] theorem flagsAtSuccess_lock (s : State) : (flagsAtSuccess s).lock = s.lock := rfl
@[simp] theorem flagsAtSuccess_ovr (s : State) : (flagsAtSuccess s).ovr = s.ovr := rfl
@[simp] theorem flagsAtSuccess_errCode (s : State) : (flagsAtSuccess s).errCode = 0#4 := rfl
@[simp] theorem flagsAtSuccess_digits (s : State) : (flagsAtSuccess s).digits = s.digits := rfl
@[simp] theorem flagsAtSuccess_alg (s : State) : (flagsAtSuccess s).alg = s.alg := rfl
@[simp] theorem flagsAtSuccess_strictLen (s : State) : (flagsAtSuccess s).strictLen = s.strictLen := rfl
@[simp] theorem flagsAtSuccess_tstep (s : State) : (flagsAtSuccess s).tstep = s.tstep := rfl
@[simp] theorem flagsAtSuccess_keyLen (s : State) : (flagsAtSuccess s).keyLen = s.keyLen := rfl
@[simp] theorem flagsAtSuccess_ctrLo (s : State) : (flagsAtSuccess s).ctrLo = s.ctrLo := rfl
@[simp] theorem flagsAtSuccess_ctrHi (s : State) : (flagsAtSuccess s).ctrHi = s.ctrHi := rfl
@[simp] theorem flagsAtSuccess_timeLo (s : State) : (flagsAtSuccess s).timeLo = s.timeLo := rfl
@[simp] theorem flagsAtSuccess_timeHi (s : State) : (flagsAtSuccess s).timeHi = s.timeHi := rfl
@[simp] theorem flagsAtSuccess_candLen (s : State) : (flagsAtSuccess s).candLen = s.candLen := rfl
@[simp] theorem flagsAtSuccess_srcLen (s : State) : (flagsAtSuccess s).srcLen = s.srcLen := rfl
@[simp] theorem flagsAtSuccess_dstLen (s : State) : (flagsAtSuccess s).dstLen = s.dstLen := rfl
@[simp] theorem flagsAtSuccess_otp (s : State) : (flagsAtSuccess s).otp = s.otp := rfl
@[simp] theorem flagsAtSuccess_binary (s : State) : (flagsAtSuccess s).binary = s.binary := rfl
@[simp] theorem flagsAtSuccess_offset (s : State) : (flagsAtSuccess s).offset = s.offset := rfl
@[simp] theorem flagsAtSuccess_mctrLo (s : State) : (flagsAtSuccess s).mctrLo = s.mctrLo := rfl
@[simp] theorem flagsAtSuccess_mctrHi (s : State) : (flagsAtSuccess s).mctrHi = s.mctrHi := rfl
@[simp] theorem flagsAtSuccess_tctrLo (s : State) : (flagsAtSuccess s).tctrLo = s.tctrLo := rfl
@[simp] theorem flagsAtSuccess_tctrHi (s : State) : (flagsAtSuccess s).tctrHi = s.tctrHi := rfl
@[simp] theorem flagsAtSuccess_remain (s : State) : (flagsAtSuccess s).remain = s.remain := rfl
@[simp] theorem flagsAtSuccess_irqEn (s : State) : (flagsAtSuccess s).irqEn = s.irqEn := rfl
@[simp] theorem flagsAtSuccess_errInfo (s : State) : (flagsAtSuccess s).errInfo = 0#32 := rfl
@[simp] theorem flagsAtSuccess_mem (s : State) : (flagsAtSuccess s).mem = s.mem := rfl
@[simp] theorem flagsAtSuccess_phase (s : State) : (flagsAtSuccess s).phase = s.phase := rfl
@[simp] theorem flagsAtSuccess_cmd (s : State) : (flagsAtSuccess s).cmd = s.cmd := rfl
@[simp] theorem flagsAtSuccess_j (s : State) : (flagsAtSuccess s).j = s.j := rfl
@[simp] theorem flagsAtSuccess_first (s : State) : (flagsAtSuccess s).first = s.first := rfl
@[simp] theorem flagsAtSuccess_scratch (s : State) : (flagsAtSuccess s).scratch = s.scratch := rfl
@[simp] theorem flagsAtSuccess_shifter (s : State) : (flagsAtSuccess s).shifter = s.shifter := rfl
@[simp] theorem flagsAtSuccess_staged (s : State) : (flagsAtSuccess s).staged = s.staged := rfl
@[simp] theorem flagsAtSuccess_request (s : State) : (flagsAtSuccess s).request = s.request := rfl
@[simp] theorem flagsAtSuccess_inReset (s : State) : (flagsAtSuccess s).inReset = s.inReset := rfl
@[simp] theorem flagsAtSuccess_epoch (s : State) : (flagsAtSuccess s).epoch = s.epoch := rfl
@[simp] theorem flagsAtSuccess_draws (s : State) : (flagsAtSuccess s).draws = s.draws := rfl
@[simp] theorem flagsAtSuccess_program (s : State) : (flagsAtSuccess s).program = s.program := rfl
@[simp] theorem flagsAtSuccess_schedule (s : State) : (flagsAtSuccess s).schedule = s.schedule := rfl
@[simp] theorem flagsAtSuccess_recurring (s : State) : (flagsAtSuccess s).recurring = s.recurring := rfl
@[simp] theorem flagsAtSuccess_replies (s : State) : (flagsAtSuccess s).replies = s.replies := rfl
@[simp] theorem flagsAtSuccess_requests (s : State) : (flagsAtSuccess s).requests = s.requests := rfl

/-! ## flagsAtError -/

@[simp] theorem flagsAtError_busy (e : ErrCode) (i : Word) (s : State) : (flagsAtError e i s).busy = false := rfl
@[simp] theorem flagsAtError_done (e : ErrCode) (i : Word) (s : State) : (flagsAtError e i s).done = true := rfl
@[simp] theorem flagsAtError_err (e : ErrCode) (i : Word) (s : State) : (flagsAtError e i s).err = true := rfl
@[simp] theorem flagsAtError_matched (e : ErrCode) (i : Word) (s : State) : (flagsAtError e i s).matched = s.matched := rfl
@[simp] theorem flagsAtError_lock (e : ErrCode) (i : Word) (s : State) : (flagsAtError e i s).lock = s.lock := rfl
@[simp] theorem flagsAtError_ovr (e : ErrCode) (i : Word) (s : State) : (flagsAtError e i s).ovr = s.ovr := rfl
@[simp] theorem flagsAtError_errCode (e : ErrCode) (i : Word) (s : State) : (flagsAtError e i s).errCode = e.code := rfl
@[simp] theorem flagsAtError_digits (e : ErrCode) (i : Word) (s : State) : (flagsAtError e i s).digits = s.digits := rfl
@[simp] theorem flagsAtError_alg (e : ErrCode) (i : Word) (s : State) : (flagsAtError e i s).alg = s.alg := rfl
@[simp] theorem flagsAtError_strictLen (e : ErrCode) (i : Word) (s : State) : (flagsAtError e i s).strictLen = s.strictLen := rfl
@[simp] theorem flagsAtError_tstep (e : ErrCode) (i : Word) (s : State) : (flagsAtError e i s).tstep = s.tstep := rfl
@[simp] theorem flagsAtError_keyLen (e : ErrCode) (i : Word) (s : State) : (flagsAtError e i s).keyLen = s.keyLen := rfl
@[simp] theorem flagsAtError_ctrLo (e : ErrCode) (i : Word) (s : State) : (flagsAtError e i s).ctrLo = s.ctrLo := rfl
@[simp] theorem flagsAtError_ctrHi (e : ErrCode) (i : Word) (s : State) : (flagsAtError e i s).ctrHi = s.ctrHi := rfl
@[simp] theorem flagsAtError_timeLo (e : ErrCode) (i : Word) (s : State) : (flagsAtError e i s).timeLo = s.timeLo := rfl
@[simp] theorem flagsAtError_timeHi (e : ErrCode) (i : Word) (s : State) : (flagsAtError e i s).timeHi = s.timeHi := rfl
@[simp] theorem flagsAtError_candLen (e : ErrCode) (i : Word) (s : State) : (flagsAtError e i s).candLen = s.candLen := rfl
@[simp] theorem flagsAtError_srcLen (e : ErrCode) (i : Word) (s : State) : (flagsAtError e i s).srcLen = s.srcLen := rfl
@[simp] theorem flagsAtError_dstLen (e : ErrCode) (i : Word) (s : State) : (flagsAtError e i s).dstLen = s.dstLen := rfl
@[simp] theorem flagsAtError_otp (e : ErrCode) (i : Word) (s : State) : (flagsAtError e i s).otp = s.otp := rfl
@[simp] theorem flagsAtError_binary (e : ErrCode) (i : Word) (s : State) : (flagsAtError e i s).binary = s.binary := rfl
@[simp] theorem flagsAtError_offset (e : ErrCode) (i : Word) (s : State) : (flagsAtError e i s).offset = s.offset := rfl
@[simp] theorem flagsAtError_mctrLo (e : ErrCode) (i : Word) (s : State) : (flagsAtError e i s).mctrLo = s.mctrLo := rfl
@[simp] theorem flagsAtError_mctrHi (e : ErrCode) (i : Word) (s : State) : (flagsAtError e i s).mctrHi = s.mctrHi := rfl
@[simp] theorem flagsAtError_tctrLo (e : ErrCode) (i : Word) (s : State) : (flagsAtError e i s).tctrLo = s.tctrLo := rfl
@[simp] theorem flagsAtError_tctrHi (e : ErrCode) (i : Word) (s : State) : (flagsAtError e i s).tctrHi = s.tctrHi := rfl
@[simp] theorem flagsAtError_remain (e : ErrCode) (i : Word) (s : State) : (flagsAtError e i s).remain = s.remain := rfl
@[simp] theorem flagsAtError_irqEn (e : ErrCode) (i : Word) (s : State) : (flagsAtError e i s).irqEn = s.irqEn := rfl
@[simp] theorem flagsAtError_errInfo (e : ErrCode) (i : Word) (s : State) : (flagsAtError e i s).errInfo = i := rfl
@[simp] theorem flagsAtError_mem (e : ErrCode) (i : Word) (s : State) : (flagsAtError e i s).mem = s.mem := rfl
@[simp] theorem flagsAtError_phase (e : ErrCode) (i : Word) (s : State) : (flagsAtError e i s).phase = s.phase := rfl
@[simp] theorem flagsAtError_cmd (e : ErrCode) (i : Word) (s : State) : (flagsAtError e i s).cmd = s.cmd := rfl
@[simp] theorem flagsAtError_j (e : ErrCode) (i : Word) (s : State) : (flagsAtError e i s).j = s.j := rfl
@[simp] theorem flagsAtError_first (e : ErrCode) (i : Word) (s : State) : (flagsAtError e i s).first = s.first := rfl
@[simp] theorem flagsAtError_scratch (e : ErrCode) (i : Word) (s : State) : (flagsAtError e i s).scratch = s.scratch := rfl
@[simp] theorem flagsAtError_shifter (e : ErrCode) (i : Word) (s : State) : (flagsAtError e i s).shifter = s.shifter := rfl
@[simp] theorem flagsAtError_staged (e : ErrCode) (i : Word) (s : State) : (flagsAtError e i s).staged = s.staged := rfl
@[simp] theorem flagsAtError_request (e : ErrCode) (i : Word) (s : State) : (flagsAtError e i s).request = s.request := rfl
@[simp] theorem flagsAtError_inReset (e : ErrCode) (i : Word) (s : State) : (flagsAtError e i s).inReset = s.inReset := rfl
@[simp] theorem flagsAtError_epoch (e : ErrCode) (i : Word) (s : State) : (flagsAtError e i s).epoch = s.epoch := rfl
@[simp] theorem flagsAtError_draws (e : ErrCode) (i : Word) (s : State) : (flagsAtError e i s).draws = s.draws := rfl
@[simp] theorem flagsAtError_program (e : ErrCode) (i : Word) (s : State) : (flagsAtError e i s).program = s.program := rfl
@[simp] theorem flagsAtError_schedule (e : ErrCode) (i : Word) (s : State) : (flagsAtError e i s).schedule = s.schedule := rfl
@[simp] theorem flagsAtError_recurring (e : ErrCode) (i : Word) (s : State) : (flagsAtError e i s).recurring = s.recurring := rfl
@[simp] theorem flagsAtError_replies (e : ErrCode) (i : Word) (s : State) : (flagsAtError e i s).replies = s.replies := rfl
@[simp] theorem flagsAtError_requests (e : ErrCode) (i : Word) (s : State) : (flagsAtError e i s).requests = s.requests := rfl

/-! ## flagDropped -/

@[simp] theorem flagDropped_busy (s : State) : (flagDropped s).busy = s.busy := rfl
@[simp] theorem flagDropped_done (s : State) : (flagDropped s).done = s.done := rfl
@[simp] theorem flagDropped_err (s : State) : (flagDropped s).err = s.err := rfl
@[simp] theorem flagDropped_matched (s : State) : (flagDropped s).matched = s.matched := rfl
@[simp] theorem flagDropped_lock (s : State) : (flagDropped s).lock = s.lock := rfl
@[simp] theorem flagDropped_ovr (s : State) : (flagDropped s).ovr = true := rfl
@[simp] theorem flagDropped_errCode (s : State) : (flagDropped s).errCode = s.errCode := rfl
@[simp] theorem flagDropped_digits (s : State) : (flagDropped s).digits = s.digits := rfl
@[simp] theorem flagDropped_alg (s : State) : (flagDropped s).alg = s.alg := rfl
@[simp] theorem flagDropped_strictLen (s : State) : (flagDropped s).strictLen = s.strictLen := rfl
@[simp] theorem flagDropped_tstep (s : State) : (flagDropped s).tstep = s.tstep := rfl
@[simp] theorem flagDropped_keyLen (s : State) : (flagDropped s).keyLen = s.keyLen := rfl
@[simp] theorem flagDropped_ctrLo (s : State) : (flagDropped s).ctrLo = s.ctrLo := rfl
@[simp] theorem flagDropped_ctrHi (s : State) : (flagDropped s).ctrHi = s.ctrHi := rfl
@[simp] theorem flagDropped_timeLo (s : State) : (flagDropped s).timeLo = s.timeLo := rfl
@[simp] theorem flagDropped_timeHi (s : State) : (flagDropped s).timeHi = s.timeHi := rfl
@[simp] theorem flagDropped_candLen (s : State) : (flagDropped s).candLen = s.candLen := rfl
@[simp] theorem flagDropped_srcLen (s : State) : (flagDropped s).srcLen = s.srcLen := rfl
@[simp] theorem flagDropped_dstLen (s : State) : (flagDropped s).dstLen = s.dstLen := rfl
@[simp] theorem flagDropped_otp (s : State) : (flagDropped s).otp = s.otp := rfl
@[simp] theorem flagDropped_binary (s : State) : (flagDropped s).binary = s.binary := rfl
@[simp] theorem flagDropped_offset (s : State) : (flagDropped s).offset = s.offset := rfl
@[simp] theorem flagDropped_mctrLo (s : State) : (flagDropped s).mctrLo = s.mctrLo := rfl
@[simp] theorem flagDropped_mctrHi (s : State) : (flagDropped s).mctrHi = s.mctrHi := rfl
@[simp] theorem flagDropped_tctrLo (s : State) : (flagDropped s).tctrLo = s.tctrLo := rfl
@[simp] theorem flagDropped_tctrHi (s : State) : (flagDropped s).tctrHi = s.tctrHi := rfl
@[simp] theorem flagDropped_remain (s : State) : (flagDropped s).remain = s.remain := rfl
@[simp] theorem flagDropped_irqEn (s : State) : (flagDropped s).irqEn = s.irqEn := rfl
@[simp] theorem flagDropped_errInfo (s : State) : (flagDropped s).errInfo = s.errInfo := rfl
@[simp] theorem flagDropped_mem (s : State) : (flagDropped s).mem = s.mem := rfl
@[simp] theorem flagDropped_phase (s : State) : (flagDropped s).phase = s.phase := rfl
@[simp] theorem flagDropped_cmd (s : State) : (flagDropped s).cmd = s.cmd := rfl
@[simp] theorem flagDropped_j (s : State) : (flagDropped s).j = s.j := rfl
@[simp] theorem flagDropped_first (s : State) : (flagDropped s).first = s.first := rfl
@[simp] theorem flagDropped_scratch (s : State) : (flagDropped s).scratch = s.scratch := rfl
@[simp] theorem flagDropped_shifter (s : State) : (flagDropped s).shifter = s.shifter := rfl
@[simp] theorem flagDropped_staged (s : State) : (flagDropped s).staged = s.staged := rfl
@[simp] theorem flagDropped_request (s : State) : (flagDropped s).request = s.request := rfl
@[simp] theorem flagDropped_inReset (s : State) : (flagDropped s).inReset = s.inReset := rfl
@[simp] theorem flagDropped_epoch (s : State) : (flagDropped s).epoch = s.epoch := rfl
@[simp] theorem flagDropped_draws (s : State) : (flagDropped s).draws = s.draws := rfl
@[simp] theorem flagDropped_program (s : State) : (flagDropped s).program = s.program := rfl
@[simp] theorem flagDropped_schedule (s : State) : (flagDropped s).schedule = s.schedule := rfl
@[simp] theorem flagDropped_recurring (s : State) : (flagDropped s).recurring = s.recurring := rfl
@[simp] theorem flagDropped_replies (s : State) : (flagDropped s).replies = s.replies := rfl
@[simp] theorem flagDropped_requests (s : State) : (flagDropped s).requests = s.requests := rfl

/-! ## writeStatus -/

@[simp] theorem writeStatus_busy (v : Word) (s : State) : (writeStatus v s).busy = s.busy := rfl
@[simp] theorem writeStatus_done (v : Word) (s : State) : (writeStatus v s).done = (s.done && !v.getLsbD 1) := rfl
@[simp] theorem writeStatus_err (v : Word) (s : State) : (writeStatus v s).err = (s.err && !v.getLsbD 2) := rfl
@[simp] theorem writeStatus_matched (v : Word) (s : State) : (writeStatus v s).matched = s.matched := rfl
@[simp] theorem writeStatus_lock (v : Word) (s : State) : (writeStatus v s).lock = s.lock := rfl
@[simp] theorem writeStatus_ovr (v : Word) (s : State) : (writeStatus v s).ovr = (s.ovr && !v.getLsbD 5) := rfl
@[simp] theorem writeStatus_errCode (v : Word) (s : State) : (writeStatus v s).errCode = (if v.getLsbD 2 then 0#4 else s.errCode) := rfl
@[simp] theorem writeStatus_digits (v : Word) (s : State) : (writeStatus v s).digits = s.digits := rfl
@[simp] theorem writeStatus_alg (v : Word) (s : State) : (writeStatus v s).alg = s.alg := rfl
@[simp] theorem writeStatus_strictLen (v : Word) (s : State) : (writeStatus v s).strictLen = s.strictLen := rfl
@[simp] theorem writeStatus_tstep (v : Word) (s : State) : (writeStatus v s).tstep = s.tstep := rfl
@[simp] theorem writeStatus_keyLen (v : Word) (s : State) : (writeStatus v s).keyLen = s.keyLen := rfl
@[simp] theorem writeStatus_ctrLo (v : Word) (s : State) : (writeStatus v s).ctrLo = s.ctrLo := rfl
@[simp] theorem writeStatus_ctrHi (v : Word) (s : State) : (writeStatus v s).ctrHi = s.ctrHi := rfl
@[simp] theorem writeStatus_timeLo (v : Word) (s : State) : (writeStatus v s).timeLo = s.timeLo := rfl
@[simp] theorem writeStatus_timeHi (v : Word) (s : State) : (writeStatus v s).timeHi = s.timeHi := rfl
@[simp] theorem writeStatus_candLen (v : Word) (s : State) : (writeStatus v s).candLen = s.candLen := rfl
@[simp] theorem writeStatus_srcLen (v : Word) (s : State) : (writeStatus v s).srcLen = s.srcLen := rfl
@[simp] theorem writeStatus_dstLen (v : Word) (s : State) : (writeStatus v s).dstLen = s.dstLen := rfl
@[simp] theorem writeStatus_otp (v : Word) (s : State) : (writeStatus v s).otp = s.otp := rfl
@[simp] theorem writeStatus_binary (v : Word) (s : State) : (writeStatus v s).binary = s.binary := rfl
@[simp] theorem writeStatus_offset (v : Word) (s : State) : (writeStatus v s).offset = s.offset := rfl
@[simp] theorem writeStatus_mctrLo (v : Word) (s : State) : (writeStatus v s).mctrLo = s.mctrLo := rfl
@[simp] theorem writeStatus_mctrHi (v : Word) (s : State) : (writeStatus v s).mctrHi = s.mctrHi := rfl
@[simp] theorem writeStatus_tctrLo (v : Word) (s : State) : (writeStatus v s).tctrLo = s.tctrLo := rfl
@[simp] theorem writeStatus_tctrHi (v : Word) (s : State) : (writeStatus v s).tctrHi = s.tctrHi := rfl
@[simp] theorem writeStatus_remain (v : Word) (s : State) : (writeStatus v s).remain = s.remain := rfl
@[simp] theorem writeStatus_irqEn (v : Word) (s : State) : (writeStatus v s).irqEn = s.irqEn := rfl
@[simp] theorem writeStatus_errInfo (v : Word) (s : State) : (writeStatus v s).errInfo = s.errInfo := rfl
@[simp] theorem writeStatus_mem (v : Word) (s : State) : (writeStatus v s).mem = s.mem := rfl
@[simp] theorem writeStatus_phase (v : Word) (s : State) : (writeStatus v s).phase = s.phase := rfl
@[simp] theorem writeStatus_cmd (v : Word) (s : State) : (writeStatus v s).cmd = s.cmd := rfl
@[simp] theorem writeStatus_j (v : Word) (s : State) : (writeStatus v s).j = s.j := rfl
@[simp] theorem writeStatus_first (v : Word) (s : State) : (writeStatus v s).first = s.first := rfl
@[simp] theorem writeStatus_scratch (v : Word) (s : State) : (writeStatus v s).scratch = s.scratch := rfl
@[simp] theorem writeStatus_shifter (v : Word) (s : State) : (writeStatus v s).shifter = s.shifter := rfl
@[simp] theorem writeStatus_staged (v : Word) (s : State) : (writeStatus v s).staged = s.staged := rfl
@[simp] theorem writeStatus_request (v : Word) (s : State) : (writeStatus v s).request = s.request := rfl
@[simp] theorem writeStatus_inReset (v : Word) (s : State) : (writeStatus v s).inReset = s.inReset := rfl
@[simp] theorem writeStatus_epoch (v : Word) (s : State) : (writeStatus v s).epoch = s.epoch := rfl
@[simp] theorem writeStatus_draws (v : Word) (s : State) : (writeStatus v s).draws = s.draws := rfl
@[simp] theorem writeStatus_program (v : Word) (s : State) : (writeStatus v s).program = s.program := rfl
@[simp] theorem writeStatus_schedule (v : Word) (s : State) : (writeStatus v s).schedule = s.schedule := rfl
@[simp] theorem writeStatus_recurring (v : Word) (s : State) : (writeStatus v s).recurring = s.recurring := rfl
@[simp] theorem writeStatus_replies (v : Word) (s : State) : (writeStatus v s).replies = s.replies := rfl
@[simp] theorem writeStatus_requests (v : Word) (s : State) : (writeStatus v s).requests = s.requests := rfl

/-! ## writeBytes -/

@[simp] theorem writeBytes_busy (a : Nat) (bs : List Byte) (s : State) : (writeBytes a bs s).busy = s.busy := rfl
@[simp] theorem writeBytes_done (a : Nat) (bs : List Byte) (s : State) : (writeBytes a bs s).done = s.done := rfl
@[simp] theorem writeBytes_err (a : Nat) (bs : List Byte) (s : State) : (writeBytes a bs s).err = s.err := rfl
@[simp] theorem writeBytes_matched (a : Nat) (bs : List Byte) (s : State) : (writeBytes a bs s).matched = s.matched := rfl
@[simp] theorem writeBytes_lock (a : Nat) (bs : List Byte) (s : State) : (writeBytes a bs s).lock = s.lock := rfl
@[simp] theorem writeBytes_ovr (a : Nat) (bs : List Byte) (s : State) : (writeBytes a bs s).ovr = s.ovr := rfl
@[simp] theorem writeBytes_errCode (a : Nat) (bs : List Byte) (s : State) : (writeBytes a bs s).errCode = s.errCode := rfl
@[simp] theorem writeBytes_digits (a : Nat) (bs : List Byte) (s : State) : (writeBytes a bs s).digits = s.digits := rfl
@[simp] theorem writeBytes_alg (a : Nat) (bs : List Byte) (s : State) : (writeBytes a bs s).alg = s.alg := rfl
@[simp] theorem writeBytes_strictLen (a : Nat) (bs : List Byte) (s : State) : (writeBytes a bs s).strictLen = s.strictLen := rfl
@[simp] theorem writeBytes_tstep (a : Nat) (bs : List Byte) (s : State) : (writeBytes a bs s).tstep = s.tstep := rfl
@[simp] theorem writeBytes_keyLen (a : Nat) (bs : List Byte) (s : State) : (writeBytes a bs s).keyLen = s.keyLen := rfl
@[simp] theorem writeBytes_ctrLo (a : Nat) (bs : List Byte) (s : State) : (writeBytes a bs s).ctrLo = s.ctrLo := rfl
@[simp] theorem writeBytes_ctrHi (a : Nat) (bs : List Byte) (s : State) : (writeBytes a bs s).ctrHi = s.ctrHi := rfl
@[simp] theorem writeBytes_timeLo (a : Nat) (bs : List Byte) (s : State) : (writeBytes a bs s).timeLo = s.timeLo := rfl
@[simp] theorem writeBytes_timeHi (a : Nat) (bs : List Byte) (s : State) : (writeBytes a bs s).timeHi = s.timeHi := rfl
@[simp] theorem writeBytes_candLen (a : Nat) (bs : List Byte) (s : State) : (writeBytes a bs s).candLen = s.candLen := rfl
@[simp] theorem writeBytes_srcLen (a : Nat) (bs : List Byte) (s : State) : (writeBytes a bs s).srcLen = s.srcLen := rfl
@[simp] theorem writeBytes_dstLen (a : Nat) (bs : List Byte) (s : State) : (writeBytes a bs s).dstLen = s.dstLen := rfl
@[simp] theorem writeBytes_otp (a : Nat) (bs : List Byte) (s : State) : (writeBytes a bs s).otp = s.otp := rfl
@[simp] theorem writeBytes_binary (a : Nat) (bs : List Byte) (s : State) : (writeBytes a bs s).binary = s.binary := rfl
@[simp] theorem writeBytes_offset (a : Nat) (bs : List Byte) (s : State) : (writeBytes a bs s).offset = s.offset := rfl
@[simp] theorem writeBytes_mctrLo (a : Nat) (bs : List Byte) (s : State) : (writeBytes a bs s).mctrLo = s.mctrLo := rfl
@[simp] theorem writeBytes_mctrHi (a : Nat) (bs : List Byte) (s : State) : (writeBytes a bs s).mctrHi = s.mctrHi := rfl
@[simp] theorem writeBytes_tctrLo (a : Nat) (bs : List Byte) (s : State) : (writeBytes a bs s).tctrLo = s.tctrLo := rfl
@[simp] theorem writeBytes_tctrHi (a : Nat) (bs : List Byte) (s : State) : (writeBytes a bs s).tctrHi = s.tctrHi := rfl
@[simp] theorem writeBytes_remain (a : Nat) (bs : List Byte) (s : State) : (writeBytes a bs s).remain = s.remain := rfl
@[simp] theorem writeBytes_irqEn (a : Nat) (bs : List Byte) (s : State) : (writeBytes a bs s).irqEn = s.irqEn := rfl
@[simp] theorem writeBytes_errInfo (a : Nat) (bs : List Byte) (s : State) : (writeBytes a bs s).errInfo = s.errInfo := rfl
@[simp] theorem writeBytes_mem (a : Nat) (bs : List Byte) (s : State) : (writeBytes a bs s).mem = s.mem.write a bs := rfl
@[simp] theorem writeBytes_phase (a : Nat) (bs : List Byte) (s : State) : (writeBytes a bs s).phase = s.phase := rfl
@[simp] theorem writeBytes_cmd (a : Nat) (bs : List Byte) (s : State) : (writeBytes a bs s).cmd = s.cmd := rfl
@[simp] theorem writeBytes_j (a : Nat) (bs : List Byte) (s : State) : (writeBytes a bs s).j = s.j := rfl
@[simp] theorem writeBytes_first (a : Nat) (bs : List Byte) (s : State) : (writeBytes a bs s).first = s.first := rfl
@[simp] theorem writeBytes_scratch (a : Nat) (bs : List Byte) (s : State) : (writeBytes a bs s).scratch = s.scratch := rfl
@[simp] theorem writeBytes_shifter (a : Nat) (bs : List Byte) (s : State) : (writeBytes a bs s).shifter = s.shifter := rfl
@[simp] theorem writeBytes_staged (a : Nat) (bs : List Byte) (s : State) : (writeBytes a bs s).staged = s.staged := rfl
@[simp] theorem writeBytes_request (a : Nat) (bs : List Byte) (s : State) : (writeBytes a bs s).request = s.request := rfl
@[simp] theorem writeBytes_inReset (a : Nat) (bs : List Byte) (s : State) : (writeBytes a bs s).inReset = s.inReset := rfl
@[simp] theorem writeBytes_epoch (a : Nat) (bs : List Byte) (s : State) : (writeBytes a bs s).epoch = s.epoch := rfl
@[simp] theorem writeBytes_draws (a : Nat) (bs : List Byte) (s : State) : (writeBytes a bs s).draws = s.draws := rfl
@[simp] theorem writeBytes_program (a : Nat) (bs : List Byte) (s : State) : (writeBytes a bs s).program = s.program := rfl
@[simp] theorem writeBytes_schedule (a : Nat) (bs : List Byte) (s : State) : (writeBytes a bs s).schedule = s.schedule := rfl
@[simp] theorem writeBytes_recurring (a : Nat) (bs : List Byte) (s : State) : (writeBytes a bs s).recurring = s.recurring := rfl
@[simp] theorem writeBytes_replies (a : Nat) (bs : List Byte) (s : State) : (writeBytes a bs s).replies = s.replies := rfl
@[simp] theorem writeBytes_requests (a : Nat) (bs : List Byte) (s : State) : (writeBytes a bs s).requests = s.requests := rfl

/-! ## idleSequencer -/

@[simp] theorem idleSequencer_busy (s : State) : (idleSequencer s).busy = s.busy := rfl
@[simp] theorem idleSequencer_done (s : State) : (idleSequencer s).done = s.done := rfl
@[simp] theorem idleSequencer_err (s : State) : (idleSequencer s).err = s.err := rfl
@[simp] theorem idleSequencer_matched (s : State) : (idleSequencer s).matched = s.matched := rfl
@[simp] theorem idleSequencer_lock (s : State) : (idleSequencer s).lock = s.lock := rfl
@[simp] theorem idleSequencer_ovr (s : State) : (idleSequencer s).ovr = s.ovr := rfl
@[simp] theorem idleSequencer_errCode (s : State) : (idleSequencer s).errCode = s.errCode := rfl
@[simp] theorem idleSequencer_digits (s : State) : (idleSequencer s).digits = s.digits := rfl
@[simp] theorem idleSequencer_alg (s : State) : (idleSequencer s).alg = s.alg := rfl
@[simp] theorem idleSequencer_strictLen (s : State) : (idleSequencer s).strictLen = s.strictLen := rfl
@[simp] theorem idleSequencer_tstep (s : State) : (idleSequencer s).tstep = s.tstep := rfl
@[simp] theorem idleSequencer_keyLen (s : State) : (idleSequencer s).keyLen = s.keyLen := rfl
@[simp] theorem idleSequencer_ctrLo (s : State) : (idleSequencer s).ctrLo = s.ctrLo := rfl
@[simp] theorem idleSequencer_ctrHi (s : State) : (idleSequencer s).ctrHi = s.ctrHi := rfl
@[simp] theorem idleSequencer_timeLo (s : State) : (idleSequencer s).timeLo = s.timeLo := rfl
@[simp] theorem idleSequencer_timeHi (s : State) : (idleSequencer s).timeHi = s.timeHi := rfl
@[simp] theorem idleSequencer_candLen (s : State) : (idleSequencer s).candLen = s.candLen := rfl
@[simp] theorem idleSequencer_srcLen (s : State) : (idleSequencer s).srcLen = s.srcLen := rfl
@[simp] theorem idleSequencer_dstLen (s : State) : (idleSequencer s).dstLen = s.dstLen := rfl
@[simp] theorem idleSequencer_otp (s : State) : (idleSequencer s).otp = s.otp := rfl
@[simp] theorem idleSequencer_binary (s : State) : (idleSequencer s).binary = s.binary := rfl
@[simp] theorem idleSequencer_offset (s : State) : (idleSequencer s).offset = s.offset := rfl
@[simp] theorem idleSequencer_mctrLo (s : State) : (idleSequencer s).mctrLo = s.mctrLo := rfl
@[simp] theorem idleSequencer_mctrHi (s : State) : (idleSequencer s).mctrHi = s.mctrHi := rfl
@[simp] theorem idleSequencer_tctrLo (s : State) : (idleSequencer s).tctrLo = s.tctrLo := rfl
@[simp] theorem idleSequencer_tctrHi (s : State) : (idleSequencer s).tctrHi = s.tctrHi := rfl
@[simp] theorem idleSequencer_remain (s : State) : (idleSequencer s).remain = s.remain := rfl
@[simp] theorem idleSequencer_irqEn (s : State) : (idleSequencer s).irqEn = s.irqEn := rfl
@[simp] theorem idleSequencer_errInfo (s : State) : (idleSequencer s).errInfo = s.errInfo := rfl
@[simp] theorem idleSequencer_mem (s : State) : (idleSequencer s).mem = s.mem := rfl
@[simp] theorem idleSequencer_phase (s : State) : (idleSequencer s).phase = .idle := rfl
@[simp] theorem idleSequencer_cmd (s : State) : (idleSequencer s).cmd = s.cmd := rfl
@[simp] theorem idleSequencer_j (s : State) : (idleSequencer s).j = s.j := rfl
@[simp] theorem idleSequencer_first (s : State) : (idleSequencer s).first = s.first := rfl
@[simp] theorem idleSequencer_scratch (s : State) : (idleSequencer s).scratch = s.scratch := rfl
@[simp] theorem idleSequencer_shifter (s : State) : (idleSequencer s).shifter = { s.shifter with out := [] } := rfl
@[simp] theorem idleSequencer_staged (s : State) : (idleSequencer s).staged = [] := rfl
@[simp] theorem idleSequencer_request (s : State) : (idleSequencer s).request = none := rfl
@[simp] theorem idleSequencer_inReset (s : State) : (idleSequencer s).inReset = s.inReset := rfl
@[simp] theorem idleSequencer_epoch (s : State) : (idleSequencer s).epoch = s.epoch := rfl
@[simp] theorem idleSequencer_draws (s : State) : (idleSequencer s).draws = s.draws := rfl
@[simp] theorem idleSequencer_program (s : State) : (idleSequencer s).program = s.program := rfl
@[simp] theorem idleSequencer_schedule (s : State) : (idleSequencer s).schedule = s.schedule := rfl
@[simp] theorem idleSequencer_recurring (s : State) : (idleSequencer s).recurring = s.recurring := rfl
@[simp] theorem idleSequencer_replies (s : State) : (idleSequencer s).replies = s.replies := rfl
@[simp] theorem idleSequencer_requests (s : State) : (idleSequencer s).requests = s.requests := rfl

/-! ## issue -/

@[simp] theorem issue_busy (v : Word) (s : State) : (issue v s).busy = true := rfl
@[simp] theorem issue_done (v : Word) (s : State) : (issue v s).done = false := rfl
@[simp] theorem issue_err (v : Word) (s : State) : (issue v s).err = false := rfl
@[simp] theorem issue_matched (v : Word) (s : State) : (issue v s).matched = s.matched := rfl
@[simp] theorem issue_lock (v : Word) (s : State) : (issue v s).lock = s.lock := rfl
@[simp] theorem issue_ovr (v : Word) (s : State) : (issue v s).ovr = s.ovr := rfl
@[simp] theorem issue_errCode (v : Word) (s : State) : (issue v s).errCode = 0#4 := rfl
@[simp] theorem issue_digits (v : Word) (s : State) : (issue v s).digits = s.digits := rfl
@[simp] theorem issue_alg (v : Word) (s : State) : (issue v s).alg = s.alg := rfl
@[simp] theorem issue_strictLen (v : Word) (s : State) : (issue v s).strictLen = s.strictLen := rfl
@[simp] theorem issue_tstep (v : Word) (s : State) : (issue v s).tstep = s.tstep := rfl
@[simp] theorem issue_keyLen (v : Word) (s : State) : (issue v s).keyLen = s.keyLen := rfl
@[simp] theorem issue_ctrLo (v : Word) (s : State) : (issue v s).ctrLo = s.ctrLo := rfl
@[simp] theorem issue_ctrHi (v : Word) (s : State) : (issue v s).ctrHi = s.ctrHi := rfl
@[simp] theorem issue_timeLo (v : Word) (s : State) : (issue v s).timeLo = s.timeLo := rfl
@[simp] theorem issue_timeHi (v : Word) (s : State) : (issue v s).timeHi = s.timeHi := rfl
@[simp] theorem issue_candLen (v : Word) (s : State) : (issue v s).candLen = s.candLen := rfl
@[simp] theorem issue_srcLen (v : Word) (s : State) : (issue v s).srcLen = s.srcLen := rfl
@[simp] theorem issue_dstLen (v : Word) (s : State) : (issue v s).dstLen = s.dstLen := rfl
@[simp] theorem issue_otp (v : Word) (s : State) : (issue v s).otp = s.otp := rfl
@[simp] theorem issue_binary (v : Word) (s : State) : (issue v s).binary = s.binary := rfl
@[simp] theorem issue_offset (v : Word) (s : State) : (issue v s).offset = s.offset := rfl
@[simp] theorem issue_mctrLo (v : Word) (s : State) : (issue v s).mctrLo = s.mctrLo := rfl
@[simp] theorem issue_mctrHi (v : Word) (s : State) : (issue v s).mctrHi = s.mctrHi := rfl
@[simp] theorem issue_tctrLo (v : Word) (s : State) : (issue v s).tctrLo = s.tctrLo := rfl
@[simp] theorem issue_tctrHi (v : Word) (s : State) : (issue v s).tctrHi = s.tctrHi := rfl
@[simp] theorem issue_remain (v : Word) (s : State) : (issue v s).remain = s.remain := rfl
@[simp] theorem issue_irqEn (v : Word) (s : State) : (issue v s).irqEn = s.irqEn := rfl
@[simp] theorem issue_errInfo (v : Word) (s : State) : (issue v s).errInfo = s.errInfo := rfl
@[simp] theorem issue_mem (v : Word) (s : State) : (issue v s).mem = s.mem := rfl
@[simp] theorem issue_phase (v : Word) (s : State) : (issue v s).phase = .run := rfl
@[simp] theorem issue_cmd (v : Word) (s : State) : (issue v s).cmd = v := rfl
@[simp] theorem issue_j (v : Word) (s : State) : (issue v s).j = 0 := rfl
@[simp] theorem issue_first (v : Word) (s : State) : (issue v s).first = none := rfl
@[simp] theorem issue_scratch (v : Word) (s : State) : (issue v s).scratch = s.scratch := rfl
@[simp] theorem issue_shifter (v : Word) (s : State) : (issue v s).shifter = Shifter.start := rfl
@[simp] theorem issue_staged (v : Word) (s : State) : (issue v s).staged = [] := rfl
@[simp] theorem issue_request (v : Word) (s : State) : (issue v s).request = none := rfl
@[simp] theorem issue_inReset (v : Word) (s : State) : (issue v s).inReset = s.inReset := rfl
@[simp] theorem issue_epoch (v : Word) (s : State) : (issue v s).epoch = s.epoch := rfl
@[simp] theorem issue_draws (v : Word) (s : State) : (issue v s).draws = s.draws := rfl
@[simp] theorem issue_program (v : Word) (s : State) : (issue v s).program = s.program := rfl
@[simp] theorem issue_schedule (v : Word) (s : State) : (issue v s).schedule = s.schedule := rfl
@[simp] theorem issue_recurring (v : Word) (s : State) : (issue v s).recurring = s.recurring := rfl
@[simp] theorem issue_replies (v : Word) (s : State) : (issue v s).replies = s.replies := rfl
@[simp] theorem issue_requests (v : Word) (s : State) : (issue v s).requests = s.requests := rfl

/-! ## raise -/

@[simp] theorem raise_busy (e : ErrCode) (i : Word) (s : State) : (raise e i s).busy = false := rfl
@[simp] theorem raise_done (e : ErrCode) (i : Word) (s : State) : (raise e i s).done = true := rfl
@[simp] theorem raise_err (e : ErrCode) (i : Word) (s : State) : (raise e i s).err = true := rfl
@[simp] theorem raise_matched (e : ErrCode) (i : Word) (s : State) : (raise e i s).matched = s.matched := rfl
@[simp] theorem raise_lock (e : ErrCode) (i : Word) (s : State) : (raise e i s).lock = s.lock := rfl
@[simp] theorem raise_ovr (e : ErrCode) (i : Word) (s : State) : (raise e i s).ovr = s.ovr := rfl
@[simp] theorem raise_errCode (e : ErrCode) (i : Word) (s : State) : (raise e i s).errCode = e.code := rfl
@[simp] theorem raise_digits (e : ErrCode) (i : Word) (s : State) : (raise e i s).digits = s.digits := rfl
@[simp] theorem raise_alg (e : ErrCode) (i : Word) (s : State) : (raise e i s).alg = s.alg := rfl
@[simp] theorem raise_strictLen (e : ErrCode) (i : Word) (s : State) : (raise e i s).strictLen = s.strictLen := rfl
@[simp] theorem raise_tstep (e : ErrCode) (i : Word) (s : State) : (raise e i s).tstep = s.tstep := rfl
@[simp] theorem raise_keyLen (e : ErrCode) (i : Word) (s : State) : (raise e i s).keyLen = s.keyLen := rfl
@[simp] theorem raise_ctrLo (e : ErrCode) (i : Word) (s : State) : (raise e i s).ctrLo = s.ctrLo := rfl
@[simp] theorem raise_ctrHi (e : ErrCode) (i : Word) (s : State) : (raise e i s).ctrHi = s.ctrHi := rfl
@[simp] theorem raise_timeLo (e : ErrCode) (i : Word) (s : State) : (raise e i s).timeLo = s.timeLo := rfl
@[simp] theorem raise_timeHi (e : ErrCode) (i : Word) (s : State) : (raise e i s).timeHi = s.timeHi := rfl
@[simp] theorem raise_candLen (e : ErrCode) (i : Word) (s : State) : (raise e i s).candLen = s.candLen := rfl
@[simp] theorem raise_srcLen (e : ErrCode) (i : Word) (s : State) : (raise e i s).srcLen = s.srcLen := rfl
@[simp] theorem raise_dstLen (e : ErrCode) (i : Word) (s : State) : (raise e i s).dstLen = s.dstLen := rfl
@[simp] theorem raise_otp (e : ErrCode) (i : Word) (s : State) : (raise e i s).otp = s.otp := rfl
@[simp] theorem raise_binary (e : ErrCode) (i : Word) (s : State) : (raise e i s).binary = s.binary := rfl
@[simp] theorem raise_offset (e : ErrCode) (i : Word) (s : State) : (raise e i s).offset = s.offset := rfl
@[simp] theorem raise_mctrLo (e : ErrCode) (i : Word) (s : State) : (raise e i s).mctrLo = s.mctrLo := rfl
@[simp] theorem raise_mctrHi (e : ErrCode) (i : Word) (s : State) : (raise e i s).mctrHi = s.mctrHi := rfl
@[simp] theorem raise_tctrLo (e : ErrCode) (i : Word) (s : State) : (raise e i s).tctrLo = s.tctrLo := rfl
@[simp] theorem raise_tctrHi (e : ErrCode) (i : Word) (s : State) : (raise e i s).tctrHi = s.tctrHi := rfl
@[simp] theorem raise_remain (e : ErrCode) (i : Word) (s : State) : (raise e i s).remain = s.remain := rfl
@[simp] theorem raise_irqEn (e : ErrCode) (i : Word) (s : State) : (raise e i s).irqEn = s.irqEn := rfl
@[simp] theorem raise_errInfo (e : ErrCode) (i : Word) (s : State) : (raise e i s).errInfo = i := rfl
@[simp] theorem raise_mem (e : ErrCode) (i : Word) (s : State) : (raise e i s).mem = s.mem := rfl
@[simp] theorem raise_phase (e : ErrCode) (i : Word) (s : State) : (raise e i s).phase = .idle := rfl
@[simp] theorem raise_cmd (e : ErrCode) (i : Word) (s : State) : (raise e i s).cmd = s.cmd := rfl
@[simp] theorem raise_j (e : ErrCode) (i : Word) (s : State) : (raise e i s).j = s.j := rfl
@[simp] theorem raise_first (e : ErrCode) (i : Word) (s : State) : (raise e i s).first = s.first := rfl
@[simp] theorem raise_scratch (e : ErrCode) (i : Word) (s : State) : (raise e i s).scratch = s.scratch := rfl
@[simp] theorem raise_shifter (e : ErrCode) (i : Word) (s : State) : (raise e i s).shifter = { s.shifter with out := [] } := rfl
@[simp] theorem raise_staged (e : ErrCode) (i : Word) (s : State) : (raise e i s).staged = [] := rfl
@[simp] theorem raise_request (e : ErrCode) (i : Word) (s : State) : (raise e i s).request = none := rfl
@[simp] theorem raise_inReset (e : ErrCode) (i : Word) (s : State) : (raise e i s).inReset = s.inReset := rfl
@[simp] theorem raise_epoch (e : ErrCode) (i : Word) (s : State) : (raise e i s).epoch = s.epoch := rfl
@[simp] theorem raise_draws (e : ErrCode) (i : Word) (s : State) : (raise e i s).draws = s.draws := rfl
@[simp] theorem raise_program (e : ErrCode) (i : Word) (s : State) : (raise e i s).program = s.program := rfl
@[simp] theorem raise_schedule (e : ErrCode) (i : Word) (s : State) : (raise e i s).schedule = s.schedule := rfl
@[simp] theorem raise_recurring (e : ErrCode) (i : Word) (s : State) : (raise e i s).recurring = s.recurring := rfl
@[simp] theorem raise_replies (e : ErrCode) (i : Word) (s : State) : (raise e i s).replies = s.replies := rfl
@[simp] theorem raise_requests (e : ErrCode) (i : Word) (s : State) : (raise e i s).requests = s.requests := rfl

/-! ## endRequest -/

@[simp] theorem endRequest_busy (s : State) : (endRequest s).busy = s.busy := rfl
@[simp] theorem endRequest_done (s : State) : (endRequest s).done = s.done := rfl
@[simp] theorem endRequest_err (s : State) : (endRequest s).err = s.err := rfl
@[simp] theorem endRequest_matched (s : State) : (endRequest s).matched = s.matched := rfl
@[simp] theorem endRequest_lock (s : State) : (endRequest s).lock = s.lock := rfl
@[simp] theorem endRequest_ovr (s : State) : (endRequest s).ovr = s.ovr := rfl
@[simp] theorem endRequest_errCode (s : State) : (endRequest s).errCode = s.errCode := rfl
@[simp] theorem endRequest_digits (s : State) : (endRequest s).digits = s.digits := rfl
@[simp] theorem endRequest_alg (s : State) : (endRequest s).alg = s.alg := rfl
@[simp] theorem endRequest_strictLen (s : State) : (endRequest s).strictLen = s.strictLen := rfl
@[simp] theorem endRequest_tstep (s : State) : (endRequest s).tstep = s.tstep := rfl
@[simp] theorem endRequest_keyLen (s : State) : (endRequest s).keyLen = s.keyLen := rfl
@[simp] theorem endRequest_ctrLo (s : State) : (endRequest s).ctrLo = s.ctrLo := rfl
@[simp] theorem endRequest_ctrHi (s : State) : (endRequest s).ctrHi = s.ctrHi := rfl
@[simp] theorem endRequest_timeLo (s : State) : (endRequest s).timeLo = s.timeLo := rfl
@[simp] theorem endRequest_timeHi (s : State) : (endRequest s).timeHi = s.timeHi := rfl
@[simp] theorem endRequest_candLen (s : State) : (endRequest s).candLen = s.candLen := rfl
@[simp] theorem endRequest_srcLen (s : State) : (endRequest s).srcLen = s.srcLen := rfl
@[simp] theorem endRequest_dstLen (s : State) : (endRequest s).dstLen = s.dstLen := rfl
@[simp] theorem endRequest_otp (s : State) : (endRequest s).otp = s.otp := rfl
@[simp] theorem endRequest_binary (s : State) : (endRequest s).binary = s.binary := rfl
@[simp] theorem endRequest_offset (s : State) : (endRequest s).offset = s.offset := rfl
@[simp] theorem endRequest_mctrLo (s : State) : (endRequest s).mctrLo = s.mctrLo := rfl
@[simp] theorem endRequest_mctrHi (s : State) : (endRequest s).mctrHi = s.mctrHi := rfl
@[simp] theorem endRequest_tctrLo (s : State) : (endRequest s).tctrLo = s.tctrLo := rfl
@[simp] theorem endRequest_tctrHi (s : State) : (endRequest s).tctrHi = s.tctrHi := rfl
@[simp] theorem endRequest_remain (s : State) : (endRequest s).remain = s.remain := rfl
@[simp] theorem endRequest_irqEn (s : State) : (endRequest s).irqEn = s.irqEn := rfl
@[simp] theorem endRequest_errInfo (s : State) : (endRequest s).errInfo = s.errInfo := rfl
@[simp] theorem endRequest_mem (s : State) : (endRequest s).mem = s.mem := rfl
@[simp] theorem endRequest_phase (s : State) : (endRequest s).phase = .run := rfl
@[simp] theorem endRequest_cmd (s : State) : (endRequest s).cmd = s.cmd := rfl
@[simp] theorem endRequest_j (s : State) : (endRequest s).j = s.j := rfl
@[simp] theorem endRequest_first (s : State) : (endRequest s).first = s.first := rfl
@[simp] theorem endRequest_scratch (s : State) : (endRequest s).scratch = s.scratch := rfl
@[simp] theorem endRequest_shifter (s : State) : (endRequest s).shifter = s.shifter := rfl
@[simp] theorem endRequest_staged (s : State) : (endRequest s).staged = s.staged := rfl
@[simp] theorem endRequest_request (s : State) : (endRequest s).request = none := rfl
@[simp] theorem endRequest_inReset (s : State) : (endRequest s).inReset = s.inReset := rfl
@[simp] theorem endRequest_epoch (s : State) : (endRequest s).epoch = s.epoch := rfl
@[simp] theorem endRequest_draws (s : State) : (endRequest s).draws = s.draws := rfl
@[simp] theorem endRequest_program (s : State) : (endRequest s).program = s.program := rfl
@[simp] theorem endRequest_schedule (s : State) : (endRequest s).schedule = s.schedule := rfl
@[simp] theorem endRequest_recurring (s : State) : (endRequest s).recurring = s.recurring := rfl
@[simp] theorem endRequest_replies (s : State) : (endRequest s).replies = s.replies := rfl
@[simp] theorem endRequest_requests (s : State) : (endRequest s).requests = s.requests := rfl

/-! ## skipPass -/

@[simp] theorem skipPass_busy (s : State) : (skipPass s).busy = s.busy := rfl
@[simp] theorem skipPass_done (s : State) : (skipPass s).done = s.done := rfl
@[simp] theorem skipPass_err (s : State) : (skipPass s).err = s.err := rfl
@[simp] theorem skipPass_matched (s : State) : (skipPass s).matched = s.matched := rfl
@[simp] theorem skipPass_lock (s : State) : (skipPass s).lock = s.lock := rfl
@[simp] theorem skipPass_ovr (s : State) : (skipPass s).ovr = s.ovr := rfl
@[simp] theorem skipPass_errCode (s : State) : (skipPass s).errCode = s.errCode := rfl
@[simp] theorem skipPass_digits (s : State) : (skipPass s).digits = s.digits := rfl
@[simp] theorem skipPass_alg (s : State) : (skipPass s).alg = s.alg := rfl
@[simp] theorem skipPass_strictLen (s : State) : (skipPass s).strictLen = s.strictLen := rfl
@[simp] theorem skipPass_tstep (s : State) : (skipPass s).tstep = s.tstep := rfl
@[simp] theorem skipPass_keyLen (s : State) : (skipPass s).keyLen = s.keyLen := rfl
@[simp] theorem skipPass_ctrLo (s : State) : (skipPass s).ctrLo = s.ctrLo := rfl
@[simp] theorem skipPass_ctrHi (s : State) : (skipPass s).ctrHi = s.ctrHi := rfl
@[simp] theorem skipPass_timeLo (s : State) : (skipPass s).timeLo = s.timeLo := rfl
@[simp] theorem skipPass_timeHi (s : State) : (skipPass s).timeHi = s.timeHi := rfl
@[simp] theorem skipPass_candLen (s : State) : (skipPass s).candLen = s.candLen := rfl
@[simp] theorem skipPass_srcLen (s : State) : (skipPass s).srcLen = s.srcLen := rfl
@[simp] theorem skipPass_dstLen (s : State) : (skipPass s).dstLen = s.dstLen := rfl
@[simp] theorem skipPass_otp (s : State) : (skipPass s).otp = s.otp := rfl
@[simp] theorem skipPass_binary (s : State) : (skipPass s).binary = s.binary := rfl
@[simp] theorem skipPass_offset (s : State) : (skipPass s).offset = s.offset := rfl
@[simp] theorem skipPass_mctrLo (s : State) : (skipPass s).mctrLo = s.mctrLo := rfl
@[simp] theorem skipPass_mctrHi (s : State) : (skipPass s).mctrHi = s.mctrHi := rfl
@[simp] theorem skipPass_tctrLo (s : State) : (skipPass s).tctrLo = s.tctrLo := rfl
@[simp] theorem skipPass_tctrHi (s : State) : (skipPass s).tctrHi = s.tctrHi := rfl
@[simp] theorem skipPass_remain (s : State) : (skipPass s).remain = s.remain := rfl
@[simp] theorem skipPass_irqEn (s : State) : (skipPass s).irqEn = s.irqEn := rfl
@[simp] theorem skipPass_errInfo (s : State) : (skipPass s).errInfo = s.errInfo := rfl
@[simp] theorem skipPass_mem (s : State) : (skipPass s).mem = s.mem := rfl
@[simp] theorem skipPass_phase (s : State) : (skipPass s).phase = s.phase := rfl
@[simp] theorem skipPass_cmd (s : State) : (skipPass s).cmd = s.cmd := rfl
@[simp] theorem skipPass_j (s : State) : (skipPass s).j = s.j + 1 := rfl
@[simp] theorem skipPass_first (s : State) : (skipPass s).first = s.first := rfl
@[simp] theorem skipPass_scratch (s : State) : (skipPass s).scratch = s.scratch := rfl
@[simp] theorem skipPass_shifter (s : State) : (skipPass s).shifter = s.shifter := rfl
@[simp] theorem skipPass_staged (s : State) : (skipPass s).staged = s.staged := rfl
@[simp] theorem skipPass_request (s : State) : (skipPass s).request = s.request := rfl
@[simp] theorem skipPass_inReset (s : State) : (skipPass s).inReset = s.inReset := rfl
@[simp] theorem skipPass_epoch (s : State) : (skipPass s).epoch = s.epoch := rfl
@[simp] theorem skipPass_draws (s : State) : (skipPass s).draws = s.draws := rfl
@[simp] theorem skipPass_program (s : State) : (skipPass s).program = s.program := rfl
@[simp] theorem skipPass_schedule (s : State) : (skipPass s).schedule = s.schedule := rfl
@[simp] theorem skipPass_recurring (s : State) : (skipPass s).recurring = s.recurring := rfl
@[simp] theorem skipPass_replies (s : State) : (skipPass s).replies = s.replies := rfl
@[simp] theorem skipPass_requests (s : State) : (skipPass s).requests = s.requests := rfl

/-! ## reply -/

@[simp] theorem reply_busy (r : Reply) (s : State) : (reply r s).busy = s.busy := rfl
@[simp] theorem reply_done (r : Reply) (s : State) : (reply r s).done = s.done := rfl
@[simp] theorem reply_err (r : Reply) (s : State) : (reply r s).err = s.err := rfl
@[simp] theorem reply_matched (r : Reply) (s : State) : (reply r s).matched = s.matched := rfl
@[simp] theorem reply_lock (r : Reply) (s : State) : (reply r s).lock = s.lock := rfl
@[simp] theorem reply_ovr (r : Reply) (s : State) : (reply r s).ovr = s.ovr := rfl
@[simp] theorem reply_errCode (r : Reply) (s : State) : (reply r s).errCode = s.errCode := rfl
@[simp] theorem reply_digits (r : Reply) (s : State) : (reply r s).digits = s.digits := rfl
@[simp] theorem reply_alg (r : Reply) (s : State) : (reply r s).alg = s.alg := rfl
@[simp] theorem reply_strictLen (r : Reply) (s : State) : (reply r s).strictLen = s.strictLen := rfl
@[simp] theorem reply_tstep (r : Reply) (s : State) : (reply r s).tstep = s.tstep := rfl
@[simp] theorem reply_keyLen (r : Reply) (s : State) : (reply r s).keyLen = s.keyLen := rfl
@[simp] theorem reply_ctrLo (r : Reply) (s : State) : (reply r s).ctrLo = s.ctrLo := rfl
@[simp] theorem reply_ctrHi (r : Reply) (s : State) : (reply r s).ctrHi = s.ctrHi := rfl
@[simp] theorem reply_timeLo (r : Reply) (s : State) : (reply r s).timeLo = s.timeLo := rfl
@[simp] theorem reply_timeHi (r : Reply) (s : State) : (reply r s).timeHi = s.timeHi := rfl
@[simp] theorem reply_candLen (r : Reply) (s : State) : (reply r s).candLen = s.candLen := rfl
@[simp] theorem reply_srcLen (r : Reply) (s : State) : (reply r s).srcLen = s.srcLen := rfl
@[simp] theorem reply_dstLen (r : Reply) (s : State) : (reply r s).dstLen = s.dstLen := rfl
@[simp] theorem reply_otp (r : Reply) (s : State) : (reply r s).otp = s.otp := rfl
@[simp] theorem reply_binary (r : Reply) (s : State) : (reply r s).binary = s.binary := rfl
@[simp] theorem reply_offset (r : Reply) (s : State) : (reply r s).offset = s.offset := rfl
@[simp] theorem reply_mctrLo (r : Reply) (s : State) : (reply r s).mctrLo = s.mctrLo := rfl
@[simp] theorem reply_mctrHi (r : Reply) (s : State) : (reply r s).mctrHi = s.mctrHi := rfl
@[simp] theorem reply_tctrLo (r : Reply) (s : State) : (reply r s).tctrLo = s.tctrLo := rfl
@[simp] theorem reply_tctrHi (r : Reply) (s : State) : (reply r s).tctrHi = s.tctrHi := rfl
@[simp] theorem reply_remain (r : Reply) (s : State) : (reply r s).remain = s.remain := rfl
@[simp] theorem reply_irqEn (r : Reply) (s : State) : (reply r s).irqEn = s.irqEn := rfl
@[simp] theorem reply_errInfo (r : Reply) (s : State) : (reply r s).errInfo = s.errInfo := rfl
@[simp] theorem reply_mem (r : Reply) (s : State) : (reply r s).mem = s.mem := rfl
@[simp] theorem reply_phase (r : Reply) (s : State) : (reply r s).phase = s.phase := rfl
@[simp] theorem reply_cmd (r : Reply) (s : State) : (reply r s).cmd = s.cmd := rfl
@[simp] theorem reply_j (r : Reply) (s : State) : (reply r s).j = s.j := rfl
@[simp] theorem reply_first (r : Reply) (s : State) : (reply r s).first = s.first := rfl
@[simp] theorem reply_scratch (r : Reply) (s : State) : (reply r s).scratch = s.scratch := rfl
@[simp] theorem reply_shifter (r : Reply) (s : State) : (reply r s).shifter = s.shifter := rfl
@[simp] theorem reply_staged (r : Reply) (s : State) : (reply r s).staged = s.staged := rfl
@[simp] theorem reply_request (r : Reply) (s : State) : (reply r s).request = s.request := rfl
@[simp] theorem reply_inReset (r : Reply) (s : State) : (reply r s).inReset = s.inReset := rfl
@[simp] theorem reply_epoch (r : Reply) (s : State) : (reply r s).epoch = s.epoch := rfl
@[simp] theorem reply_draws (r : Reply) (s : State) : (reply r s).draws = s.draws := rfl
@[simp] theorem reply_program (r : Reply) (s : State) : (reply r s).program = s.program := rfl
@[simp] theorem reply_schedule (r : Reply) (s : State) : (reply r s).schedule = s.schedule := rfl
@[simp] theorem reply_recurring (r : Reply) (s : State) : (reply r s).recurring = s.recurring := rfl
@[simp] theorem reply_replies (r : Reply) (s : State) : (reply r s).replies = s.replies ++ [r] := rfl
@[simp] theorem reply_requests (r : Reply) (s : State) : (reply r s).requests = s.requests := rfl

/-! ## releaseReset -/

@[simp] theorem releaseReset_busy (s : State) : (releaseReset s).busy = s.busy := rfl
@[simp] theorem releaseReset_done (s : State) : (releaseReset s).done = s.done := rfl
@[simp] theorem releaseReset_err (s : State) : (releaseReset s).err = s.err := rfl
@[simp] theorem releaseReset_matched (s : State) : (releaseReset s).matched = s.matched := rfl
@[simp] theorem releaseReset_lock (s : State) : (releaseReset s).lock = s.lock := rfl
@[simp] theorem releaseReset_ovr (s : State) : (releaseReset s).ovr = s.ovr := rfl
@[simp] theorem releaseReset_errCode (s : State) : (releaseReset s).errCode = s.errCode := rfl
@[simp] theorem releaseReset_digits (s : State) : (releaseReset s).digits = s.digits := rfl
@[simp] theorem releaseReset_alg (s : State) : (releaseReset s).alg = s.alg := rfl
@[simp] theorem releaseReset_strictLen (s : State) : (releaseReset s).strictLen = s.strictLen := rfl
@[simp] theorem releaseReset_tstep (s : State) : (releaseReset s).tstep = s.tstep := rfl
@[simp] theorem releaseReset_keyLen (s : State) : (releaseReset s).keyLen = s.keyLen := rfl
@[simp] theorem releaseReset_ctrLo (s : State) : (releaseReset s).ctrLo = s.ctrLo := rfl
@[simp] theorem releaseReset_ctrHi (s : State) : (releaseReset s).ctrHi = s.ctrHi := rfl
@[simp] theorem releaseReset_timeLo (s : State) : (releaseReset s).timeLo = s.timeLo := rfl
@[simp] theorem releaseReset_timeHi (s : State) : (releaseReset s).timeHi = s.timeHi := rfl
@[simp] theorem releaseReset_candLen (s : State) : (releaseReset s).candLen = s.candLen := rfl
@[simp] theorem releaseReset_srcLen (s : State) : (releaseReset s).srcLen = s.srcLen := rfl
@[simp] theorem releaseReset_dstLen (s : State) : (releaseReset s).dstLen = s.dstLen := rfl
@[simp] theorem releaseReset_otp (s : State) : (releaseReset s).otp = s.otp := rfl
@[simp] theorem releaseReset_binary (s : State) : (releaseReset s).binary = s.binary := rfl
@[simp] theorem releaseReset_offset (s : State) : (releaseReset s).offset = s.offset := rfl
@[simp] theorem releaseReset_mctrLo (s : State) : (releaseReset s).mctrLo = s.mctrLo := rfl
@[simp] theorem releaseReset_mctrHi (s : State) : (releaseReset s).mctrHi = s.mctrHi := rfl
@[simp] theorem releaseReset_tctrLo (s : State) : (releaseReset s).tctrLo = s.tctrLo := rfl
@[simp] theorem releaseReset_tctrHi (s : State) : (releaseReset s).tctrHi = s.tctrHi := rfl
@[simp] theorem releaseReset_remain (s : State) : (releaseReset s).remain = s.remain := rfl
@[simp] theorem releaseReset_irqEn (s : State) : (releaseReset s).irqEn = s.irqEn := rfl
@[simp] theorem releaseReset_errInfo (s : State) : (releaseReset s).errInfo = s.errInfo := rfl
@[simp] theorem releaseReset_mem (s : State) : (releaseReset s).mem = s.mem := rfl
@[simp] theorem releaseReset_phase (s : State) : (releaseReset s).phase = s.phase := rfl
@[simp] theorem releaseReset_cmd (s : State) : (releaseReset s).cmd = s.cmd := rfl
@[simp] theorem releaseReset_j (s : State) : (releaseReset s).j = s.j := rfl
@[simp] theorem releaseReset_first (s : State) : (releaseReset s).first = s.first := rfl
@[simp] theorem releaseReset_scratch (s : State) : (releaseReset s).scratch = s.scratch := rfl
@[simp] theorem releaseReset_shifter (s : State) : (releaseReset s).shifter = s.shifter := rfl
@[simp] theorem releaseReset_staged (s : State) : (releaseReset s).staged = s.staged := rfl
@[simp] theorem releaseReset_request (s : State) : (releaseReset s).request = s.request := rfl
@[simp] theorem releaseReset_inReset (s : State) : (releaseReset s).inReset = false := rfl
@[simp] theorem releaseReset_epoch (s : State) : (releaseReset s).epoch = s.epoch := rfl
@[simp] theorem releaseReset_draws (s : State) : (releaseReset s).draws = s.draws := rfl
@[simp] theorem releaseReset_program (s : State) : (releaseReset s).program = s.program := rfl
@[simp] theorem releaseReset_schedule (s : State) : (releaseReset s).schedule = s.schedule := rfl
@[simp] theorem releaseReset_recurring (s : State) : (releaseReset s).recurring = s.recurring := rfl
@[simp] theorem releaseReset_replies (s : State) : (releaseReset s).replies = s.replies := rfl
@[simp] theorem releaseReset_requests (s : State) : (releaseReset s).requests = s.requests := rfl

end Sys2Proof.Machine
end

