-- ==== Sys2Proof/Laws/Memory.lean ====
section
/-! SUPPORT. The buffers: every write keeps the canonical form, a read after a write gives what was written and leaves every
other byte alone. -/

namespace Sys2Proof.Machine

/-! ## The cells of a run of bytes -/

theorem mem_cell {a : Nat} {b : Byte} {c : Host.Cell} :
    c ∈ Memory.cell a b ↔ c = (a, b) ∧ (bufferAt a).isSome = true ∧ Memory.unlisted a ≠ some b := by
  unfold Memory.cell
  split <;> simp_all

theorem cells_key {c : Host.Cell} : ∀ {bs : List Byte} {a : Nat}, c ∈ Memory.cells a bs → a ≤ c.1 ∧ c.1 < a + bs.length
  | [], _, h => by simp [Memory.cells] at h
  | b :: bs, a, h => by
    simp only [Memory.cells, List.mem_append, mem_cell] at h
    rcases h with ⟨rfl, _⟩ | h
    · simp
    · have := cells_key h
      simp only [List.length_cons]
      omega

theorem cells_canonical {c : Host.Cell} : ∀ {bs : List Byte} {a : Nat}, c ∈ Memory.cells a bs →
    (bufferAt c.1).isSome = true ∧ Memory.unlisted c.1 ≠ some c.2
  | [], _, h => by simp [Memory.cells] at h
  | b :: bs, a, h => by
    simp only [Memory.cells, List.mem_append, mem_cell] at h
    rcases h with ⟨rfl, h⟩ | h
    · exact h
    · exact cells_canonical h

theorem cells_rising : ∀ (bs : List Byte) (a : Nat), (Memory.cells a bs).Pairwise (fun c d => c.1 < d.1)
  | [], _ => List.Pairwise.nil
  | b :: bs, a => by
    refine List.pairwise_append.2 ⟨?_, cells_rising bs (a + 1), ?_⟩
    · unfold Memory.cell
      split <;> simp
    · intro c hc d hd
      have h1 := (mem_cell.1 hc).1
      have h2 := cells_key hd
      subst h1
      exact Nat.lt_of_succ_le h2.1

theorem find_cells (x : Nat) : ∀ (bs : List Byte) (a : Nat),
    ((Memory.cells a bs).find? (fun c => c.1 == x)) =
      if a ≤ x ∧ x < a + bs.length ∧ (bufferAt x).isSome = true ∧ Memory.unlisted x ≠ bs[x - a]? then
        bs[x - a]?.map fun b => (x, b)
      else none
  | [], a => by
    have h : ¬ (a ≤ x ∧ x < a + ([] : List Byte).length) := by simp
    simp only [Memory.cells, List.find?_nil]
    rw [if_neg (fun hh => h ⟨hh.1, hh.2.1⟩)]
  | b :: bs, a => by
    rw [Memory.cells, List.find?_append, find_cells x bs (a + 1)]
    by_cases hx : x = a
    · subst hx
      unfold Memory.cell
      by_cases hb : (bufferAt x).isSome = true ∧ Memory.unlisted x ≠ some b
      · simp [hb]
      · have hn : ((bufferAt x).isSome && Memory.unlisted x != some b) = false := by
          simpa using hb
        have hlt : ¬ (x + 1 ≤ x) := by omega
        simp only [hn, Nat.sub_self, List.getElem?_cons_zero]
        simp [hlt, hb]
    · have hc : (Memory.cell a b).find? (fun c => c.1 == x) = none := by
        unfold Memory.cell
        split
        · simp [Ne.symm hx]
        · simp
      rw [hc]
      by_cases hle : a + 1 ≤ x
      · have he : x - a = (x - (a + 1)) + 1 := by omega
        simp only [he, List.getElem?_cons_succ, List.length_cons, Option.none_or]
        have h3 : (a ≤ x) := by omega
        have h4 : (x < a + (bs.length + 1)) ↔ (x < a + 1 + bs.length) := by omega
        simp [hle, h3, h4]
      · have h3 : ¬ a ≤ x := by omega
        simp [hle, h3]

/-! ## Write and read -/

theorem Memory.wf_nil : Memory.wf [] := by simp [Memory.wf]

theorem Memory.wf_write {m : Memory} (h : Memory.wf m) (a : Nat) (bs : List Byte) : Memory.wf (m.write a bs) := by
  obtain ⟨hp, hc⟩ := h
  refine ⟨?_, ?_⟩
  · refine List.pairwise_append.2 ⟨List.pairwise_append.2 ⟨hp.filter _, cells_rising bs a, ?_⟩, hp.filter _, ?_⟩
    · intro c h1 d h2
      have := cells_key h2
      simp at h1
      omega
    · intro c h1 d h2
      simp only [List.mem_append, List.mem_filter, decide_eq_true_eq] at h1 h2
      rcases h1 with h1 | h1
      · omega
      · have := cells_key h1
        omega
  · intro c h
    simp only [Memory.write, List.mem_append, List.mem_filter] at h
    rcases h with (h | h) | h
    · exact hc c h.1
    · exact cells_canonical h
    · exact hc c h.1

theorem find_filter_key (x : Nat) (p : Nat → Bool) (m : Memory) :
    (m.filter (fun c => p c.1)).find? (fun c => c.1 == x) = if p x then m.find? (fun c => c.1 == x) else none := by
  rw [List.find?_filter]
  by_cases hp : p x = true
  · rw [if_pos hp]
    congr 1
    funext c
    by_cases hx : c.1 = x
    · simp [hx, hp]
    · simp [hx]
  · rw [if_neg hp]
    refine List.find?_eq_none.2 fun c _ => ?_
    by_cases hx : c.1 = x
    · simp [hx, hp]
    · simp [hx]

/-- What a write does to a read, all of it: inside the run the byte written (outside the buffers there is none, and the read
is what an unlisted offset gives), elsewhere the read as before. -/
theorem Memory.read_write (m : Memory) (a : Nat) (bs : List Byte) (x : Nat) :
    (m.write a bs).read x =
      if a ≤ x ∧ x < a + bs.length then
        (if (bufferAt x).isSome = true then bs[x - a]? else Memory.unlisted x)
      else m.read x := by
  unfold Memory.read Memory.write
  rw [List.find?_append, List.find?_append, find_cells,
    find_filter_key x (fun k => decide (k < a)), find_filter_key x (fun k => decide (a + bs.length ≤ k))]
  by_cases h1 : x < a
  · have h2 : ¬ a ≤ x := by omega
    have h3 : ¬ a + bs.length ≤ x := by omega
    simp [h1, h2, h3]
  · have h2 : a ≤ x := by omega
    by_cases h4 : a + bs.length ≤ x
    · have h5 : ¬ x < a + bs.length := by omega
      simp [h1, h2, h4, h5]
    · have h5 : x < a + bs.length := by omega
      have h6 : x - a < bs.length := by omega
      simp only [h1, h2, h4, h5, true_and, and_true, if_true, decide_false, Bool.false_eq_true, if_false,
        Option.none_or, Option.or_none]
      by_cases hb : (bufferAt x).isSome = true
      · by_cases hu : Memory.unlisted x = bs[x - a]?
        · simp [hb, hu]
        · rw [List.getElem?_eq_getElem h6] at hu ⊢
          simp [hb, hu]
      · simp [hb]

theorem Memory.read_write_outside {m : Memory} {a x : Nat} {bs : List Byte} (h : x < a ∨ a + bs.length ≤ x) :
    (m.write a bs).read x = m.read x := by
  rw [Memory.read_write, if_neg (by omega)]

theorem Memory.read_write_inside {m : Memory} {a x : Nat} {bs : List Byte} (h1 : a ≤ x) (h2 : x < a + bs.length)
    (hb : (bufferAt x).isSome = true) : (m.write a bs).read x = bs[x - a]? := by
  rw [Memory.read_write, if_pos ⟨h1, h2⟩, if_pos hb]

/-! ## The state's bytes -/

theorem byteAt_writeBytes_outside {a x : Nat} {bs : List Byte} {s : State} (h : x < a ∨ a + bs.length ≤ x) :
    byteAt (writeBytes a bs s) x = byteAt s x := by
  simp only [byteAt, writeBytes, Memory.read_write_outside h]

theorem byteAt_writeBytes_inside {a x : Nat} {bs : List Byte} {s : State} (h1 : a ≤ x) (h2 : x < a + bs.length)
    (hb : (bufferAt x).isSome = true) : byteAt (writeBytes a bs s) x = bs.getD (x - a) 0#8 := by
  have h3 : x - a < bs.length := by omega
  simp [byteAt, writeBytes, Memory.read_write_inside h1 h2 hb, List.getElem?_eq_getElem h3]

/-- A byte depends on the memory and on the reset count alone. -/
theorem byteAt_congr {s t : State} (hm : s.mem = t.mem) (he : s.epoch = t.epoch) (a : Nat) : byteAt s a = byteAt t a := by
  simp only [byteAt, hm, he]

@[simp] theorem bytesOf_length (s : State) (b : Buffer) (n : Nat) : (bytesOf s b n).length = n := by simp [bytesOf]

theorem bytesOf_congr {s t : State} (hm : s.mem = t.mem) (he : s.epoch = t.epoch) (b : Buffer) (n : Nat) :
    bytesOf s b n = bytesOf t b n := by
  simp only [bytesOf, byteAt, hm, he]

theorem bytesOf_getD (s : State) (b : Buffer) {n k : Nat} (h : k < n) :
    (bytesOf s b n).getD k 0#8 = byteAt s (b.base + k) := by
  simp [bytesOf, h]

/-- Where a buffer lies. -/
theorem bufferAt_base (b : Buffer) {k : Nat} (h : k < b.size) : bufferAt (b.base + k) = some b := by
  cases b <;> simp only [Buffer.size] at h <;>
    simp [bufferAt, Buffer.holds, Buffer.base, Buffer.size, List.find?_cons] <;> grind

end Sys2Proof.Machine
end

