-- ==== Sys2Proof/Laws/Ops.lean ====
section
/-! SUPPORT. What the life-cycle operations do: commit, the error completion, the HMAC port, and the jobs' parts. -/

namespace Sys2Proof.Machine

/-! ## Staged writes -/

/-- A field no staged write names keeps its value through all of them. -/
theorem foldl_applyPending_frame {α : Type} (f : State → α) (h : ∀ s p, f (applyPending s p) = f s) (ws : List Pending)
    (s : State) : f (ws.foldl applyPending s) = f s := by
  induction ws generalizing s with
  | nil => rfl
  | cons p ws ih => exact (ih _).trans (h s p)

theorem applyPending_epoch (s : State) (p : Pending) : (applyPending s p).epoch = s.epoch := by cases p <;> rfl

theorem applyPending_request (s : State) (p : Pending) : (applyPending s p).request = s.request := by cases p <;> rfl

/-- Applying staged writes keeps the buffers' canonical form. -/
theorem wf_applyPending {s : State} (h : Memory.wf s.mem) (p : Pending) : Memory.wf (applyPending s p).mem := by
  cases p with
  | bytes a bs => exact Memory.wf_write h a bs
  | _ => exact h

theorem wf_foldl_applyPending {s : State} (h : Memory.wf s.mem) (ws : List Pending) :
    Memory.wf (ws.foldl applyPending s).mem := by
  induction ws generalizing s with
  | nil => exact h
  | cons p ws ih => exact ih (wf_applyPending h p)

/-! ## The completions -/

/-- A commit is the staged writes, then what every successful completion writes (R96). -/
theorem commit_eq_completed (ws : List Pending) (s : State) : commit ws s = (ws.foldl applyPending s).completed := rfl

/-- An error completion writes what R98 names. -/
theorem raise_eq_failed (e : ErrCode) (info : Word) (s : State) : raise e info s = s.failed e info := rfl

/-- The host's acknowledgement clears ERR and ERRCODE and nothing else (R158). -/
theorem acknowledge_eq (s : State) : acknowledge s = { s with err := false, errCode := 0#4 } := by
  simp [acknowledge, writeStatus]

theorem ErrCode.code_ne_zero (e : ErrCode) : e.code ≠ 0#4 := by cases e <;> decide

theorem ErrCode.code_le_seven (e : ErrCode) : e.code.toNat ≤ 7 := by cases e <;> decide

/-! ## The HMAC port -/

/-- A digest that passes has the algorithm's length (R74). -/
theorem hmacAnswer_length {r : HmacReq} {d : List Byte} (h : hmacAnswer r = some d) : d.length = digestLen r.alg := by
  unfold hmacAnswer at h
  split at h
  · split at h <;> simp_all
  · simp at h

theorem sendRequest_of_none {s : State} (h : s.request = none) (r : HmacReq) :
    sendRequest r s = { s with phase := .waitHmac, request := some r, requests := s.requests ++ [r] } := by
  simp [sendRequest, h]

theorem sendRequest_of_some {s : State} {q : HmacReq} (h : s.request = some q) (r : HmacReq) : sendRequest r s = s := by
  simp [sendRequest, h]

/-! ## The engine instance -/

/-- ALG = 3 is the one value with no hash (R26). -/
theorem hashAlg_isSome {a : BitVec 2} (h : a ≠ 3#2) : ∃ k, hashAlg a = some k := by
  have key : ∀ a : BitVec 2, a ≠ 3#2 → (hashAlg a).isSome = true := by decide
  exact Option.isSome_iff_exists.1 (key a h)

/-- What CFG's acceptance says of the fields (R148). -/
theorem configFault_none {s : State} (h : configFault s = none) :
    1 ≤ s.digits.toNat ∧ s.digits.toNat ≤ 10 ∧ s.alg ≠ 3#2 ∧ 1 ≤ s.tstep.toNat ∧ s.keyLen.toNat ≤ 128 := by
  simp only [configFault, Config.maxDigits, Config.maxKeyLen] at h
  by_cases h1 : s.digits = 0#4 ∨ 10 < s.digits.toNat
  · simp [h1] at h
  by_cases h2 : s.alg = 3#2
  · simp [h1, h2] at h
  by_cases h3 : s.tstep = 0#32
  · simp [h1, h2, h3] at h
  by_cases h4 : 128 < s.keyLen.toNat
  · simp [h1, h2, h3, h4] at h
  have h5 : s.digits.toNat ≠ 0 := fun hh => h1 (Or.inl (BitVec.eq_of_toNat_eq hh))
  have h6 : s.tstep.toNat ≠ 0 := fun hh => h3 (BitVec.eq_of_toNat_eq hh)
  refine ⟨by omega, by omega, h2, by omega, by omega⟩

/-- A configuration that CFG accepts gives an engine instance, its fields the configuration's. -/
theorem engineOf_of_configFault {s : State} (h : configFault s = none) :
    ∃ k, hashAlg s.alg = some k ∧ engineOf s = some {
      digits := s.digits.toNat, alg := k, strict := s.strictLen, tstep := s.tstep.toNat,
      key := bytesOf s .key s.keyLen.toNat } := by
  obtain ⟨k, hk⟩ := hashAlg_isSome (configFault_none h).2.2.1
  exact ⟨k, hk, by simp [engineOf, h, hk]⟩

/-- An engine instance is one of a configuration that CFG accepts. -/
theorem engineOf_some {s : State} {e : Engine} (h : engineOf s = some e) :
    configFault s = none ∧ hashAlg s.alg = some e.alg ∧ e.digits = s.digits.toNat ∧ e.strict = s.strictLen ∧
      e.tstep = s.tstep.toNat ∧ e.key = bytesOf s .key s.keyLen.toNat := by
  unfold engineOf at h
  split at h
  · rename_i h1 h2
    simp only [Option.some.injEq] at h
    subst h
    exact ⟨h1, h2, rfl, rfl, rfl, rfl⟩
  · simp at h

/-- The lock requirement, its three ends (R154). -/
theorem withEngine_cases (s : State) (k : Engine → Job) :
    (s.lock = false ∧ withEngine s k = .fail .notConfigured 0#32) ∨
      (s.lock = true ∧ ∃ e, engineOf s = some e ∧ withEngine s k = k e) ∨
      (s.lock = true ∧ configFault s ≠ none ∧ withEngine s k = .unreachable) := by
  cases hl : s.lock with
  | false => exact .inl ⟨rfl, by simp [withEngine, hl]⟩
  | true =>
    cases he : engineOf s with
    | some e => exact .inr (.inl ⟨rfl, e, rfl, by simp [withEngine, hl, he]⟩)
    | none =>
      refine .inr (.inr ⟨rfl, fun hc => ?_, by simp [withEngine, hl, he]⟩)
      obtain ⟨k, _, h⟩ := engineOf_of_configFault hc
      simp [h] at he

end Sys2Proof.Machine
end

