-- ==== Sys2Proof/Laws/Engine.lean ====
section
/-! SUPPORT. What a job does: `exec` is the job of the command, run to its completion; the kinds of its end; the validator's
recursion and the Base32 shifter's steps. -/

namespace Sys2Proof.Machine

/-- The meaning of a command is its job, run to the completion. -/
theorem exec_eq_runJob (i : Instr) (s : State) : exec i s = runJob (jobOf i s) s := by cases i <;> rfl

/-- A completed state: BUSY = 0, DONE = 1, idle, nothing outstanding or staged. -/
def Completed (t : State) : Prop := t.busy = false ∧ t.done = true ∧ t.phase = .idle ∧ t.request = none ∧ t.staged = []

theorem completed_commit (ws : List Pending) (s : State) : Completed (commit ws s) := ⟨rfl, rfl, rfl, rfl, rfl⟩

theorem completed_raise (e : ErrCode) (info : Word) (s : State) : Completed (raise e info s) := ⟨rfl, rfl, rfl, rfl, rfl⟩

theorem completed_runGenerate (e : Engine) (c : DWord) (pre : List Pending) (s : State) :
    Completed (runGenerate e c pre s) := by
  unfold runGenerate
  dsimp only
  split
  · split
    · exact completed_raise ..
    · exact completed_commit ..
  · exact completed_commit ..

theorem completed_runPasses (e : Engine) (t : List Byte) (pre : List Pending) (ps : List (Option DWord)) (s : State) :
    Completed (runPasses e t pre ps s) := by
  induction ps generalizing s with
  | nil => exact completed_commit ..
  | cons p ps ih =>
    cases p with
    | none => exact ih _
    | some c =>
      simp only [runPasses]
      split
      · exact completed_raise ..
      · exact ih _

/-- Every job but the unreachable one ends in a completed state, and that one in its fault. -/
theorem runJob_cases (k : Job) (s : State) :
    (∃ t, runJob k s = .next t ∧ Completed t) ∨ (k = .unreachable ∧ runJob k s = .fault .illegalConfigUnderLock) := by
  cases k with
  | fail e i => exact .inl ⟨_, rfl, completed_raise ..⟩
  | write ws => exact .inl ⟨_, rfl, completed_commit ..⟩
  | encode src => exact .inl ⟨_, rfl, completed_commit ..⟩
  | decode src d => exact .inl ⟨_, rfl, completed_commit ..⟩
  | generate e c pre => exact .inl ⟨_, rfl, completed_runGenerate ..⟩
  | validate e t ps pre => exact .inl ⟨_, rfl, completed_runPasses ..⟩
  | unreachable => exact .inr ⟨rfl, rfl⟩

/-! ## The shifter -/

/-- After a source byte the encode shifter holds at most 4 bits (R103). -/
theorem encodeByte_range (sh : Shifter) (b : Byte) :
    (encodeByte sh b).nbits ≤ 4 ∧ (encodeByte sh b).acc < 2 ^ (encodeByte sh b).nbits := by
  have h : (sh.nbits + 8) % 5 < 5 := Nat.mod_lt _ (by decide)
  refine ⟨by simp only [encodeByte]; omega, ?_⟩
  simp only [encodeByte, Nat.one_shiftLeft, Nat.and_two_pow_sub_one_eq_mod]
  exact Nat.mod_lt _ (Nat.two_pow_pos _)

/-- A source character adds 5 bits to the decode shifter and takes 8 away once 8 are there (R109). -/
theorem decodeChar_range (sh : Shifter) (c : Byte) :
    (decodeChar sh c).nbits = (if 8 ≤ sh.nbits + 5 then sh.nbits + 5 - 8 else sh.nbits + 5) ∧
      (decodeChar sh c).acc < 2 ^ (decodeChar sh c).nbits := by
  unfold decodeChar
  dsimp only
  split <;> refine ⟨rfl, ?_⟩ <;> simp only [Nat.one_shiftLeft, Nat.and_two_pow_sub_one_eq_mod] <;>
    exact Nat.mod_lt _ (Nat.two_pow_pos _)

@[simp] theorem encodeByte_pos (sh : Shifter) (b : Byte) : (encodeByte sh b).pos = sh.pos + 1 := rfl

@[simp] theorem decodeChar_pos (sh : Shifter) (c : Byte) : (decodeChar sh c).pos = sh.pos + 1 := by
  unfold decodeChar
  dsimp only
  split <;> rfl

end Sys2Proof.Machine
end

