-- ==== Sys2Proof/Laws/PerInstr.lean ====
section
/-! SUPPORT. The family `Encoding`: what every field of a command's word holds (30_encoding.md R78 to R80), one lemma per
constructor of `Instr`. -/

namespace Sys2Proof.Laws.Encoding

/-- A command's OPC value and its W, 0 for form N (R79, R82). -/
def fields : Instr → Nat × Nat
  | .nop => (0x00, 0)
  | .cfg => (0x01, 0)
  | .clear => (0x02, 0)
  | .b32Enc => (0x10, 0)
  | .b32Dec => (0x11, 0)
  | .b32Deck => (0x12, 0)
  | .trunc => (0x20, 0)
  | .hotpGen => (0x21, 0)
  | .hotpVal w => (0x22, w)
  | .totpGen => (0x30, 0)
  | .totpVer w => (0x31, w)
  | .totpRem => (0x32, 0)

/-- The word of a well-formed command holds OPC in bits 7:0, W in bits 15:8 and 0 in bits 31:16 (R78). -/
def Statement (i : Instr) : Prop :=
  i.wellFormed = true →
    ((encode i).extractLsb' 0 8).toNat = (fields i).1 ∧ ((encode i).extractLsb' 8 8).toNat = (fields i).2 ∧
      (encode i).extractLsb' 16 16 = 0#16

/-- The word of form W as a number: `opc + W * 0x100` (R88). -/
theorem formW_toNat (opc : Byte) (w : Nat) (h : w ≤ 255) : (formW opc w).toNat = opc.toNat + w * 0x100 := by
  have hw : (BitVec.ofNat 8 w).toNat = w := by rw [BitVec.toNat_ofNat]; omega
  have e : (0#16 ++ BitVec.ofNat 8 w).toNat = w := by
    rw [BitVec.toNat_append, hw]; simp
  have e' : (formW opc w).toNat = w <<< 8 ||| opc.toNat := by
    show ((0#16 ++ BitVec.ofNat 8 w) ++ opc).toNat = _
    rw [BitVec.toNat_append, e]
  rw [e', ← Nat.shiftLeft_add_eq_or_of_lt opc.isLt, Nat.shiftLeft_eq]
  omega

/-- The fields of a word of form W (R80). -/
theorem formW_fields (opc : Byte) (w : Nat) (h : w ≤ 255) :
    ((formW opc w).extractLsb' 0 8).toNat = opc.toNat ∧ ((formW opc w).extractLsb' 8 8).toNat = w ∧
      (formW opc w).extractLsb' 16 16 = 0#16 := by
  have hb := opc.isLt
  refine ⟨?_, ?_, ?_⟩
  · rw [BitVec.extractLsb'_toNat, formW_toNat opc w h, Nat.shiftRight_zero]; omega
  · rw [BitVec.extractLsb'_toNat, formW_toNat opc w h, Nat.shiftRight_eq_div_pow]; omega
  · apply BitVec.eq_of_toNat_eq
    rw [BitVec.extractLsb'_toNat, formW_toNat opc w h, Nat.shiftRight_eq_div_pow, BitVec.toNat_ofNat]; omega

theorem nop : Statement .nop := fun _ => by decide
theorem cfg : Statement .cfg := fun _ => by decide
theorem clear : Statement .clear := fun _ => by decide
theorem b32Enc : Statement .b32Enc := fun _ => by decide
theorem b32Dec : Statement .b32Dec := fun _ => by decide
theorem b32Deck : Statement .b32Deck := fun _ => by decide
theorem trunc : Statement .trunc := fun _ => by decide
theorem hotpGen : Statement .hotpGen := fun _ => by decide
theorem hotpVal (w : Nat) : Statement (.hotpVal w) := fun h => formW_fields 0x22#8 w (of_decide_eq_true h)
theorem totpGen : Statement .totpGen := fun _ => by decide
theorem totpVer (w : Nat) : Statement (.totpVer w) := fun h => formW_fields 0x31#8 w (of_decide_eq_true h)
theorem totpRem : Statement .totpRem := fun _ => by decide

end Sys2Proof.Laws.Encoding
end

