-- ==== Sys2Proof/Laws/Sequencer.lean ====
section
/-! SUPPORT. What a running command depends on: its operands, and not the rest of the state (30_encoding.md R95; 10_state.md
R51); and what the loops keep. -/

namespace Sys2Proof.Machine

/-! ## The operands -/

/-- Everything a command reads (R81), with what the buffers' bytes depend on. -/
def operandsOf (s : State) :=
  (s.lock, s.digits, s.alg, s.strictLen, s.tstep, s.keyLen, s.ctrLo, s.ctrHi, s.timeLo, s.timeHi, s.candLen, s.srcLen,
    s.mem, s.epoch)

theorem configFault_congr {s t : State} (h1 : t.digits = s.digits) (h2 : t.alg = s.alg) (h3 : t.tstep = s.tstep)
    (h4 : t.keyLen = s.keyLen) : configFault t = configFault s := by
  simp [configFault, h1, h2, h3, h4]

/-- A command's job is a function of its operands. -/
theorem jobOf_congr (i : Instr) {s t : State} (h : operandsOf t = operandsOf s) : jobOf i t = jobOf i s := by
  simp only [operandsOf, Prod.mk.injEq] at h
  obtain ⟨h1, h2, h3, h4, h5, h6, h7, h8, h9, h10, h11, h12, h13, h14⟩ := h
  have hb : ∀ b n, bytesOf t b n = bytesOf s b n := fun b n => bytesOf_congr h13 h14 b n
  have hc : configFault t = configFault s := configFault_congr h2 h3 h5 h6
  have he : engineOf t = engineOf s := by unfold engineOf; rw [hc, h3, h2, h4, h5, h6, hb]
  have hsrc : sourceOf t = sourceOf s := by unfold sourceOf; rw [hb, h12]
  have hctr : ctr t = ctr s := by unfold ctr; rw [h7, h8]
  have hsec : seconds t = seconds s := by unfold seconds time; rw [h9, h10]
  have htot : ∀ e, totpCounter e t = totpCounter e s := fun e => by unfold totpCounter; rw [hsec]
  have hwe : ∀ k, withEngine t k = withEngine s k := fun k => by unfold withEngine; rw [h1, he]
  have hwc : ∀ k, withCandidate t k = withCandidate s k := fun k => by unfold withCandidate; rw [h11, hb]
  cases i <;> simp only [jobOf, jobNop, jobCfg, jobClear, jobB32Enc, jobB32Dec, jobB32Deck, jobTrunc, jobHotpGen,
    jobHotpVal, jobTotpGen, jobTotpVer, jobTotpRem, hwe, hwc, h1, hc, hsrc, h12, hb, hctr, htot, tctrWrite, remaining, hsec]

/-- The request a command waits for depends on its operands, on what is staged and on the pass index. -/
theorem expects_congr (i : Instr) {s t : State} (h : operandsOf t = operandsOf s) (h1 : t.staged = s.staged)
    (h2 : t.j = s.j) : (jobOf i t).expects t = (jobOf i s).expects s := by
  rw [jobOf_congr i h]
  cases jobOf i s <;> simp [Job.expects, h1, h2]

/-! ## The loops -/

/-- A pass whose request fails ends the validation (R129). -/
theorem runPasses_fail {e : Engine} {t : List Byte} {pre : List Pending} {c : DWord} {ps : List (Option DWord)} {s : State}
    (hr : s.request = none) (ha : hmacAnswer (passRequest e c) = none) :
    runPasses e t pre (some c :: ps) s =
      hmacFailed { s with
        phase := .waitHmac, request := some (passRequest e c), requests := s.requests ++ [passRequest e c] } := by
  simp only [runPasses, sendRequest_of_none hr, Option.bind_some, ha]

/-- A pass whose request is answered takes the digest and goes on (R129). -/
theorem runPasses_some {e : Engine} {t : List Byte} {pre : List Pending} {c : DWord} {ps : List (Option DWord)} {s : State}
    {d : List Byte} (hr : s.request = none) (ha : hmacAnswer (passRequest e c) = some d) :
    runPasses e t pre (some c :: ps) s =
      runPasses e t pre ps { s with
        phase := .run, request := none, requests := s.requests ++ [passRequest e c], scratch := d
        first := latch e t c d s.first, j := s.j + 1 } := by
  simp only [runPasses, sendRequest_of_none hr, Option.bind_some, ha]
  rfl

/-- A SKIP pass makes no request (R129). -/
theorem runPasses_skip {e : Engine} {t : List Byte} {pre : List Pending} {ps : List (Option DWord)} {s : State} :
    runPasses e t pre (none :: ps) s = runPasses e t pre ps { s with j := s.j + 1 } := rfl

/-- The encode shifter stays in its range through the source (R50). -/
theorem foldl_encodeByte_range (src : List Byte) (sh : Shifter) (h : sh.acc < 2 ^ 12 ∧ sh.nbits ≤ 12) :
    (src.foldl encodeByte sh).acc < 2 ^ 12 ∧ (src.foldl encodeByte sh).nbits ≤ 12 := by
  induction src generalizing sh with
  | nil => exact h
  | cons b src ih =>
    obtain ⟨a, c⟩ := encodeByte_range sh b
    exact ih _ ⟨lt_of_lt_of_le c (Nat.pow_le_pow_right (by decide) (by omega)), by omega⟩

/-- The decode shifter stays in its range through the source (R50). -/
theorem foldl_decodeChar_range (src : List Byte) (sh : Shifter) (h : sh.acc < 2 ^ 12 ∧ sh.nbits ≤ 12) :
    (src.foldl decodeChar sh).acc < 2 ^ 12 ∧ (src.foldl decodeChar sh).nbits ≤ 12 := by
  induction src generalizing sh with
  | nil => exact h
  | cons c src ih =>
    obtain ⟨a, b⟩ := decodeChar_range sh c
    have hn : (decodeChar sh c).nbits ≤ 12 := by rw [a]; split <;> omega
    exact ih _ ⟨lt_of_lt_of_le b (Nat.pow_le_pow_right (by decide) hn), hn⟩

/-- Stripping the padding leaves no more characters than there were (R107). -/
theorem stripPadding_length (src : List Byte) : (stripPadding src).length ≤ src.length := by
  simp only [stripPadding, List.length_reverse]
  exact (List.length_dropWhile_le _ _).trans (by simp)

theorem decString_length (d v : Nat) : (decString d v).length = d := by simp [decString]

end Sys2Proof.Machine
end

