-- ==== Sys2Proof/Laws/Turns.lean ====
section
/-! SUPPORT. Which turn a step takes. -/

namespace Sys2Proof.Machine

theorem upcoming_of_schedule {s : State} {t : Turn} {ts : List Turn} (h : s.schedule = t :: ts) : upcoming s = t :: ts := by
  unfold upcoming
  rw [h]

theorem upcoming_of_recurring {s : State} (h : s.schedule = []) : upcoming s = s.recurring := by
  unfold upcoming
  rw [h]

/-- The turns to come start with `t` exactly when the schedule does, or it is used up and the recurring turns do. -/
theorem upcoming_eq_cons {s : State} {t : Turn} {ts : List Turn} :
    upcoming s = t :: ts ↔ s.schedule = t :: ts ∨ (s.schedule = [] ∧ s.recurring = t :: ts) := by
  unfold upcoming
  cases h : s.schedule <;> simp

/-- A step takes the first turn to come. -/
theorem step_of_upcoming {s : State} {t : Turn} {ts : List Turn} (h : upcoming s = t :: ts) :
    step s = takeTurn t { s with schedule := ts } := by
  simp only [step, nextTurn, h]

/-- With no turn to come a step takes the default turn. -/
theorem step_of_upcoming_nil {s : State} (h : upcoming s = []) : step s = takeTurn (defaultTurn s) s := by
  simp only [step, nextTurn, h]

/-- A step with `t` put first on the schedule takes `t`. -/
theorem step_cons (s : State) (t : Turn) (ts : List Turn) :
    step { s with schedule := t :: ts } = takeTurn t { s with schedule := ts } := rfl

/-- What a step can be: one turn, on the state with a schedule of its own. -/
theorem step_cases (s : State) : ∃ t ts, step s = takeTurn t { s with schedule := ts } := by
  cases h : upcoming s with
  | nil =>
    refine ⟨defaultTurn s, s.schedule, ?_⟩
    exact step_of_upcoming_nil h
  | cons t ts => exact ⟨t, ts, step_of_upcoming h⟩

end Sys2Proof.Machine
end

