-- ==== Sys2Proof/Laws/Window.lean ====
section
/-! SUPPORT. The window's words as numbers, and where an offset lies: `readLoc` at `locate a` is `windowWord`. -/

namespace Sys2Proof.Machine

/-- STATUS as a number (R23). -/
theorem statusWord_eq_ofNat (s : State) :
    statusWord s = BitVec.ofNat 32 (s.busy.toNat + 2 * s.done.toNat + 4 * s.err.toNat + 8 * s.matched.toNat +
      16 * s.lock.toNat + 32 * s.ovr.toNat + 256 * s.errCode.toNat) := by
  unfold statusWord
  generalize s.errCode = c
  cases s.busy <;> cases s.done <;> cases s.err <;> cases s.matched <;> cases s.lock <;> cases s.ovr <;> revert c <;>
    decide

/-- CONFIG as a number (R26). -/
theorem configWord_eq_ofNat (s : State) :
    configWord s = BitVec.ofNat 32 (s.digits.toNat + 16 * s.alg.toNat + 256 * s.strictLen.toNat) := by
  unfold configWord
  generalize s.digits = d
  generalize s.alg = a
  cases s.strictLen <;> revert d a <;> decide

/-- A buffer word as a number, its lowest offset in the low byte (R57). -/
theorem wordAt_eq_ofNat (s : State) (a : Nat) :
    wordAt s a = BitVec.ofNat 32 ((byteAt s a).toNat + 2 ^ 8 * (byteAt s (a + 1)).toNat +
      2 ^ 16 * (byteAt s (a + 2)).toNat + 2 ^ 24 * (byteAt s (a + 3)).toNat) := by
  have h0 := (byteAt s a).isLt
  have h1 := (byteAt s (a + 1)).isLt
  have h2 := (byteAt s (a + 2)).isLt
  have h3 := (byteAt s (a + 3)).isLt
  apply BitVec.eq_of_toNat_eq
  simp only [wordAt, BitVec.toNat_append, BitVec.toNat_ofNat]
  rw [← Nat.shiftLeft_add_eq_or_of_lt h0, ← Nat.shiftLeft_add_eq_or_of_lt h1, ← Nat.shiftLeft_add_eq_or_of_lt h2]
  simp only [Nat.shiftLeft_eq]
  omega

theorem setWidth_eq_ofNat {w : Nat} (v : BitVec w) : v.setWidth 32 = BitVec.ofNat 32 v.toNat := by
  apply BitVec.eq_of_toNat_eq
  simp [BitVec.toNat_setWidth]

/-- The map holds no register at or above 0x05C (R19). -/
theorem registerMap_lookup_none {n : Nat} (h : 0x05C ≤ n) : registerMap.lookup n = none := by
  simp only [registerMap, List.lookup]
  repeat rw [show (n == _) = false from by simp; omega]

theorem locate_above {n : Nat} (h : 0x05C ≤ n) :
    locate n = match bufferAt n with | some b => .buf b n | none => .reserved := by
  exact congrArg (fun o => match o with
    | some l => l
    | none => match bufferAt n with
      | some b => Loc.buf b n
      | none => .reserved) (registerMap_lookup_none h)

/-- Which buffer an offset lies in (R19): one, with its range, or none. -/
theorem bufferAt_cases (n : Nat) :
    (inRun 0x060 16 n ∧ bufferAt n = some .code) ∨ (inRun 0x070 16 n ∧ bufferAt n = some .cand) ∨
    (inRun 0x080 64 n ∧ bufferAt n = some .digest) ∨ (inRun 0x100 128 n ∧ bufferAt n = some .key) ∨
    (inRun 0x200 256 n ∧ bufferAt n = some .bufA) ∨ (inRun 0x300 256 n ∧ bufferAt n = some .bufB) ∨
    ((n < 0x060 ∨ inRun 0x0C0 0x40 n ∨ inRun 0x180 0x80 n ∨ 0x400 ≤ n) ∧ bufferAt n = none) := by
  have hh : ∀ (b : Buffer) (lo k : Nat), b.base = lo → b.size = k → b.holds n = decide (inRun lo k n) := by
    rintro b _ _ rfl rfl
    exact (Bool.decide_and _ _).symm
  simp only [bufferAt, List.find?_cons, List.find?_nil, hh .code 0x060 16 rfl rfl, hh .cand 0x070 16 rfl rfl,
    hh .digest 0x080 64 rfl rfl, hh .key 0x100 128 rfl rfl, hh .bufA 0x200 256 rfl rfl, hh .bufB 0x300 256 rfl rfl]
  by_cases h1 : inRun 0x060 16 n
  · rw [decide_eq_true h1]; exact .inl ⟨h1, rfl⟩
  by_cases h2 : inRun 0x070 16 n
  · rw [decide_eq_false h1, decide_eq_true h2]; exact .inr (.inl ⟨h2, rfl⟩)
  by_cases h3 : inRun 0x080 64 n
  · rw [decide_eq_false h1, decide_eq_false h2, decide_eq_true h3]; exact .inr (.inr (.inl ⟨h3, rfl⟩))
  by_cases h4 : inRun 0x100 128 n
  · rw [decide_eq_false h1, decide_eq_false h2, decide_eq_false h3, decide_eq_true h4]
    exact .inr (.inr (.inr (.inl ⟨h4, rfl⟩)))
  by_cases h5 : inRun 0x200 256 n
  · rw [decide_eq_false h1, decide_eq_false h2, decide_eq_false h3, decide_eq_false h4, decide_eq_true h5]
    exact .inr (.inr (.inr (.inr (.inl ⟨h5, rfl⟩))))
  by_cases h6 : inRun 0x300 256 n
  · rw [decide_eq_false h1, decide_eq_false h2, decide_eq_false h3, decide_eq_false h4, decide_eq_false h5,
      decide_eq_true h6]
    exact .inr (.inr (.inr (.inr (.inr (.inl ⟨h6, rfl⟩)))))
  · rw [decide_eq_false h1, decide_eq_false h2, decide_eq_false h3, decide_eq_false h4, decide_eq_false h5,
      decide_eq_false h6]
    exact .inr (.inr (.inr (.inr (.inr (.inr ⟨by omega, rfl⟩)))))

/-- The register map as `windowWord` writes it out: at a word-aligned offset both give the same word (R19 to R48). -/
theorem readLoc_locate (s : State) (a : BitVec 12) (h : a.toNat % 4 = 0) : readLoc s (locate a.toNat) = windowWord s a := by
  unfold windowWord
  generalize a.toNat = n at h
  by_cases h1 : n < 0x05C
  · obtain ⟨k, rfl⟩ : ∃ k, n = 4 * k := ⟨n / 4, by omega⟩
    have : k < 23 := by omega
    interval_cases k <;> first
      | rfl
      | exact statusWord_eq_ofNat s
      | exact configWord_eq_ofNat s
      | exact setWidth_eq_ofNat _
      | (show (BitVec.ofBool s.irqEn).setWidth 32 = BitVec.ofNat 32 s.irqEn.toNat; cases s.irqEn <;> rfl)
  · rw [locate_above (by omega)]
    simp only [List.lookup]
    repeat rw [show (n == _) = false from by simp; omega]
    dsimp only
    have hw := wordAt_eq_ofNat s n
    rcases bufferAt_cases n with ⟨hr, hb⟩ | ⟨hr, hb⟩ | ⟨hr, hb⟩ | ⟨hr, hb⟩ | ⟨hr, hb⟩ | ⟨hr, hb⟩ | ⟨hr, hb⟩ <;> rw [hb]
    · rw [if_pos (by omega)]; exact hw
    · rw [if_pos (by omega)]; exact hw
    · rw [if_pos (by omega)]; exact hw
    · rw [if_neg (by omega)]; rfl
    · rw [if_pos (by omega)]; exact hw
    · rw [if_pos (by omega)]; exact hw
    · rw [if_neg (by omega)]; rfl

/-- A word access at a word-aligned offset is admitted (R56). -/
theorem admitted_of_aligned {a : BitVec 12} (h : a.toNat % 4 = 0) : admitted .word a = true := by
  simp only [admitted, Bool.and_eq_true, beq_self_eq_true, true_and, beq_iff_eq]
  apply BitVec.eq_of_toNat_eq
  simp only [BitVec.extractLsb'_toNat, Nat.shiftRight_zero, BitVec.toNat_ofNat]
  omega

end Sys2Proof.Machine
end

