-- ==== Sys2Proof/Machine/Assembler.lean ====
section
/-! DEFINITION. The host's assembler (30_encoding.md R86 to R91): statements and their expansion into bus accesses. -/

namespace Sys2Proof.Machine

/-- A location operand (R86): a register, a buffer with a byte offset, or a raw offset. -/
inductive LocOperand where
  | reg (l : Loc)
  | buf (b : Buffer) (k : Nat)
  | raw (a : Nat)
deriving DecidableEq, Repr

/-- A statement (R87 to R90). `totpVerDefault` is `totp_ver` without an operand (R88). -/
inductive Stmt where
  | wr (l : LocOperand) (v : Nat)
  | rd (l : LocOperand)
  | command (i : Instr)
  | totpVerDefault
  | wait
  | ldsrc (bs : List Byte)
  | ldkey (bs : List Byte)
  | ldcand (bs : List Byte)
  | lddig (bs : List Byte)
  | ldctr (v : Nat)
  | ldtime (v : Nat)
  | setcfg (d a s : Nat)
deriving DecidableEq, Repr

/-- A window offset as a bus address, if it is in the window. -/
def windowAddress (a : Nat) : Option (BitVec 12) := if a < 4096 then some (BitVec.ofNat 12 a) else none

/-- `offset(loc)` (R87). A buffer's byte offset is a multiple of 4 (R86); beyond the buffer it is still an offset of the
window (DESIGN CHOICE, assumption 15). -/
def LocOperand.address : LocOperand → Option (BitVec 12)
  | .reg l => ((registerMap.find? fun r => r.2 == l).map (·.1)).bind windowAddress
  | .buf b k => if k % 4 = 0 then windowAddress (b.base + k) else none
  | .raw a => windowAddress a

/-- `wr loc, value` is `BusWrite(offset(loc), value)` with `value` in u32 (R87); anything else is no statement. -/
def writeOp (l : LocOperand) (v : Nat) : Option (List HostOp) :=
  if v < 2 ^ 32 then l.address.map fun a => [.access (.write .word a (BitVec.ofNat 32 v))] else none

/-- `rd loc` is `BusRead(offset(loc))` (R87). -/
def readOp (l : LocOperand) : Option (List HostOp) := l.address.map fun a => [.access (.read .word a)]

/-- One word from up to four bytes, in the lane order of R57. -/
def packWord (bs : List Byte) : Word := bs.getD 3 0#8 ++ bs.getD 2 0#8 ++ bs.getD 1 0#8 ++ bs.getD 0 0#8

/-- The writes of buffer data, a word at a time, the last word padded with 0x00 (R90). -/
def writeWords (b : Buffer) (bs : List Byte) : List HostOp :=
  (List.range ((bs.length + 3) / 4)).map fun k =>
    .access (.write .word (BitVec.ofNat 12 (b.base + 4 * k)) (packWord (bs.drop (4 * k))))

/-- Buffer data of at most `cap` bytes, then its length into `len` (R90). -/
def loadBuffer (b : Buffer) (cap : Nat) (len : Loc) (bs : List Byte) : Option (List HostOp) :=
  if bs.length ≤ cap then (writeOp (.reg len) bs.length).map (writeWords b bs ++ ·) else none

/-- A 64-bit value into a register pair, the low half first (R90). -/
def loadPair (lo hi : Loc) (v : Nat) : Option (List HostOp) :=
  if v < 2 ^ 64 then
    (writeOp (.reg lo) (v % 2 ^ 32)).bind fun x => (writeOp (.reg hi) (v / 2 ^ 32)).map (x ++ ·)
  else none

/-- A statement's bus accesses (R87 to R91); `none` is an assembly error. -/
def Stmt.expand : Stmt → Option (List HostOp)
  | .wr l v => writeOp l v
  | .rd l => readOp l
  | .command i => if i.wellFormed then writeOp (.reg .cmd) (encode i).toNat else none
  | .totpVerDefault => writeOp (.reg .cmd) (encode (.totpVer 1)).toNat
  | .wait => some [.wait]
  | .ldsrc bs => loadBuffer .bufA 256 .srcLen bs
  | .ldkey bs => loadBuffer .key 128 .keyLen bs
  | .ldcand bs => loadBuffer .cand 16 .candLen bs
  | .lddig bs => if bs.length ≤ 64 then some (writeWords .digest bs) else none
  | .ldctr v => loadPair .ctrLo .ctrHi v
  | .ldtime v => loadPair .timeLo .timeHi v
  | .setcfg d a s => writeOp (.reg .config) (s * 0x100 + a * 0x10 + d)

/-- A program's bus accesses, statement by statement (R91). -/
def assemble : List Stmt → Option (List HostOp)
  | [] => some []
  | c :: cs => c.expand.bind fun x => (assemble cs).map (x ++ ·)

/-- `s` with a host program to run. -/
def loadProgram (p : List HostOp) (s : State) : State := { s with program := p }

end Sys2Proof.Machine
end

