-- ==== Sys2Proof/Machine/AsmText.lean ====
section
/-! DEFINITION. The text of the assembler's statements (30_encoding.md R86 to R90): a line, as its characters, read into at
most one statement. Where R86 leaves the reading of a line open, it is the model's (DESIGN CHOICE, assumption 15). -/

namespace Sys2Proof.Machine

/-- What a line of program text holds. -/
inductive Line where
  | blank
  | stmt (c : Stmt)
  /-- The line is no line of a program: an assembly error. -/
  | bad
deriving DecidableEq, Repr

/-- The line without its comment, which `;` starts (R86); a `;` inside a quoted text starts none. -/
def dropComment : Bool → List Char → List Char
  | _, [] => []
  | quoted, c :: cs =>
    if c == ';' && !quoted then [] else c :: dropComment (if c == '"' then !quoted else quoted) cs

/-- The words of a line: what spaces, tabs and commas separate, a quoted text staying in one piece. `cur` is the word read
so far, backwards. -/
def wordsOf : Bool → List Char → List Char → List (List Char)
  | _, cur, [] => if cur = [] then [] else [cur.reverse]
  | quoted, cur, c :: cs =>
    if (c == ' ' || c == '\t' || c == ',') && !quoted then
      (if cur = [] then [] else [cur.reverse]) ++ wordsOf quoted [] cs
    else wordsOf (if c == '"' then !quoted else quoted) (c :: cur) cs

/-- The line's words after an optional label `name:` (R86). -/
def dropLabel : List (List Char) → List (List Char)
  | [] => []
  | x :: xs =>
    if x.contains ':' then
      let rest := (x.dropWhile (· != ':')).drop 1
      if rest = [] then xs else rest :: xs
    else x :: xs

/-- The value of a digit, decimal or hexadecimal. -/
def digitValue (c : Char) : Option Nat :=
  if '0'.toNat ≤ c.toNat ∧ c.toNat ≤ '9'.toNat then some (c.toNat - '0'.toNat)
  else if 'a'.toNat ≤ c.toNat ∧ c.toNat ≤ 'f'.toNat then some (c.toNat - 'a'.toNat + 10)
  else if 'A'.toNat ≤ c.toNat ∧ c.toNat ≤ 'F'.toNat then some (c.toNat - 'A'.toNat + 10)
  else none

/-- The number that digits below `b` spell after the value `n`. -/
def digitsValue (b : Nat) : Nat → List Char → Option Nat
  | n, [] => some n
  | n, c :: cs => (digitValue c).bind fun d => if d < b then digitsValue b (n * b + d) cs else none

/-- A number: decimal, or hexadecimal with the prefix `0x` (R86). -/
def numberOf : List Char → Option Nat
  | [] => none
  | '0' :: 'x' :: c :: cs => digitsValue 16 0 (c :: cs)
  | c :: cs => digitsValue 10 0 (c :: cs)

/-- The bytes of the digits of a `hex:` operand (R90), two a byte. -/
def hexBytes : List Char → Option (List Byte)
  | [] => some []
  | a :: b :: cs => (digitsValue 16 0 [a, b]).bind fun v => (hexBytes cs).map (BitVec.ofNat 8 v :: ·)
  | [_] => none

/-- The characters before a closing quote that ends the word. -/
def quotedText : List Char → Option (List Char)
  | [] => none
  | ['"'] => some []
  | c :: cs => if c == '"' then none else (quotedText cs).map (c :: ·)

/-- Buffer data: `"text"`, its ASCII bytes, or `hex:` digits (R90). -/
def dataOf : List Char → Option (List Byte)
  | 'h' :: 'e' :: 'x' :: ':' :: cs => hexBytes cs
  | '"' :: cs =>
    (quotedText cs).bind fun t =>
      if t.all (fun c => decide (c.toNat < 128)) then some (t.map fun c => BitVec.ofNat 8 c.toNat) else none
  | _ => none

/-- The registers' names (R19). -/
def registerNames : List (String × Loc) :=
  [ ("ID", .id), ("STATUS", .status), ("CMD", .cmd), ("CONFIG", .config), ("TSTEP", .tstep), ("KEY_LEN", .keyLen),
    ("CTR_LO", .ctrLo), ("CTR_HI", .ctrHi), ("TIME_LO", .timeLo), ("TIME_HI", .timeHi), ("CAND_LEN", .candLen),
    ("SRC_LEN", .srcLen), ("DST_LEN", .dstLen), ("OTP", .otp), ("BINARY", .binary), ("OFFSET", .offset),
    ("MCTR_LO", .mctrLo), ("MCTR_HI", .mctrHi), ("TCTR_LO", .tctrLo), ("TCTR_HI", .tctrHi), ("REMAIN", .remain),
    ("IRQ_EN", .irqEn), ("ERRINFO", .errInfo) ]

/-- The buffers' names (R19). -/
def bufferNames : List (String × Buffer) :=
  [("CODE", .code), ("CAND", .cand), ("DIGEST", .digest), ("KEY", .key), ("BUF_A", .bufA), ("BUF_B", .bufB)]

/-- The commands of form N (R88). -/
def commandNames : List (String × Instr) :=
  [ ("nop", .nop), ("cfg", .cfg), ("clear", .clear), ("b32_enc", .b32Enc), ("b32_dec", .b32Dec), ("b32_deck", .b32Deck),
    ("trunc", .trunc), ("hotp_gen", .hotpGen), ("totp_gen", .totpGen), ("totp_rem", .totpRem) ]

/-- What a name stands for in a table. -/
def named {α : Type} (t : List (String × α)) (x : List Char) : Option α :=
  (t.find? fun r => r.1.toList == x).map (·.2)

/-- A location operand (R86): a register's name, a buffer's with an optional byte offset, or a raw offset. -/
def locOf (x : List Char) : Option LocOperand :=
  match named registerNames x, named bufferNames (x.takeWhile (· != '+')) with
  | some l, _ => some (.reg l)
  | none, some b =>
    if x.contains '+' then (numberOf ((x.dropWhile (· != '+')).drop 1)).map fun k => .buf b k else some (.buf b 0)
  | none, none => (numberOf x).map fun a => .raw a

/-- A statement of no operand: a command of form N, `totp_ver` alone (R88), `wait` (R89). -/
def stmtOf0 (k : List Char) : Option Stmt :=
  if k = "wait".toList then some .wait
  else if k = "totp_ver".toList then some .totpVerDefault
  else (named commandNames k).map fun i => .command i

/-- A statement of one operand. -/
def stmtOf1 (k x : List Char) : Option Stmt :=
  if k = "rd".toList then (locOf x).map fun l => .rd l
  else if k = "hotp_val".toList then (numberOf x).map fun w => .command (.hotpVal w)
  else if k = "totp_ver".toList then (numberOf x).map fun w => .command (.totpVer w)
  else if k = "ldsrc".toList then (dataOf x).map fun bs => .ldsrc bs
  else if k = "ldkey".toList then (dataOf x).map fun bs => .ldkey bs
  else if k = "ldcand".toList then (dataOf x).map fun bs => .ldcand bs
  else if k = "lddig".toList then (dataOf x).map fun bs => .lddig bs
  else if k = "ldctr".toList then (numberOf x).map fun v => .ldctr v
  else if k = "ldtime".toList then (numberOf x).map fun v => .ldtime v
  else none

/-- A statement's words into the statement. -/
def stmtOf : List (List Char) → Option Stmt
  | [k] => stmtOf0 k
  | [k, x] => stmtOf1 k x
  | [k, x, y] => if k = "wr".toList then (locOf x).bind fun l => (numberOf y).map fun v => .wr l v else none
  | [k, x, y, z] =>
    if k = "setcfg".toList then
      (numberOf x).bind fun d => (numberOf y).bind fun a => (numberOf z).map fun s => .setcfg d a s
    else none
  | _ => none

/-- A line of program text (R86). -/
def readLine (cs : List Char) : Line :=
  match dropLabel (wordsOf false [] (dropComment false cs)) with
  | [] => .blank
  | ws =>
    match stmtOf ws with
    | some c => .stmt c
    | none => .bad

/-- A program's statements, a line at a time; `none` is an assembly error (R86, R88). -/
def readProgram : List (List Char) → Option (List Stmt)
  | [] => some []
  | x :: xs =>
    match readLine x with
    | .blank => readProgram xs
    | .stmt c => (readProgram xs).map (c :: ·)
    | .bad => none

end Sys2Proof.Machine
end

