-- ==== Sys2Proof/Tests/Slice0.lean ====
section
/-! SUPPORT. The model's own tests: each one step on a small state. The expected values are the spec's: its encodings
(30_encoding.md), its worked examples and its vectors (95_test_vectors.md), named at each test. After them, the witnesses: for
every obligation with hypotheses, a concrete state that meets them. -/

namespace Sys2Proof.Tests

open Sys2Proof.Machine

/-! ## Helpers -/

/-- The ASCII bytes of a text. -/
def ascii (t : String) : List Byte := t.toList.map fun c => BitVec.ofNat 8 c.toNat

/-- The key K of 95_test_vectors.md. -/
def keyK : List Byte := ascii "12345678901234567890"

/-- `configured(d, a, 0)` of 95_test_vectors.md, without KEY's bytes. -/
def configured (d : BitVec 4) (a : BitVec 2) : State :=
  { State.reset with digits := d, alg := a, keyLen := 20#8, lock := true, done := true }

/-- `s` with the command just issued. -/
def issued (i : Instr) (s : State) : State := issue (encode i) s

/-- `s` with a Base32 source in BUF_A. -/
def withSource (t : List Byte) (s : State) : State :=
  { writeBytes 0x200 t s with srcLen := BitVec.ofNat 9 t.length }

/-- `s` with TIME written. -/
def withTime (v : Word) (s : State) : State := { s with timeLo := v }

/-- Does the outcome answer a next state of which `p` holds? -/
def Holds (o : Host.Outcome State Fault Refusal) (p : State → Bool) : Bool :=
  match o with
  | .next t => p t
  | .fault _ => false
  | .refused _ => false

/-! ## Well-formedness and decoding -/

theorem test_wf_refuses_window_256 : (Instr.hotpVal 256).wellFormed = false := by decide
theorem test_wf_refuses_totp_window_256 : (Instr.totpVer 256).wellFormed = false := by decide
theorem test_wf_admits_window_255 : (Instr.hotpVal 255).wellFormed = true ∧ (Instr.totpVer 255).wellFormed = true := by decide

-- The words, field by field (R78, R79, R82): RSVD 31:16, WIN 15:8, OPC 7:0.
theorem test_decode_nop : decode (0x0000#16 ++ 0b00000000#8 ++ 0b00000000#8) = .ok .nop := by decide
theorem test_decode_cfg : decode (0x0000#16 ++ 0b00000000#8 ++ 0b00000001#8) = .ok .cfg := by decide
theorem test_decode_clear : decode (0x0000#16 ++ 0b00000000#8 ++ 0b00000010#8) = .ok .clear := by decide
theorem test_decode_b32Enc : decode (0x0000#16 ++ 0b00000000#8 ++ 0b00010000#8) = .ok .b32Enc := by decide
theorem test_decode_b32Dec : decode (0x0000#16 ++ 0b00000000#8 ++ 0b00010001#8) = .ok .b32Dec := by decide
theorem test_decode_b32Deck : decode (0x0000#16 ++ 0b00000000#8 ++ 0b00010010#8) = .ok .b32Deck := by decide
theorem test_decode_trunc : decode (0x0000#16 ++ 0b00000000#8 ++ 0b00100000#8) = .ok .trunc := by decide
theorem test_decode_hotpGen : decode (0x0000#16 ++ 0b00000000#8 ++ 0b00100001#8) = .ok .hotpGen := by decide
theorem test_decode_hotpVal : decode (0x0000#16 ++ 0b10100101#8 ++ 0b00100010#8) = .ok (.hotpVal 0xA5) := by decide
theorem test_decode_totpGen : decode (0x0000#16 ++ 0b00000000#8 ++ 0b00110000#8) = .ok .totpGen := by decide
theorem test_decode_totpVer : decode (0x0000#16 ++ 0b00000001#8 ++ 0b00110001#8) = .ok (.totpVer 1) := by decide
theorem test_decode_totpRem : decode (0x0000#16 ++ 0b00000000#8 ++ 0b00110010#8) = .ok .totpRem := by decide

-- 95_test_vectors.md 2.10: illegal words.
theorem test_decode_nop_with_window : decode 0x00000100#32 = .error .reservedBits := by decide
theorem test_decode_rsvd_bit : decode 0x80000000#32 = .error .reservedBits := by decide
theorem test_decode_hotpVal_rsvd : decode 0x00010022#32 = .error .reservedBits := by decide
theorem test_decode_hotpGen_window : decode 0x00000121#32 = .error .reservedBits := by decide
theorem test_decode_reserved_opcodes :
    [0x03#32, 0x0F#32, 0x13#32, 0x23#32, 0x33#32, 0xFF#32].map decode = List.replicate 6 (.error .reservedOpcode) := by
  decide
theorem test_table_word : decodeTableWord 32 0xFF31 = some (.totpVer 255) ∧ decodeTableWord 32 0x33 = none := by decide

/-! ## One command each -/

-- R147's example.
theorem test_nop : Holds (step (State.reset.withFetchWord 32 0x00)) (fun t => statusWord t == 0x00000002#32) = true := by
  decide

-- R148's example; R156: DIGITS = 0 and ALG = 3 report INVALID_CONFIG(1).
theorem test_cfg :
    Holds (exec .cfg (issued .cfg { State.reset with digits := 8#4, keyLen := 20#8 }))
      (fun t => statusWord t == 0x00000012#32) = true := by
  decide
theorem test_cfg_first_bad_field :
    Holds (exec .cfg (issued .cfg { State.reset with digits := 0#4, alg := 3#2 }))
      (fun t => statusWord t == 0x00000406#32 && t.errInfo == 1#32) = true := by
  decide

-- R150's example.
theorem test_clear :
    Holds (exec .clear (issued .clear { writeBytes 0x100 keyK (configured 6#4 0#2) with remain := 30#32 }))
      (fun t => statusWord t == 0x00000002#32 && t.keyLen == 0#8 && t.remain == 0#32 && byteAt t 0x100 == 0#8 &&
        byteAt t 0x2FF == 0#8) = true := by
  decide +kernel

-- 95_test_vectors.md 2.1.
theorem test_b32Enc_foobar :
    Holds (exec .b32Enc (issued .b32Enc (withSource (ascii "foobar") State.reset)))
      (fun t => t.dstLen == 16#9 && bytesOf t .bufB 16 == ascii "MZXW6YTBOI======") = true := by
  decide +kernel
theorem test_b32Enc_length :
    Holds (exec .b32Enc (issued .b32Enc { State.reset with srcLen := 161#9 }))
      (fun t => statusWord t == 0x00000506#32 && t.errInfo == 161#32) = true := by
  decide

-- 95_test_vectors.md 2.2: mixed case; an interior '='.
theorem test_b32Dec_mixed_case :
    Holds (exec .b32Dec (issued .b32Dec (withSource (ascii "MzXw6===") State.reset)))
      (fun t => t.dstLen == 3#9 && bytesOf t .bufB 3 == ascii "foo") = true := by
  decide +kernel
theorem test_b32Dec_interior_pad :
    Holds (exec .b32Dec (issued .b32Dec (withSource (ascii "MZ=A") State.reset)))
      (fun t => statusWord t == 0x00000606#32 && t.errInfo == 2#32 && t.dstLen == 0#9) = true := by
  decide +kernel

-- R113's example; 95_test_vectors.md 2.3: LOCKED before INVALID_CHAR.
theorem test_b32Deck_secret :
    Holds (exec .b32Deck (issued .b32Deck (withSource (ascii "GEZDGNBVGY3TQOJQGEZDGNBVGY3TQOJQ") State.reset)))
      (fun t => statusWord t == 0x00000002#32 && t.keyLen == 20#8 && bytesOf t .key 20 == keyK) = true := by
  decide +kernel
theorem test_b32Deck_locked :
    Holds (exec .b32Deck (issued .b32Deck (withSource (ascii "MZ=A") (configured 6#4 0#2))))
      (fun t => statusWord t == 0x00000216#32 && t.keyLen == 20#8) = true := by
  decide +kernel

-- R122's example; 95_test_vectors.md 2.4, the SHA-512 row: the offset is read from d[63].
theorem test_trunc :
    Holds (exec .trunc (issued .trunc (writeBytes 0x080
        [0xcc#8, 0x93#8, 0xcf#8, 0x18#8, 0x50#8, 0x8d#8, 0x94#8, 0x93#8, 0x4c#8, 0x64#8, 0xb6#8, 0x5d#8, 0x8b#8, 0xa7#8,
          0x66#8, 0x7f#8, 0xb7#8, 0xcd#8, 0xe4#8, 0xb0#8] (configured 6#4 0#2))))
      (fun t => t.offset == 0#4 && t.binary == 0x4C93CF18#31 && t.otp == 755224#31 && wordAt t 0x060 == 0x32353537#32 &&
        wordAt t 0x064 == 0x00003432#32) = true := by
  decide +kernel
theorem test_trunc_sha512 :
    Holds (exec .trunc (issued .trunc
        (writeBytes 0x080 ((List.range 64).map fun k => BitVec.ofNat 8 (0x80 + k)) (configured 6#4 2#2))))
      (fun t => t.offset == 15#4 && t.binary == 0x0F909192#31 && bytesOf t .code 6 == ascii "132690") = true := by
  decide +kernel

-- R124: one request with K and the counter's 8 bytes; 95_test_vectors.md 2.5: NOT_CONFIGURED from reset.
theorem test_hotpGen_request :
    Holds (sequencerTurn (issued .hotpGen
        { writeBytes 0x100 keyK (configured 6#4 0#2) with ctrLo := 1#32, ctrHi := 1#32 }))
      (fun t => t.request == some ⟨.sha1, keyK, [0#8, 0#8, 0#8, 1#8, 0#8, 0#8, 0#8, 1#8]⟩ && statusWord t == 0x11#32) =
        true := by
  decide +kernel
theorem test_hotpGen_not_configured :
    Holds (step (State.reset.withFetchWord 32 0x21)) (fun t => statusWord t == 0x00000306#32 && t.requests == []) = true := by
  decide

-- R131's corner case (CTR = 2^64 - 2, W = 3); 95_test_vectors.md 2.6: CAND_LEN 17.
theorem test_hotpVal_passes :
    hotpPasses 0xFFFFFFFFFFFFFFFE#64 3 = [some 0xFFFFFFFFFFFFFFFE#64, some 0xFFFFFFFFFFFFFFFF#64, none, none] := by
  decide +kernel
theorem test_hotpVal_length :
    Holds (exec (.hotpVal 0) (issued (.hotpVal 0) { configured 6#4 0#2 with candLen := 17#5 }))
      (fun t => statusWord t == 0x00000516#32 && t.errInfo == 17#32 && t.requests == []) = true := by
  decide +kernel

-- 95_test_vectors.md 2.7: TIME = 59999 is step 1, TIME = 60000 step 2.
theorem test_totpGen_before_boundary :
    Holds (sequencerTurn (issued .totpGen (withTime 59999#32 (configured 8#4 0#2))))
      (fun t => (t.request.map (·.msg)) == some [0#8, 0#8, 0#8, 0#8, 0#8, 0#8, 0#8, 1#8]) = true := by
  decide +kernel
theorem test_totpGen_at_boundary :
    Holds (sequencerTurn (issued .totpGen (withTime 60000#32 (configured 8#4 0#2))))
      (fun t => (t.request.map (·.msg)) == some [0#8, 0#8, 0#8, 0#8, 0#8, 0#8, 0#8, 2#8]) = true := by
  decide +kernel

-- R141's corner case: C = 0 and W = 1 tries C and C + 1 only; R139: C - W first.
theorem test_totpVer_passes_at_epoch : totpPasses 0 1 = [none, some 0#64, some 1#64] := by decide +kernel
theorem test_totpVer_first_pass_skipped :
    Holds (sequencerTurn (issued (.totpVer 1) (withTime 0#32 (configured 6#4 0#2))))
      (fun t => t.j == 1 && t.request == none) = true := by
  decide +kernel

-- R144's example and corner case.
theorem test_totpRem_boundary :
    Holds (exec .totpRem (issued .totpRem (withTime 60000#32 (configured 6#4 0#2))))
      (fun t => statusWord t == 0x00000012#32 && t.remain == 30#32 && t.tctrLo == 2#32) = true := by
  decide +kernel
theorem test_totpRem_last_second :
    Holds (exec .totpRem (issued .totpRem (withTime 59999#32 (configured 6#4 0#2)))) (fun t => t.remain == 1#32) = true := by
  decide +kernel

/-! ## Codes and candidates -/

-- R43's example, as a digest whose four bytes are 7081804; R127, R128 with the code "007" (95_test_vectors.md 1.11).
theorem test_code_leading_zero : decString 8 7081804 = ascii "07081804" := by decide +kernel
theorem test_candidate_padding :
    let e : Engine := { digits := 3, alg := .sha1, strict := false, tstep := 30, key := [] }
    codesMatch 3 (ascii "007") (normalize e (ascii "7")) = true ∧
      codesMatch 3 (ascii "007") (normalize { e with strict := true } (ascii "7")) = false ∧
      codesMatch 3 (ascii "007") (normalize e (ascii "0007")) = false := by
  decide +kernel

/-! ## Host accesses -/

-- 95_test_vectors.md 2.11 and 2.12.
theorem test_config_drops_reserved_bits :
    readLoc (access (.write .word 0x00C#12 0xFFFFFFFF#32) State.reset) .config = 0x0000013F#32 := by
  decide
theorem test_key_reads_zero :
    let t := access (.write .word 0x100#12 0x11111111#32) State.reset
    (access (.read .word 0x100#12) t).replies = [.write .okay, .read .okay 0#32] ∧ byteAt t 0x103 = 0x11#8 := by
  decide +kernel
theorem test_status_acknowledge :
    let t := raise .illegalCmd 3#32 { State.reset with irqEn := true }
    statusWord t = 0x106#32 ∧ irq t = true ∧ statusWord (acknowledge t) = 2#32 ∧ (acknowledge t).errInfo = 3#32 ∧
      irq (writeStatus 2#32 t) = false := by
  decide
-- 95_test_vectors.md 2.13, events 3 and 8; 2.14.
theorem test_busy_write_dropped :
    let t := access (.write .word 0x018#12 5#32) (issued .hotpGen { configured 6#4 0#2 with ctrLo := 1#32 })
    statusWord t = 0x31#32 ∧ t.ctrLo = 1#32 := by
  decide
theorem test_byte_access_refused :
    access (.write .byte 0x008#12 0x21#32) State.reset = { State.reset with replies := [.write .error] } := by
  decide

/-! ## Turns -/

-- R75, R185; 93_implementation_defined.md I10: a core that never answers leaves BUSY = 1, and the run goes on. R63: a CMD write
-- made then is dropped.
theorem test_unanswered_request_waits :
    let s := { configured 6#4 0#2 with recurring := [.seq], schedule := [.seq] }
    Holds (step (issued .hotpGen s)) (fun t => statusWord t == 0x11#32 && decide (t.phase = .waitHmac) &&
      Holds (step t) (fun u => decide (u = t))) = true := by
  decide +kernel
theorem test_write_while_waiting_dropped :
    let s := { configured 6#4 0#2 with recurring := [.host], program := [.access (.write .word 0x008#12 0#32)] }
    Holds (step { issued .hotpGen s with phase := .waitHmac }) (fun t => statusWord t == 0x31#32 && t.cmd == 0x21#32) = true := by
  decide +kernel
-- R63 and R46: KEY is in B32_DECK's write set (R52) and reads 0 all the same.
theorem test_key_in_b32Deck_write_set :
    let s := issued .b32Deck { State.reset with keyLen := 20#8 }
    commandWrites s (.buf .key 0x17C) .b32Deck = true ∧
      (access (.read .word 0x17C#12) s).replies = [.read .okay 0#32] := by
  decide

/-! ## The assembler -/

-- R88, R90: words and expansions, from the text.
theorem test_asm_hotp_val : ((readProgram ["l1: hotp_val 2 ; window".toList]).bind assemble) =
    some [.access (.write .word 0x008#12 0x00000222#32)] := by
  decide +kernel
theorem test_asm_totp_ver_default : ((readProgram ["totp_ver".toList, "hotp_val".toList]).bind assemble) = none ∧
    ((readProgram ["totp_ver".toList]).bind assemble) = some [.access (.write .word 0x008#12 0x00000131#32)] := by
  decide +kernel
theorem test_asm_ldcand : ((readProgram ["ldcand \"94287082\"".toList]).bind assemble) =
    some [.access (.write .word 0x070#12 0x38323439#32), .access (.write .word 0x074#12 0x32383037#32),
      .access (.write .word 0x028#12 8#32)] := by
  decide +kernel

/-! ## Witnesses

For every obligation with hypotheses, `witness_<obligation>`: a concrete state and operands that meet them, at the boundary
values of each clause. -/

/-- The issue of a command leaves the hidden state fresh. -/
theorem issue_fresh (v : Word) (s : State) : (issue v s).Fresh := ⟨rfl, rfl, rfl, rfl, rfl, rfl⟩

/-- The invariant of a state with no request outstanding, from its decidable clauses. -/
theorem inv_of {s : State} (h : Memory.wf s.mem ∧ (s.busy = true ↔ s.phase ≠ .idle) ∧
      (s.phase = .waitHmac ↔ s.request.isSome = true) ∧ (s.busy = true → s.done = false ∧ s.err = false) ∧
      (s.err = true ↔ s.errCode ≠ 0#4) ∧ s.errCode.toNat ≤ 7 ∧ (s.lock = true → configFault s = none) ∧
      (s.matched = false → mctr s = 0#64))
    (h' : s.j ≤ 511 ∧ (s.shifter.acc < 2 ^ 12 ∧ s.shifter.nbits ≤ 12) ∧ s.request = none ∧
      s.staged.all Pending.ofGeneration = true ∧ (s.inReset = true → s.busy = false)) : s.Inv :=
  ⟨h.1, h.2.1, h.2.2.1, h.2.2.2.1, h.2.2.2.2.1, h.2.2.2.2.2.1, h.2.2.2.2.2.2.1, h.2.2.2.2.2.2.2, h'.1, h'.2.1,
    fun r hr => (by rw [h'.2.2.1] at hr; cases hr), h'.2.2.2.1, h'.2.2.2.2⟩

/-- A running command, an engine instance configured, nothing in the buffers. -/
def locked (i : Instr) : State := issued i (configured 6#4 0#2)

theorem locked_inv (i : Instr) : (locked i).Inv := inv_of
  ⟨⟨List.Pairwise.nil, fun c h => (by cases h)⟩, by simp [locked, issued, issue, flagsAtIssue],
    by simp [locked, issued, issue, flagsAtIssue], fun _ => ⟨rfl, rfl⟩,
    by simp [locked, issued, issue, flagsAtIssue, configured, State.reset], Nat.zero_le 7, fun _ => rfl,
    fun _ => (by show (0#32 ++ 0#32 : DWord) = 0#64; decide)⟩
  ⟨Nat.zero_le 511, ⟨by show 0 < 2 ^ 12; decide, Nat.zero_le 12⟩, rfl, rfl, fun h => by cases h⟩

/-- The request HOTP_GEN makes in `locked .hotpGen`: 20 zero key bytes, counter 0. -/
def waitingFor : HmacReq := { alg := .sha1, key := List.replicate 20 0#8, msg := List.replicate 8 0#8 }

/-- HOTP_GEN with its request outstanding. -/
def waiting : State :=
  { locked .hotpGen with phase := .waitHmac, request := some waitingFor, requests := [waitingFor] }

theorem waiting_inv : waiting.Inv :=
  { locked_inv .hotpGen with
    busy_phase := by simp [waiting, locked, issued, issue, flagsAtIssue]
    waiting := by simp [waiting]
    request_job := fun r hr => ⟨.hotpGen, by decide, by cases hr; decide +kernel⟩ }

theorem witness_DecodeOfEncodeIsTheCommand : (Instr.hotpVal 0).wellFormed = true ∧ (Instr.hotpVal 255).wellFormed = true ∧
    Instr.totpRem.wellFormed = true := by decide
theorem witness_EncodeOfDecodeIsTheWord : decode 0x0000FF22#32 = .ok (.hotpVal 255) ∧
    decode 0x00000000#32 = .ok .nop := by decide
theorem witness_ReservedEncodingsAreIllegal :
    ([0x03#32, 0x0F#32, 0x13#32, 0x1F#32, 0x23#32, 0x2F#32, 0x33#32, 0xFFFFFFFF#32].all fun v =>
      let opc := (v.extractLsb' 0 8).toNat
      decide ((0x03 ≤ opc ∧ opc ≤ 0x0F) ∨ (0x13 ≤ opc ∧ opc ≤ 0x1F) ∨ (0x23 ≤ opc ∧ opc ≤ 0x2F) ∨ 0x33 ≤ opc)) = true ∧
    ([0x100#32, 0x80000032#32].all fun v =>
      decide ((v.extractLsb' 0 8).toNat ∈ [0x00, 0x01, 0x02, 0x10, 0x11, 0x12, 0x20, 0x21, 0x30, 0x32] ∧
        v.extractLsb' 8 24 ≠ 0#24)) = true ∧
    ([0x10022#32, 0x80000031#32].all fun v =>
      decide ((v.extractLsb' 0 8).toNat ∈ [0x22, 0x31] ∧ v.extractLsb' 16 16 ≠ 0#16)) = true := by decide
theorem witness_StepRunsDecodedCommand :
    (locked .nop).busy = true ∧ decode (locked .nop).cmd = .ok .nop ∧ (locked .nop).schedule = [] ∧
      (locked .nop).recurring = [] ∧ ({ locked .nop with schedule := [.run] }).schedule = .run :: [] ∧
      ({ locked .nop with recurring := [.run] }).schedule = [] ∧
      ({ locked .nop with recurring := [.run] }).recurring = .run :: [] := by decide
theorem witness_FetchedWordRunsNext : (Instr.totpVer 255).wellFormed = true := by decide
theorem witness_IllegalWordEndsWithIllegalCmd :
    let s := issue 0x33#32 State.reset
    s.busy = true ∧ decode s.cmd = .error .reservedOpcode ∧ s.schedule = [] ∧ s.recurring = [] ∧
      ({ s with schedule := [.run] }).schedule = .run :: [] ∧ ({ s with schedule := [.seq] }).schedule = .seq :: [] ∧
      ({ s with recurring := [.run] }).recurring = .run :: [] ∧ ({ s with recurring := [.seq] }).recurring = .seq :: [] ∧
      s.phase = .run := by decide
theorem witness_HostTurnPerformsTheNextAccess :
    let s := { State.reset with schedule := [.host], program := [.access (.read .word 0x000#12)] }
    s.schedule = .host :: [] ∧ s.program = .access (.read .word 0x000#12) :: [] ∧ s.inReset = false ∧
      ({ s with inReset := true }).inReset = true := by decide
theorem witness_WaitPollsStatusUntilIdle :
    let s := { locked .nop with schedule := [.host], program := [.wait] }
    s.schedule = .host :: [] ∧ s.program = .wait :: [] ∧ s.inReset = false ∧ s.busy = true ∧
      ({ s with busy := false }).busy = false := by decide
theorem witness_RefusedAccessHasNoEffect :
    Width.byte ≠ .word ∧ Width.half ≠ .word ∧ (0x001#12).toNat % 4 ≠ 0 ∧ (0xFFF#12).toNat % 4 ≠ 0 := by decide
theorem witness_BusyWriteIsDropped :
    (locked .hotpGen).busy = true ∧ (0x000#12).toNat % 4 = 0 ∧ (0x000#12) ≠ 0x004#12 ∧ (0x000#12) ≠ 0x054#12 ∧
      (0xFFC#12).toNat % 4 = 0 ∧ (0xFFC#12) ≠ 0x004#12 ∧ (0xFFC#12) ≠ 0x054#12 := by decide
theorem witness_LockFreezesConfigurationAndKey :
    (configured 6#4 0#2).busy = false ∧ (configured 6#4 0#2).lock = true ∧ State.reset.busy = false ∧
      State.reset.lock = false ∧ (0x00C#12).toNat % 4 = 0 ∧ (0x010#12).toNat % 4 = 0 ∧ (0x014#12).toNat % 4 = 0 ∧
      ((0x100#12).toNat % 4 = 0 ∧ inRun 0x100 128 (0x100#12).toNat) ∧
      ((0x17C#12).toNat % 4 = 0 ∧ inRun 0x100 128 (0x17C#12).toNat) := by decide
theorem witness_CmdWriteIssues : State.reset.busy = false ∧ (locked .nop).busy = true := by decide
theorem witness_RegisterKeepsItsFieldBits :
    State.reset.busy = false ∧ (State.reset.lock = true → (0x00C#12) ∉ [0x00C#12, 0x010#12, 0x014#12]) ∧
      (configured 6#4 0#2).busy = false ∧ (configured 6#4 0#2).lock = true ∧
      ((configured 6#4 0#2).lock = true → (0x018#12) ∉ [0x00C#12, 0x010#12, 0x014#12]) ∧
      ([(0x00C#12, 0x13F#32), (0x018#12, 0xFFFFFFFF#32), (0x054#12, 0x1#32)].all fun p =>
        decide (p ∈ [(0x00C#12, 0x13F#32), (0x010#12, 0xFFFFFFFF#32), (0x014#12, 0xFF#32), (0x018#12, 0xFFFFFFFF#32),
          (0x01C#12, 0xFFFFFFFF#32), (0x020#12, 0xFFFFFFFF#32), (0x024#12, 0xFFFFFFFF#32), (0x028#12, 0x1F#32),
          (0x02C#12, 0x1FF#32), (0x054#12, 0x1#32)])) = true ∧
      (0x000#12).toNat % 4 = 0 ∧ (0x000#12) ≠ 0x018#12 := by decide
theorem witness_BufferWordReadsBack :
    State.reset.busy = false ∧ Buffer.cand ∈ [Buffer.cand, .digest, .bufA, .bufB] ∧ 4 * 0 < Buffer.cand.size ∧
      4 * 3 < Buffer.cand.size ∧ Buffer.bufB ∈ [Buffer.cand, .digest, .bufA, .bufB] ∧ 4 * 63 < Buffer.bufB.size := by decide
theorem witness_ReadOnlyAndReservedIgnoreWrites :
    State.reset.busy = false ∧
      ([0x000#12, 0x030#12, 0x050#12, 0x058#12, 0x05C#12, 0x06C#12, 0x0C0#12, 0x0FC#12, 0x180#12, 0x1FC#12, 0x400#12,
        0xFFC#12].all fun a => decide (a.toNat % 4 = 0 ∧
          (a = 0x000#12 ∨ inRun 0x030 0x24 a.toNat ∨ inRun 0x058 0x18 a.toNat ∨ inRun 0x0C0 0x40 a.toNat ∨
            inRun 0x180 0x80 a.toNat ∨ 0x400 ≤ a.toNat))) = true ∧
      ([0x02C#12, 0x054#12, 0x070#12, 0x0BC#12, 0x100#12, 0x17C#12, 0x200#12, 0x3FC#12].all fun a =>
        decide (a.toNat % 4 = 0)) = true := by decide
theorem witness_HostReadHasNoSideEffect : State.reset.busy = false := by decide
theorem witness_KeyReadsZero :
    (0x100#12).toNat % 4 = 0 ∧ inRun 0x100 128 (0x100#12).toNat ∧ (0x17C#12).toNat % 4 = 0 ∧
      inRun 0x100 128 (0x17C#12).toNat := by decide
theorem witness_StatusIsExactWhileBusy : (locked .hotpGen).Inv ∧ (locked .hotpGen).busy = true := ⟨locked_inv _, rfl⟩
theorem witness_BusyReadIsFreeExactlyInTheWriteSet :
    (locked .clear).busy = true ∧ (issue 0x33#32 State.reset).busy = true ∧
      ([0x034#12, 0x058#12, 0x060#12, 0x06C#12, 0x080#12, 0x0BC#12, 0x200#12, 0x3FC#12].all fun a =>
        decide (a.toNat % 4 = 0 ∧ ((0x058 = a.toNat) ∨ a.toNat ∈ [0x034] ∨ inRun 0x060 16 a.toNat ∨ inRun 0x080 64 a.toNat ∨
          inRun 0x200 0x200 a.toNat))) = true ∧
      inWriteSet (locked .clear) 0x034 ∧ inWriteSet (locked .clear) 0x3FC ∧ inWriteSet (locked .hotpGen) 0x090 ∧
      ¬ inWriteSet (locked .hotpGen) 0x094 ∧ inWriteSet (issue 0x33#32 State.reset) 0x058 ∧
      ¬ inWriteSet (issue 0x33#32 State.reset) 0x034 ∧
      inWriteSet (issued .b32Enc { State.reset with srcLen := 1#9 }) 0x304 ∧
      ¬ inWriteSet (issued .b32Enc { State.reset with srcLen := 1#9 }) 0x308 :=
  ⟨rfl, rfl, by decide, .inr (.inr (.inl (.inl (by decide)))), .inr (.inr (.inr (.inr (.inr (.inr (by decide)))))),
    .inr (.inr (by decide)), fun h => (by rcases h with h | (h | h) | h <;> revert h <;> decide), .inl rfl,
    fun h => (by rcases h with h | h; exact absurd h (by decide); exact h), .inr (.inr (by decide)),
    fun h => (by rcases h with h | h | h <;> revert h <;> decide)⟩
theorem witness_HostLearnsNothingOfKey : State.reset.sameButKey (writeBytes 0x100 [1#8] State.reset) :=
  ⟨rfl, fun a ha => by
    have h1 : ¬ a = 0x100 := fun e => ha (by subst e; decide)
    have : (writeBytes 0x100 [1#8] State.reset).mem = [(0x100, 1#8)] := by decide
    simp only [byteAt, Memory.read, this, List.find?_cons, List.find?_nil]
    have h2 : ((0x100 : Nat) == a) = false := by simpa using fun e => h1 e.symm
    rw [h2]; rfl⟩
theorem witness_ResetAbandonsTheCommand :
    let s := { locked .hotpGen with schedule := [.assertReset, .releaseReset, .hmac] }
    s.schedule = .assertReset :: .releaseReset :: .hmac :: [] := by decide
theorem witness_CompletionRaisesTheInterrupt : ∃ t, exec .cfg (locked .cfg) = .next t := ⟨_, rfl⟩
theorem witness_EncodedSymbolsAreTheSourceBits :
    5 * 0 < 8 * (ascii "f").length ∧ 5 * 1 < 8 * (ascii "f").length := by decide
theorem witness_DecodedBytesAreTheSymbolBits : b32decode (ascii "MZXW6===") = .ok (ascii "foo") ∧
    8 * (2 + 1) ≤ 5 * (stripPadding (ascii "MZXW6===")).length := by decide +kernel
theorem witness_B32EncWritesTheEncoding :
    (issued .b32Enc { State.reset with srcLen := 160#9 }).Fresh ∧ (160#9).toNat ≤ 160 ∧
      (issued .b32Enc { State.reset with srcLen := 161#9 }).Fresh ∧ 160 < (161#9).toNat :=
  ⟨issue_fresh _ _, by decide, issue_fresh _ _, by decide⟩
theorem witness_B32DecWritesTheDecoding :
    (issued .b32Dec { State.reset with srcLen := 256#9 }).Fresh ∧ (256#9).toNat ≤ 256 ∧
      (issued .b32Dec { State.reset with srcLen := 257#9 }).Fresh ∧ 256 < (257#9).toNat ∧
      b32decode (ascii "MZ=A") = .error 2 ∧ b32decode (ascii "MZ") = .ok (ascii "f") :=
  ⟨issue_fresh _ _, by decide, issue_fresh _ _, by decide, by decide +kernel, by decide +kernel⟩
theorem witness_B32DeckProvisionsTheKey :
    (locked .b32Deck).Fresh ∧ (locked .b32Deck).lock = true ∧
      (issued .b32Deck { State.reset with srcLen := 257#9 }).Fresh ∧ State.reset.lock = false ∧ 256 < (257#9).toNat ∧
      (issued .b32Deck { State.reset with srcLen := 256#9 }).Fresh ∧ (256#9).toNat ≤ 256 ∧
      (b32decode (List.replicate 206 0x41#8)).toOption.map List.length = some 128 ∧
      (b32decode (List.replicate 207 0x41#8)).toOption.map List.length = some 129 :=
  ⟨issue_fresh _ _, rfl, issue_fresh _ _, rfl, by decide, issue_fresh _ _, by decide, by decide +kernel, by decide +kernel⟩
theorem witness_TruncationTakesFourBytes : (List.replicate 20 0xFF#8).length = digestLen .sha1 ∧
    (List.replicate 64 0xFF#8).length = digestLen .sha512 := by decide
theorem witness_CodeSpellsBinaryModulo : (1 ≤ 1 ∧ 1 ≤ 10) ∧ (1 ≤ 10 ∧ 10 ≤ 10) := by decide
theorem witness_TruncTruncatesTheDigest :
    ((locked .trunc).lock = true → configFault (locked .trunc) = none) ∧ (locked .trunc).lock = true ∧
      (State.reset.lock = true → configFault State.reset = none) ∧ State.reset.lock = false := by decide
theorem witness_MessageHoldsTheWholeCounter : be8 0x0123456789ABCDEF#64 = be8 0x0123456789ABCDEF#64 := rfl
theorem witness_HotpGenGeneratesAtCtr :
    (locked .hotpGen).Fresh ∧ (locked .hotpGen).lock = true ∧ configFault (locked .hotpGen) = none ∧
      (issued .hotpGen State.reset).Fresh ∧ (issued .hotpGen State.reset).lock = false :=
  ⟨issue_fresh _ _, rfl, rfl, issue_fresh _ _, rfl⟩
theorem witness_CandidateMatchesByteWise : (ascii "007").length = 3 ∧ 3 < (ascii "0007").length := by decide
theorem witness_HotpValValidatesTheLookAhead :
    (locked (.hotpVal 255)).Fresh ∧ (locked (.hotpVal 255)).lock = true ∧ configFault (locked (.hotpVal 255)) = none ∧
      255 ≤ 255 ∧ 16 < (17#5).toNat ∧ (16#5).toNat ≤ 16 ∧ (issued (.hotpVal 0) State.reset).Fresh ∧
      (issued (.hotpVal 0) State.reset).lock = false :=
  ⟨issue_fresh _ _, rfl, rfl, by decide, by decide, by decide, issue_fresh _ _, rfl⟩
theorem witness_TotpGenGeneratesAtC :
    (locked .totpGen).Fresh ∧ (locked .totpGen).lock = true ∧ configFault (locked .totpGen) = none ∧
      (issued .totpGen State.reset).Fresh ∧ (issued .totpGen State.reset).lock = false :=
  ⟨issue_fresh _ _, rfl, rfl, issue_fresh _ _, rfl⟩
theorem witness_ShiftedTimeShiftsTheCounter :
    let e : Engine := { digits := 6, alg := .sha1, strict := false, tstep := 30, key := [] }
    1 ≤ e.tstep ∧ 1 ≤ ({ e with tstep := 2 ^ 32 - 1 }).tstep ∧ 255 ≤ 255 ∧ 0 ≤ 2 * 255 ∧ 510 ≤ 2 * 255 := by decide
theorem witness_TotpVerVerifiesTheWindow :
    (locked (.totpVer 255)).Fresh ∧ (locked (.totpVer 255)).lock = true ∧ configFault (locked (.totpVer 255)) = none ∧
      255 ≤ 255 ∧ 16 < (17#5).toNat ∧ (16#5).toNat ≤ 16 ∧ (issued (.totpVer 0) State.reset).Fresh ∧
      (issued (.totpVer 0) State.reset).lock = false :=
  ⟨issue_fresh _ _, rfl, rfl, by decide, by decide, by decide, issue_fresh _ _, rfl⟩
theorem witness_TotpRemGivesTheRemainder :
    (locked .totpRem).lock = true ∧ configFault (locked .totpRem) = none ∧ State.reset.lock = false := by decide
theorem witness_VerifyAfterGenerateMatches :
    let s := { locked .totpGen with timeLo := 59000#32 }
    let v := { locked (.totpVer 1) with candLen := 6#5, timeLo := 89999#32 }
    s.Fresh ∧ v.Fresh ∧ s.lock = true ∧ v.lock = true ∧ configFault s = none ∧ 1 ≤ 255 ∧ v.digits = s.digits ∧
      v.alg = s.alg ∧ v.tstep = s.tstep ∧ v.keyLen = s.keyLen ∧ (∀ a, byteAt v a = byteAt s a) ∧
      v.candLen.toNat = s.digits.toNat ∧
      (s.timeHi.toNat * 2 ^ 32 + s.timeLo.toNat) / 1000 / s.tstep.toNat = 1 ∧
      (v.timeHi.toNat * 2 ^ 32 + v.timeLo.toNat) / 1000 / s.tstep.toNat = 2 :=
  ⟨⟨rfl, rfl, rfl, rfl, rfl, rfl⟩, ⟨rfl, rfl, rfl, rfl, rfl, rfl⟩, rfl, rfl, rfl, by decide, rfl, rfl, rfl, rfl,
    fun _ => rfl, by decide, by decide, by decide⟩
theorem witness_StepKeepsTheInvariant : (locked .nop).Inv ∧ ∃ t, step (locked .nop) = .next t := ⟨locked_inv _, _, rfl⟩
theorem witness_ReachableStepsAreSafe :
    Reachable { State.reset with
      program := [.access (.write .word 0x008#12 0x21#32), .wait], schedule := [.host, .seq], recurring := [.host, .seq, .hmac] } :=
  .start _ _ _
theorem witness_ErrorWritesOnlyStatusAndErrinfo :
    (locked .cfg).staged = [] ∧ ∃ t, exec .cfg (locked .cfg) = .next t ∧ t.err = true ∧ t.errCode ≠ 7#4 :=
  ⟨rfl, _, rfl, rfl, by decide⟩
theorem witness_CommandsLeaveTheOperands :
    (locked .clear).Fresh ∧ configFault (locked .clear) = none ∧ (∃ t, exec .clear (locked .clear) = .next t) ∧
      Instr.nop ≠ .clear := ⟨issue_fresh _ _, rfl, ⟨_, rfl⟩, by decide⟩
theorem witness_HiddenStateLeavesNoTrace : ∃ t, exec .trunc (issue 0x20#32 (configured 6#4 0#2)) = .next t := ⟨_, rfl⟩
theorem witness_SingleStepsReachTheCompletion_within : (locked (.totpVer 255)).Inv ∧ (locked (.totpVer 255)).busy = true :=
  ⟨locked_inv _, rfl⟩
theorem witness_SingleStepsReachTheCompletion_fair :
    let states : Nat → State := fun n => if n = 0 then locked .nop else (locked .nop).completed
    let turns : Nat → Turn := fun n => if n = 0 then .run else .host
    EndlessRun states turns ∧ CoreIsFair states turns ∧ SequencerMoves states turns ∧ (states 0).Inv ∧
      (states 0).busy = true := by
  refine ⟨fun n => ⟨[], ?_⟩, fun n h => ?_, fun n h => ?_, locked_inv _, rfl⟩
  · cases n <;> rfl
  · have := h n (Nat.le_refl n)
    cases n <;> cases this
  · cases h (n + 1) (Nat.le_succ n)
theorem witness_SingleStepsReachTheCompletion_unanswered :
    EndlessRun (fun _ => waiting) (fun _ => .seq) ∧ waiting.Inv ∧ waiting.request = some waitingFor ∧
      (Turn.seq ≠ .hmac ∧ Turn.seq ≠ .run ∧ Turn.seq ≠ .assertReset) ∧ waiting.request.isSome = true ∧
      waiting.schedule = [] ∧ ({ waiting with recurring := [.seq] }).recurring = [.seq] :=
  ⟨fun _ => ⟨[], rfl⟩, waiting_inv, rfl, by decide, rfl, rfl, rfl⟩
theorem witness_SingleStepKeepsTheCompletion :
    (locked .hotpGen).Inv ∧ (locked .hotpGen).busy = true ∧
      ∃ t, sequencerTurn (locked .hotpGen) = .next t ∧ t.busy = true := ⟨locked_inv _, rfl, _, rfl, rfl⟩
theorem witness_OperandsStandWhileBusy : (locked .b32Enc).busy = true := rfl
theorem witness_AtMost511Requests :
    (Instr.totpVer 255).wellFormed = true ∧ ∃ t, exec (.totpVer 255) (issued (.totpVer 255) State.reset) = .next t :=
  ⟨by decide, _, rfl⟩
theorem witness_EngineInstanceIsFixed :
    (locked .nop).Inv ∧ (locked .nop).lock = true ∧ ∃ t, step (locked .nop) = .next t := ⟨locked_inv _, rfl, _, rfl⟩

end Sys2Proof.Tests
end

section
/-! PROOFS. The decimal code of the truncation engine (41_hotp.md R119, R120) and the comparator's normalization of a
candidate (R127, R128). -/

namespace Sys2Proof.Proofs.Scope

open Sys2Proof.Machine

/-! ## Decimal characters -/

/-- The character of the decimal digit `n mod 10` does not wrap around as a byte. -/
theorem toNat_digitChar (n : Nat) : (BitVec.ofNat 8 (0x30 + n % 10)).toNat = 0x30 + n % 10 := by
  rw [BitVec.toNat_ofNat]
  omega

theorem decString_isDigit {d v : Nat} {c : Byte} (hc : c ∈ decString d v) : 0x30 ≤ c.toNat ∧ c.toNat ≤ 0x39 := by
  obtain ⟨k, -, rfl⟩ := List.mem_map.mp hc
  rw [toNat_digitChar]
  omega

theorem decString_succ (d v : Nat) :
    decString (d + 1) v = decString d (v / 10) ++ [BitVec.ofNat 8 (0x30 + v % 10)] := by
  have hlast : v / 10 ^ (d + 1 - 1 - d) = v := by simp
  have hinit : ∀ k ∈ List.range d, v / 10 ^ (d + 1 - 1 - k) = v / 10 / 10 ^ (d - 1 - k) := fun k hk => by
    have hk : k < d := List.mem_range.mp hk
    have hexp : d + 1 - 1 - k = d - 1 - k + 1 := by omega
    rw [hexp, pow_succ', Nat.div_div_eq_div_mul]
  unfold decString
  rw [List.range_succ, List.map_append, List.map_singleton, hlast]
  congr 1
  exact List.map_congr_left fun k hk => by rw [hinit k hk]

/-- Reading `decString` back, most significant character first, gives the number modulo `10 ^ d`. -/
theorem foldl_decString (d v : Nat) : (decString d v).foldl (fun x c => x * 10 + (c.toNat - 0x30)) 0 = v % 10 ^ d := by
  induction d generalizing v with
  | zero => simp [decString, Nat.mod_one]
  | succ d ih =>
    rw [decString_succ, List.foldl_append, ih, List.foldl_cons, List.foldl_nil, toNat_digitChar, pow_succ', Nat.mod_mul]
    omega

/-- Ten digits hold every 31-bit value. -/
theorem truncBinary_lt (d : List Byte) : (truncBinary d).toNat < 10 ^ 10 :=
  (truncBinary d).isLt.trans (by decide)

/-- Settles O39, reading the characters back by induction on their number. -/
theorem codeSpellsBinaryModulo : Obligations.CodeSpellsBinaryModulo := by
  intro digits d _ _
  refine ⟨decString_length _ _, fun c hc => decString_isDigit hc, ?_, ?_⟩
  · exact (foldl_decString _ _).trans (Nat.mod_mod _ _)
  · rintro rfl
    exact Nat.mod_eq_of_lt (truncBinary_lt d)

/-! ## The comparator -/

/-- The comparator is equality of byte strings. -/
theorem codesMatch_iff_eq {digits : Nat} {code : List Byte} (hcode : code.length = digits) (t : List Byte) :
    codesMatch digits code t = true ↔ t = code := by
  simp only [codesMatch, Bool.and_eq_true, decide_eq_true_eq, List.all_eq_true, List.mem_range, beq_iff_eq]
  constructor
  · rintro ⟨hlen, hbytes⟩
    refine List.ext_getElem (hlen.trans hcode.symm) fun k hk hk' => ?_
    simpa [hk, hk'] using hbytes k (hlen ▸ hk)
  · rintro rfl
    exact ⟨hcode, fun _ _ => rfl⟩

theorem normalize_of_strict {e : Engine} (h : e.strict = true) (cand : List Byte) : Machine.normalize e cand = cand :=
  if_pos h

theorem normalize_of_not_strict {e : Engine} (h : e.strict = false) (cand : List Byte) :
    Machine.normalize e cand = List.replicate (e.digits - cand.length) 0x30#8 ++ cand :=
  if_neg (Bool.eq_false_iff.mp h)

theorem length_le_length_normalize (e : Engine) (cand : List Byte) : cand.length ≤ (Machine.normalize e cand).length := by
  cases hstrict : e.strict with
  | false => simp [normalize_of_not_strict hstrict]
  | true => rw [normalize_of_strict hstrict]

/-- Settles O43: the comparator is equality, and a normalized candidate is no shorter than the candidate. -/
theorem candidateMatchesByteWise : Obligations.CandidateMatchesByteWise := by
  intro e code cand hcode
  have hmatch := codesMatch_iff_eq hcode (Machine.normalize e cand)
  constructor
  · rw [hmatch]
    cases hstrict : e.strict with
    | false => simp [normalize_of_not_strict hstrict]
    | true => simp [normalize_of_strict hstrict]
  · intro hlong
    refine Bool.eq_false_iff.mpr fun h => ?_
    have hlen : (Machine.normalize e cand).length = e.digits := (congrArg List.length (hmatch.mp h)).trans hcode
    exact absurd (length_le_length_normalize e cand) (by omega)

end Sys2Proof.Proofs.Scope
end

section
/-! PROOFS. How a job ends, and what one internal step of it can do: the inversion lemmas of `runJob`, `stepJob` and
`answerJob` (30_encoding.md R93 to R99). The proofs about whole commands use these and not the jobs' definitions. -/

namespace Sys2Proof.Proofs.Completion

open Sys2Proof.Machine

/-! ## The hidden state -/

/-- `t` is `s` but for the hidden state (R50) and the record of requests. -/
def HiddenOnly (s t : State) : Prop :=
  ∃ ph j f sc sh st rq rqs, t = { s with
    phase := ph, j := j, first := f, scratch := sc, shifter := sh, staged := st, request := rq, requests := rqs }

theorem HiddenOnly.refl (s : State) : HiddenOnly s s := ⟨_, _, _, _, _, _, _, _, rfl⟩

theorem HiddenOnly.trans {s t u : State} (h : HiddenOnly s t) (h' : HiddenOnly t u) : HiddenOnly s u := by
  obtain ⟨_, _, _, _, _, _, _, _, rfl⟩ := h
  obtain ⟨_, _, _, _, _, _, _, _, rfl⟩ := h'
  exact ⟨_, _, _, _, _, _, _, _, rfl⟩

theorem HiddenOnly.applyPending {s t : State} (h : HiddenOnly s t) (p : Pending) :
    HiddenOnly (applyPending s p) (applyPending t p) := by
  obtain ⟨_, _, _, _, _, _, _, _, rfl⟩ := h
  cases p <;> exact ⟨_, _, _, _, _, _, _, _, rfl⟩

theorem HiddenOnly.foldl_applyPending {s t : State} (h : HiddenOnly s t) (ws : List Pending) :
    HiddenOnly (ws.foldl Machine.applyPending s) (ws.foldl Machine.applyPending t) := by
  induction ws generalizing s t with
  | nil => exact h
  | cons p ws ih => exact ih (h.applyPending p)

theorem hiddenOnly_sendRequest (r : HmacReq) (s : State) : HiddenOnly s (sendRequest r s) := by
  unfold sendRequest
  split <;> exact ⟨_, _, _, _, _, _, _, _, rfl⟩

theorem sendRequest_j (r : HmacReq) (s : State) : (sendRequest r s).j = s.j := by
  unfold sendRequest
  split <;> rfl

theorem sendRequest_shifter (r : HmacReq) (s : State) : (sendRequest r s).shifter = s.shifter := by
  unfold sendRequest
  split <;> rfl

/-- R50's range of the shifter. -/
def ShifterInRange (sh : Shifter) : Prop := sh.acc < 2 ^ 12 ∧ sh.nbits ≤ 12

theorem shifterInRange_encodeByte {sh : Shifter} (h : ShifterInRange sh) (b : Byte) : ShifterInRange (encodeByte sh b) :=
  foldl_encodeByte_range [b] sh h

theorem shifterInRange_decodeChar {sh : Shifter} (h : ShifterInRange sh) (c : Byte) : ShifterInRange (decodeChar sh c) :=
  foldl_decodeChar_range [c] sh h

/-- The shifter is reset with the command's issue (R92). -/
theorem shifterInRange_start : ShifterInRange Shifter.start := ⟨Nat.two_pow_pos 12, Nat.zero_le 12⟩

/-! ## The checks of the commands -/

theorem withEngine_of_unlocked {s : State} (h : s.lock = false) (k : Engine → Job) :
    withEngine s k = .fail .notConfigured 0#32 :=
  if_neg (Bool.eq_false_iff.mp h)

theorem withEngine_of_locked {s : State} {e : Engine} (h : s.lock = true) (he : engineOf s = some e) (k : Engine → Job) :
    withEngine s k = k e := by
  simp only [withEngine, h, he, if_true]

theorem withCandidate_of_long {s : State} (h : 16 < s.candLen.toNat) (k : List Byte → Job) :
    withCandidate s k = .fail .length (BitVec.ofNat 32 s.candLen.toNat) :=
  (if_pos h).trans (congrArg _ (setWidth_eq_ofNat _))

theorem withCandidate_of_short {s : State} (h : s.candLen.toNat ≤ 16) (k : List Byte → Job) :
    withCandidate s k = k (bytesOf s .cand s.candLen.toNat) :=
  if_neg (Nat.not_lt.mpr h)

/-- What holds of an error and of every command over an accepted configuration holds behind the lock
requirement, where LOCK = 1 implies that CFG accepted the configuration (R149, R154). -/
theorem withEngine_induction {s : State} (hlocked : s.lock = true → configFault s = none) {k : Engine → Job}
    {P : Job → Prop} (hfail : ∀ e info, P (.fail e info)) (hk : ∀ e : Engine, e.digits ≤ 10 → P (k e)) :
    P (withEngine s k) := by
  obtain ⟨-, hw⟩ | ⟨-, e, he, hw⟩ | ⟨hl, hc, -⟩ := withEngine_cases s k
  · rw [hw]
    exact hfail _ _
  · obtain ⟨hc, -, hdigits, -⟩ := engineOf_some he
    obtain ⟨-, hle, -⟩ := configFault_none hc
    rw [hw]
    exact hk e (hdigits ▸ hle)
  · exact absurd (hlocked hl) hc

theorem withCandidate_induction {s : State} {k : List Byte → Job} {P : Job → Prop} (hfail : ∀ e info, P (.fail e info))
    (hk : ∀ t, P (k t)) : P (withCandidate s k) := by
  unfold withCandidate
  split
  · exact hfail _ _
  · exact hk _

/-! ## What a job commits -/

/-- The passes a job has to make. -/
def passCount : Job → Nat
  | .validate _ _ ps _ => ps.length
  | _ => 0

/-- The lists of writes a job may commit, when it goes on from `s`. -/
def MayCommit (s : State) : Job → List Pending → Prop
  | .fail _ _, _ => False
  | .write ws, ws' => ws' = ws
  | .encode _, ws => ∃ out, ws = [.bytes Buffer.bufB.base out, .dstLen (BitVec.ofNat 9 out.length)]
  | .decode src dst, ws => ws = decodeWrites ((src.drop s.shifter.pos).foldl decodeChar s.shifter).out dst
  | .generate e _ pre, ws => ws = s.staged ∨ ∃ d, d.length ≤ Buffer.digest.size ∧ ws = generateWrites e pre d
  | .validate _ _ _ pre, ws => ∃ f, ws = validateWrites pre f
  | .unreachable, _ => False

theorem hmacAnswer_length_le {r : HmacReq} {d : List Byte} (h : hmacAnswer r = some d) : d.length ≤ Buffer.digest.size := by
  rw [hmacAnswer_length h]
  cases r.alg <;> decide

/-- `u` is an end of the job `k` reached from `t`, which `s` led to: an error completion or a commit. -/
def EndsAt (s : State) (k : Job) (t u : State) : Prop :=
  (∃ e info, u = raise e info t) ∨ ∃ ws, MayCommit s k ws ∧ u = commit ws t

/-! ## To the completion -/

theorem runGenerate_end (e : Engine) (c : DWord) (pre : List Pending) (s : State) :
    ∃ t, HiddenOnly s t ∧ t.j = s.j ∧ t.shifter = s.shifter ∧
      EndsAt s (.generate e c pre) t (runGenerate e c pre s) := by
  unfold runGenerate
  split
  · have hsent := hiddenOnly_sendRequest (passRequest e c) s
    have hj := sendRequest_j (passRequest e c) s
    have hsh := sendRequest_shifter (passRequest e c) s
    dsimp only
    split
    · exact ⟨_, hsent, hj, hsh, .inl ⟨_, _, rfl⟩⟩
    · next d ha =>
      obtain ⟨r, -, hr⟩ := Option.bind_eq_some_iff.mp ha
      exact ⟨takeGenerated e pre d (sendRequest (passRequest e c) s), hsent.trans ⟨_, _, _, _, _, _, _, _, rfl⟩, hj, hsh,
        .inr ⟨_, .inr ⟨d, hmacAnswer_length_le hr, rfl⟩, rfl⟩⟩
  · exact ⟨s, .refl s, rfl, rfl, .inr ⟨_, .inl rfl, rfl⟩⟩

theorem runPasses_end (e : Engine) (cand : List Byte) (pre : List Pending) (ps : List (Option DWord)) (s : State) :
    ∃ t, HiddenOnly s t ∧ t.j ≤ s.j + ps.length ∧ t.shifter = s.shifter ∧
      ((∃ err info, runPasses e cand pre ps s = raise err info t) ∨
        ∃ f, runPasses e cand pre ps s = commit (validateWrites pre f) t) := by
  induction ps generalizing s with
  | nil => exact ⟨s, .refl s, Nat.le_refl _, rfl, .inr ⟨_, rfl⟩⟩
  | cons p ps ih =>
    simp only [List.length_cons]
    cases p with
    | none =>
      obtain ⟨t, ht, hj, hsh, hend⟩ := ih (skipPass s)
      rw [skipPass_j] at hj
      exact ⟨t, .trans ⟨_, _, _, _, _, _, _, _, rfl⟩ ht, by omega, hsh, hend⟩
    | some c =>
      have hsent := hiddenOnly_sendRequest (passRequest e c) s
      have hj := sendRequest_j (passRequest e c) s
      have hsh := sendRequest_shifter (passRequest e c) s
      simp only [runPasses]
      split
      · exact ⟨_, hsent, by omega, hsh, .inl ⟨_, _, rfl⟩⟩
      · next d _ =>
        obtain ⟨t, ht, htj, htsh, hend⟩ := ih (takePass e cand c d (sendRequest (passRequest e c) s))
        have htake : (takePass e cand c d (sendRequest (passRequest e c) s)).j = s.j + 1 := congrArg (· + 1) hj
        exact ⟨t, hsent.trans (.trans ⟨_, _, _, _, _, _, _, _, rfl⟩ ht), by omega, htsh.trans hsh, hend⟩

/-- How a job ends: from a state that differs from where it began in the hidden state alone, with R50's ranges kept, by an
error completion or by one of its commits. -/
theorem runJob_end {k : Job} {s u : State} (h : runJob k s = .next u) :
    ∃ t, HiddenOnly s t ∧ t.j ≤ max s.j (passCount k) ∧ (ShifterInRange s.shifter → ShifterInRange t.shifter) ∧
      EndsAt s k t u := by
  cases k with
  | unreachable => cases h
  | fail e info =>
    cases h
    exact ⟨s, .refl s, le_max_left .., id, .inl ⟨_, _, rfl⟩⟩
  | write ws =>
    cases h
    exact ⟨s, .refl s, le_max_left .., id, .inr ⟨_, rfl, rfl⟩⟩
  | encode src =>
    cases h
    exact ⟨{ s with shifter := (src.drop s.shifter.pos).foldl encodeByte s.shifter }, ⟨_, _, _, _, _, _, _, _, rfl⟩,
      le_max_left .., foldl_encodeByte_range _ _, .inr ⟨_, ⟨_, rfl⟩, rfl⟩⟩
  | decode src dst =>
    cases h
    exact ⟨{ s with shifter := (src.drop s.shifter.pos).foldl decodeChar s.shifter }, ⟨_, _, _, _, _, _, _, _, rfl⟩,
      le_max_left .., foldl_decodeChar_range _ _, .inr ⟨_, rfl, rfl⟩⟩
  | generate e c pre =>
    cases h
    obtain ⟨t, ht, hj, hsh, hend⟩ := runGenerate_end e c pre s
    exact ⟨t, ht, hj ▸ le_max_left .., fun h => hsh ▸ h, hend⟩
  | validate e cand ps pre =>
    cases h
    obtain ⟨t, ht, hj, hsh, hend⟩ := runPasses_end e cand pre (ps.drop s.j) s
    rw [List.length_drop] at hj
    refine ⟨t, ht, ?_, fun h => hsh ▸ h, hend.imp_right fun ⟨f, hf⟩ => ⟨_, ⟨f, rfl⟩, hf⟩⟩
    simp only [passCount]
    omega

/-! ## One internal step -/

/-- What one internal step of a job can do: end it, move the Base32 shifter, pass over a SKIP, or send the request the job
waits for. -/
theorem stepJob_cases {k : Job} {s t : State} (h : stepJob k s = .next t) :
    EndsAt s k s t ∨
    (∃ sh, (ShifterInRange s.shifter → ShifterInRange sh) ∧ t = { s with shifter := sh }) ∨
    (s.j < passCount k ∧ t = skipPass s) ∨
    (∃ r, k.expects s = some r ∧ t = sendRequest r s) := by
  cases k with
  | unreachable => cases h
  | fail e info =>
    cases h
    exact .inl (.inl ⟨_, _, rfl⟩)
  | write ws =>
    cases h
    exact .inl (.inr ⟨_, rfl, rfl⟩)
  | encode src =>
    cases h
    unfold stepEncode
    split
    · next b _ => exact .inr (.inl ⟨_, fun h => shifterInRange_encodeByte h b, rfl⟩)
    · exact .inl (.inr ⟨_, ⟨_, rfl⟩, rfl⟩)
  | decode src dst =>
    cases h
    unfold stepDecode
    split
    · next c _ => exact .inr (.inl ⟨_, fun h => shifterInRange_decodeChar h c, rfl⟩)
    · next hpos =>
      have hdone : src.drop s.shifter.pos = [] := List.drop_eq_nil_of_le (List.getElem?_eq_none_iff.mp hpos)
      exact .inl (.inr ⟨_, by simp only [MayCommit, hdone, List.foldl_nil], rfl⟩)
  | generate e c pre =>
    cases h
    split
    · next hs => exact .inr (.inr (.inr ⟨_, if_pos hs, rfl⟩))
    · exact .inl (.inr ⟨_, .inl rfl, rfl⟩)
  | validate e cand ps pre =>
    cases h
    unfold stepValidate
    split
    · next hp => exact .inr (.inr (.inr ⟨_, by simp only [Job.expects, hp], rfl⟩))
    · next hp => exact .inr (.inr (.inl ⟨(List.getElem?_eq_some_iff.mp hp).1, rfl⟩))
    · exact .inl (.inr ⟨_, ⟨_, rfl⟩, rfl⟩)

/-- What an answer to the outstanding request can do: end the command, give a generation its digest, complete a pass, or
nothing but end the request. -/
theorem answerJob_cases (k : Job) (r : HmacReq) (s : State) :
    (∃ e info, answerJob k (hmacAnswer r) s = raise e info s) ∨
    (∃ e c pre d, k = .generate e c pre ∧ d.length ≤ Buffer.digest.size ∧
      answerJob k (hmacAnswer r) s = takeGenerated e pre d s) ∨
    (∃ e t c d, s.j < passCount k ∧ answerJob k (hmacAnswer r) s = takePass e t c d s) ∨
    answerJob k (hmacAnswer r) s = endRequest s := by
  cases ha : hmacAnswer r with
  | none => exact .inl ⟨_, _, rfl⟩
  | some d =>
    cases k with
    | generate e c pre => exact .inr (.inl ⟨_, _, _, _, rfl, hmacAnswer_length_le ha, rfl⟩)
    | validate e t ps pre =>
      simp only [answerJob]
      split
      · next hp => exact .inr (.inr (.inl ⟨_, _, _, _, (List.getElem?_eq_some_iff.mp hp).1, rfl⟩))
      · exact .inr (.inr (.inr rfl))
    | _ => exact .inr (.inr (.inr rfl))

end Sys2Proof.Proofs.Completion
end

section
/-! PROOFS. The invariant: it holds at reset, every step keeps it, and no step from it is a fault. The architectural clauses
that no completion sets anew (`Sound`) are proved of what a command commits, and the rest follows from where the sequencer
stands. -/

namespace Sys2Proof.Proofs.Invariant

open Sys2Proof.Machine Sys2Proof.Proofs.Completion

/-! ## The architectural clauses -/

/-- The clauses of the invariant that speak of what commands and the host write: the buffers' form, LOCK, MATCH. -/
structure Sound (s : State) : Prop where
  memory : Memory.wf s.mem
  locked : s.lock = true → configFault s = none
  no_match : s.matched = false → mctr s = 0#64

/-- R50's ranges of the hidden counters. -/
def InRange (s : State) : Prop := s.j ≤ 511 ∧ ShifterInRange s.shifter

theorem sound_of_inv {s : State} (h : s.Inv) : Sound s := ⟨h.memory, h.locked, h.no_match⟩

theorem inRange_of_inv {s : State} (h : s.Inv) : InRange s := ⟨h.pass_range, h.shifter_range⟩

theorem Sound.hiddenOnly {s t : State} (h : Sound s) (ht : HiddenOnly s t) : Sound t := by
  obtain ⟨_, _, _, _, _, _, _, _, rfl⟩ := ht
  exact ⟨h.memory, h.locked, h.no_match⟩

/-! ## From the clauses to the invariant -/

/-- An idle state: nothing is staged or outstanding, and ERR goes with ERRCODE. -/
theorem inv_of_idle {s : State} (h : Sound s) (hr : InRange s) (hbusy : s.busy = false) (hphase : s.phase = .idle)
    (hrequest : s.request = none) (hstaged : s.staged.all Pending.ofGeneration = true)
    (herr : s.err = true ↔ s.errCode ≠ 0#4) (hcode : s.errCode.toNat ≤ 7) : s.Inv where
  memory := h.memory
  busy_phase := by simp [hbusy, hphase]
  waiting := by simp [hphase, hrequest]
  busy_flags := by simp [hbusy]
  err_code := herr
  code_range := hcode
  locked := h.locked
  no_match := h.no_match
  pass_range := hr.1
  shifter_range := hr.2
  request_job := by simp [hrequest]
  staged_kinds := hstaged
  reset_idle := fun _ => hbusy

/-- A state between two steps of a command, no request outstanding. -/
theorem inv_of_running {s : State} (h : Sound s) (hr : InRange s) (hbusy : s.busy = true) (hphase : s.phase = .run)
    (hrequest : s.request = none) (hstaged : s.staged.all Pending.ofGeneration = true)
    (hflags : s.done = false ∧ s.err = false ∧ s.errCode = 0#4) (hreset : s.inReset = false) : s.Inv where
  memory := h.memory
  busy_phase := by simp [hbusy, hphase]
  waiting := by simp [hphase, hrequest]
  busy_flags := fun _ => ⟨hflags.1, hflags.2.1⟩
  err_code := by simp [hflags]
  code_range := by simp [hflags]
  locked := h.locked
  no_match := h.no_match
  pass_range := hr.1
  shifter_range := hr.2
  request_job := by simp [hrequest]
  staged_kinds := hstaged
  reset_idle := by simp [hreset]

/-- The invariant speaks of none of these fields. -/
theorem inv_frame {s : State} (h : s.Inv) (ovr irqEn : Bool) (draws : Nat) (program : List HostOp) (schedule : List Turn)
    (replies : List Reply) :
    ({ s with
      ovr := ovr, irqEn := irqEn, draws := draws, program := program, schedule := schedule, replies := replies }).Inv :=
  { h with
    request_job := fun r hr => by
      obtain ⟨i, hi, he⟩ := h.request_job r hr
      exact ⟨i, hi, (expects_congr i rfl rfl rfl).trans he⟩ }

/-- What the invariant says of an idle state. -/
theorem idle_of_inv {s : State} (h : s.Inv) (hbusy : s.busy = false) : s.phase = .idle ∧ s.request = none := by
  have hphase : s.phase = .idle := by
    by_contra hp
    exact Bool.noConfusion (hbusy.symm.trans (h.busy_phase.mpr hp))
  refine ⟨hphase, ?_⟩
  by_contra hr
  have hwait := h.waiting.mpr (Option.isSome_iff_ne_none.mpr hr)
  exact Phase.noConfusion (hphase.symm.trans hwait)

/-- What the invariant says of a state where the phase is not IDLE. -/
theorem busy_of_inv {s : State} (h : s.Inv) (hphase : s.phase ≠ .idle) :
    s.busy = true ∧ (s.done = false ∧ s.err = false ∧ s.errCode = 0#4) ∧ s.inReset = false := by
  have hbusy := h.busy_phase.mpr hphase
  obtain ⟨hdone, herr⟩ := h.busy_flags hbusy
  have hcode : s.errCode = 0#4 := by
    by_contra hc
    exact Bool.noConfusion (herr.symm.trans (h.err_code.mpr hc))
  refine ⟨hbusy, ⟨hdone, herr, hcode⟩, ?_⟩
  by_contra hr
  exact Bool.noConfusion ((h.reset_idle (Bool.not_eq_false _ ▸ hr)).symm.trans hbusy)

/-! ## The completions -/

theorem inv_raise {s : State} (h : Sound s) (hr : InRange s) (e : ErrCode) (info : Word) : (raise e info s).Inv :=
  inv_of_idle ⟨h.memory, h.locked, h.no_match⟩ hr rfl rfl rfl rfl (iff_of_true rfl e.code_ne_zero) e.code_le_seven

theorem foldl_applyPending_j (ws : List Pending) (s : State) : (ws.foldl applyPending s).j = s.j :=
  foldl_applyPending_frame State.j (fun _ p => by cases p <;> rfl) ws s

theorem foldl_applyPending_shifter (ws : List Pending) (s : State) : (ws.foldl applyPending s).shifter = s.shifter :=
  foldl_applyPending_frame State.shifter (fun _ p => by cases p <;> rfl) ws s

theorem inv_commit {s : State} {ws : List Pending} (h : Sound (ws.foldl applyPending s)) (hr : InRange s) :
    (commit ws s).Inv := by
  have hr' : InRange (ws.foldl applyPending s) := by
    rw [InRange, foldl_applyPending_j, foldl_applyPending_shifter]
    exact hr
  exact inv_of_idle ⟨h.memory, h.locked, h.no_match⟩ hr' rfl rfl rfl rfl (by simp [commit_eq_completed, State.completed])
    (Nat.zero_le 7)

/-! ## The jobs of the commands -/

/-- A write to none of LOCK, KEY_LEN, MATCH and MCTR. -/
def isPlain : Pending → Bool
  | .lock _ => false
  | .matched _ => false
  | .keyLen _ => false
  | .mctr _ => false
  | _ => true

theorem isPlain_of_ofGeneration {p : Pending} (h : p.ofGeneration = true) : isPlain p = true := by
  cases p with
  | lock _ | matched _ | keyLen _ | mctr _ => exact Bool.noConfusion h
  | _ => rfl

theorem all_isPlain_of_ofGeneration {ws : List Pending} (h : ws.all Pending.ofGeneration = true) :
    ws.all isPlain = true :=
  List.all_eq_true.mpr fun p hp => isPlain_of_ofGeneration (List.all_eq_true.mp h p hp)

theorem sound_applyPending {s : State} (h : Sound s) {p : Pending} (hp : isPlain p = true) : Sound (applyPending s p) := by
  have hm := wf_applyPending h.memory p
  cases p with
  | lock _ | matched _ | keyLen _ | mctr _ => exact Bool.noConfusion hp
  | _ => exact ⟨hm, h.locked, h.no_match⟩

theorem sound_foldl_plain {s : State} (h : Sound s) {ws : List Pending} (hws : ws.all isPlain = true) :
    Sound (ws.foldl applyPending s) := by
  induction ws generalizing s with
  | nil => exact h
  | cons p ws ih =>
    obtain ⟨hp, hws⟩ := Bool.and_eq_true_iff.mp hws
    exact ih (sound_applyPending h hp) hws

/-- What the invariant needs of a command's job. `.unreachable` is no command's job under the invariant. -/
def JobSound (s : State) : Job → Prop
  | .fail _ _ => True
  | .write ws => Sound (ws.foldl applyPending s)
  | .encode _ => True
  | .decode _ dst => dst = .key → s.lock = false
  | .generate e _ pre => e.digits ≤ 10 ∧ pre.all Pending.ofGeneration = true
  | .validate _ _ ps pre => ps.length ≤ 511 ∧ pre.all Pending.ofGeneration = true
  | .unreachable => False

theorem jobSound_withEngine {s : State} (h : Sound s) {k : Engine → Job}
    (hk : ∀ e : Engine, e.digits ≤ 10 → JobSound s (k e)) : JobSound s (withEngine s k) :=
  withEngine_induction h.locked (fun _ _ => trivial) hk

theorem jobSound_withCandidate {s : State} {k : List Byte → Job} (hk : ∀ t, JobSound s (k t)) :
    JobSound s (withCandidate s k) :=
  withCandidate_induction (fun _ _ => trivial) hk

theorem jobSound_cfg {s : State} (h : Sound s) : JobSound s (jobCfg s) := by
  unfold jobCfg
  split
  · trivial
  · cases hc : configFault s with
    | some f => trivial
    | none => exact ⟨h.memory, fun _ => hc, h.no_match⟩

/-- CLEAR unlocks and leaves MATCH = 0 over MCTR = 0 (R150). -/
theorem jobSound_clear {s : State} (h : Sound s) : JobSound s (jobClear s) where
  memory := wf_foldl_applyPending h.memory _
  locked := fun hl => Bool.noConfusion hl
  no_match := fun _ => by
    show hiHalf 0#64 ++ loHalf 0#64 = 0#64
    decide

theorem jobSound_b32Deck (s : State) : JobSound s (jobB32Deck s) := by
  unfold jobB32Deck
  split
  · trivial
  next hlock =>
  split
  · trivial
  split
  · trivial
  split
  · trivial
  · exact fun _ => Bool.eq_false_iff.mpr hlock

theorem length_hotpPasses (c : DWord) (w : Nat) : (hotpPasses c w).length = w + 1 := by simp [hotpPasses]

theorem length_totpPasses (c w : Nat) : (totpPasses c w).length = 2 * w + 1 := by simp [totpPasses]

/-- The job of every well-formed command is sound. -/
theorem jobSound_jobOf {s : State} (h : Sound s) {i : Instr} (hi : i.wellFormed = true) : JobSound s (jobOf i s) := by
  cases i with
  | nop => exact h
  | cfg => exact jobSound_cfg h
  | clear => exact jobSound_clear h
  | b32Enc =>
    simp only [jobOf, jobB32Enc]
    split <;> trivial
  | b32Dec =>
    simp only [jobOf, jobB32Dec]
    split
    · trivial
    split
    · trivial
    · exact fun hk => DecodeTo.noConfusion hk
  | b32Deck => exact jobSound_b32Deck s
  | trunc => exact jobSound_withEngine h fun _ _ => sound_foldl_plain h rfl
  | hotpGen => exact jobSound_withEngine h fun _ hd => ⟨hd, rfl⟩
  | hotpVal w =>
    have hw : w ≤ 255 := of_decide_eq_true hi
    refine jobSound_withEngine h fun _ _ => jobSound_withCandidate fun _ => ⟨?_, rfl⟩
    rw [length_hotpPasses]
    omega
  | totpGen => exact jobSound_withEngine h fun _ hd => ⟨hd, rfl⟩
  | totpVer w =>
    have hw : w ≤ 255 := of_decide_eq_true hi
    refine jobSound_withEngine h fun _ _ => jobSound_withCandidate fun _ => ⟨?_, rfl⟩
    rw [length_totpPasses]
    omega
  | totpRem => exact jobSound_withEngine h fun _ _ => sound_foldl_plain h rfl

/-- Every command a word decodes to is well formed: W is 8 bits (R80). -/
theorem wellFormed_of_decode {v : Word} {i : Instr} (h : decode v = .ok i) : i.wellFormed = true := by
  have hw : windowOf v ≤ 255 := Nat.le_of_lt_succ (v.extractLsb' 8 8).isLt
  have hmap : ∀ r ∈ opcodeMap v, r.instr.wellFormed = true := by simp [opcodeMap, Instr.wellFormed, hw]
  unfold decode at h
  split at h
  · next r hr =>
    cases h
    exact hmap r (List.mem_of_find?_eq_some hr)
  · cases h

theorem jobSound_of_decode {s : State} (h : Sound s) {i : Instr} (hi : decode s.cmd = .ok i) : JobSound s (jobOf i s) :=
  jobSound_jobOf h (wellFormed_of_decode hi)

/-- A generation stages the results of R52 alone, each within its buffer. -/
theorem all_ofGeneration_generateWrites {e : Engine} {pre : List Pending} {d : List Byte} (he : e.digits ≤ 10)
    (hpre : pre.all Pending.ofGeneration = true) (hd : d.length ≤ Buffer.digest.size) :
    (generateWrites e pre d).all Pending.ofGeneration = true := by
  have hcode : (codeOf e.digits d ++ List.replicate (Buffer.code.size - e.digits) 0#8).length ≤ Buffer.code.size := by
    rw [List.length_append, codeOf, decString_length, List.length_replicate]
    simp only [Buffer.size]
    omega
  simp only [generateWrites, codeWrites, Pending.ofGeneration, List.all_append, List.all_cons, List.all_nil, hpre, hd, hcode]
  simp

/-- The first match and its counter go together, so that MATCH = 0 shows MCTR = 0 (R132). -/
theorem sound_foldl_validateWrites {s : State} (h : Sound s) {pre : List Pending}
    (hpre : pre.all Pending.ofGeneration = true) (first : Option DWord) :
    Sound ((validateWrites pre first).foldl applyPending s) := by
  have hp := sound_foldl_plain h (all_isPlain_of_ofGeneration hpre)
  simp only [validateWrites, List.foldl_append]
  refine ⟨hp.memory, hp.locked, fun hm => ?_⟩
  cases first with
  | some c => exact Bool.noConfusion hm
  | none =>
    show hiHalf 0#64 ++ loHalf 0#64 = 0#64
    decide

/-- B32_DECK's KEY_LEN is written only while LOCK = 0 (R113). -/
theorem sound_foldl_decodeWrites {s : State} (h : Sound s) {dst : DecodeTo} (hdst : dst = .key → s.lock = false)
    (r : List Byte) : Sound ((decodeWrites r dst).foldl applyPending s) := by
  cases dst with
  | bufB => exact sound_foldl_plain h rfl
  | key =>
    have hm := wf_foldl_applyPending h.memory (decodeWrites r .key)
    exact ⟨hm, fun hl => Bool.noConfusion ((hdst rfl).symm.trans hl), h.no_match⟩

/-- Whatever a sound job commits keeps the architectural clauses. -/
theorem sound_of_mayCommit {s : State} {k : Job} {ws : List Pending} (h : Sound s) (hk : JobSound s k)
    (hstaged : s.staged.all Pending.ofGeneration = true) (hws : MayCommit s k ws) : Sound (ws.foldl applyPending s) := by
  cases k with
  | fail e info => exact hws.elim
  | unreachable => exact hws.elim
  | write ws' => exact hws ▸ hk
  | encode src =>
    obtain ⟨out, rfl⟩ := hws
    exact sound_foldl_plain h rfl
  | decode src dst =>
    cases hws
    exact sound_foldl_decodeWrites h hk _
  | generate e c pre =>
    obtain rfl | ⟨d, hd, rfl⟩ := hws
    · exact sound_foldl_plain h (all_isPlain_of_ofGeneration hstaged)
    · exact sound_foldl_plain h (all_isPlain_of_ofGeneration (all_ofGeneration_generateWrites hk.1 hk.2 hd))
  | validate e t ps pre =>
    obtain ⟨f, rfl⟩ := hws
    exact sound_foldl_validateWrites h hk.2 f

/-- Every end of a sound job satisfies the invariant. -/
theorem inv_of_endsAt {s t u : State} {k : Job} (h : Sound s) (hk : JobSound s k)
    (hstaged : s.staged.all Pending.ofGeneration = true) (ht : HiddenOnly s t) (hr : InRange t) (hend : EndsAt s k t u) :
    u.Inv := by
  obtain ⟨e, info, rfl⟩ | ⟨ws, hws, rfl⟩ := hend
  · exact inv_raise (h.hiddenOnly ht) hr e info
  · exact inv_commit ((sound_of_mayCommit h hk hstaged hws).hiddenOnly (ht.foldl_applyPending ws)) hr

/-! ## The turns -/

/-- A sound job makes at most 511 passes (R100). -/
theorem passCount_le {s : State} {k : Job} (hk : JobSound s k) : passCount k ≤ 511 := by
  cases k with
  | validate e t ps pre => exact hk.1
  | _ => exact Nat.zero_le 511

theorem inv_raiseIllegal {s : State} (h : s.Inv) : (raiseIllegal s).Inv :=
  inv_raise (sound_of_inv h) (inRange_of_inv h) _ _

theorem inv_runCommand {s t : State} (h : s.Inv) (ht : runCommand s = .next t) : t.Inv := by
  unfold runCommand at ht
  split at ht
  · split at ht
    · next i hi =>
      rw [exec_eq_runJob] at ht
      have hk := jobSound_of_decode (sound_of_inv h) hi
      obtain ⟨u, hu, hj, hsh, hend⟩ := runJob_end ht
      have hrange : InRange u := ⟨hj.trans (max_le h.pass_range (passCount_le hk)), hsh h.shifter_range⟩
      exact inv_of_endsAt (sound_of_inv h) hk h.staged_kinds hu hrange hend
    · cases ht
      exact inv_raiseIllegal h
  · cases ht
    exact h

theorem request_none_of_run {s : State} (h : s.Inv) (hphase : s.phase = .run) : s.request = none := by
  by_contra hsome
  exact Phase.noConfusion (hphase.symm.trans (h.waiting.mpr (Option.isSome_iff_ne_none.mpr hsome)))

/-- The request that is sent is the one the running command waits for. -/
theorem inv_sendRequest {s : State} (h : s.Inv) (hphase : s.phase = .run) {i : Instr} (hi : decode s.cmd = .ok i)
    {r : HmacReq} (hr : (jobOf i s).expects s = some r) : (sendRequest r s).Inv := by
  have hbusy := h.busy_phase.mpr (by simp [hphase])
  rw [sendRequest_of_none (request_none_of_run h hphase)]
  exact { h with
    busy_phase := iff_of_true hbusy (by simp)
    waiting := iff_of_true rfl rfl
    request_job := fun q hq => by
      cases hq
      exact ⟨i, hi, (expects_congr i rfl rfl rfl).trans hr⟩ }

theorem inv_sequencerTurn {s t : State} (h : s.Inv) (ht : sequencerTurn s = .next t) : t.Inv := by
  unfold sequencerTurn at ht
  split at ht
  next hphase =>
    split at ht
    · next i hi =>
      have hs := sound_of_inv h
      have hk := jobSound_of_decode hs hi
      obtain ⟨hbusy, hflags, hreset⟩ := busy_of_inv h (by simp [hphase])
      have hrequest := request_none_of_run h hphase
      obtain hend | ⟨sh, hsh, rfl⟩ | ⟨hj, rfl⟩ | ⟨r, hr, rfl⟩ := stepJob_cases ht
      · exact inv_of_endsAt hs hk h.staged_kinds (.refl s) (inRange_of_inv h) hend
      · exact inv_of_running ⟨hs.memory, hs.locked, hs.no_match⟩ ⟨h.pass_range, hsh h.shifter_range⟩ hbusy hphase
          hrequest h.staged_kinds hflags hreset
      · exact inv_of_running ⟨hs.memory, hs.locked, hs.no_match⟩ ⟨Nat.lt_of_lt_of_le hj (passCount_le hk), h.shifter_range⟩
          hbusy hphase hrequest h.staged_kinds hflags hreset
      · exact inv_sendRequest h hphase hi hr
    · cases ht
      exact inv_raiseIllegal h
  next =>
    cases ht
    exact h

theorem inv_hmacTurn {s t : State} (h : s.Inv) (ht : hmacTurn s = .next t) : t.Inv := by
  unfold hmacTurn at ht
  split at ht
  · cases ht
    exact h
  next r hr =>
  split at ht
  · next i hi =>
    have hs := sound_of_inv h
    have hk := jobSound_of_decode hs hi
    obtain ⟨hbusy, hflags, hreset⟩ := busy_of_inv h (by simp [h.waiting.mpr (Option.isSome_of_eq_some hr)])
    have hrange := inRange_of_inv h
    injection ht with ht
    subst ht
    obtain ⟨e, info, ha⟩ | ⟨e, c, pre, d, hgen, hd, ha⟩ | ⟨e, cand, c, d, hj, ha⟩ | ha := answerJob_cases (jobOf i s) r s
    · rw [ha]
      exact inv_raise hs hrange e info
    · rw [hgen] at hk
      rw [ha]
      exact inv_of_running ⟨hs.memory, hs.locked, hs.no_match⟩ hrange hbusy rfl rfl
        (all_ofGeneration_generateWrites hk.1 hk.2 hd) hflags hreset
    · rw [ha]
      exact inv_of_running ⟨hs.memory, hs.locked, hs.no_match⟩
        ⟨Nat.lt_of_lt_of_le hj (passCount_le hk), h.shifter_range⟩ hbusy rfl rfl h.staged_kinds hflags hreset
    · rw [ha]
      exact inv_of_running ⟨hs.memory, hs.locked, hs.no_match⟩ hrange hbusy rfl rfl h.staged_kinds hflags hreset
  · cases ht
    exact inv_raiseIllegal h

/-! ## The host's accesses -/

theorem inv_writeStatus {s : State} (h : s.Inv) (v : Word) : (writeStatus v s).Inv := by
  have herr := h.err_code
  exact { h with
    busy_flags := fun hb => by
      obtain ⟨hd, he⟩ := h.busy_flags hb
      simp [writeStatus, hd, he]
    err_code := by cases hv : v.getLsbD 2 <;> simp only [writeStatus, hv] <;> simp [herr]
    code_range := by
      simp only [writeStatus]
      split
      · exact Nat.zero_le 7
      · exact h.code_range
    request_job := fun r hr => by
      obtain ⟨i, hi, he⟩ := h.request_job r hr
      exact ⟨i, hi, (expects_congr i rfl rfl rfl).trans he⟩ }

theorem inv_issue {s : State} (h : s.Inv) (hreset : s.inReset = false) (v : Word) : (issue v s).Inv :=
  inv_of_running ⟨h.memory, h.locked, h.no_match⟩ ⟨Nat.zero_le 511, shifterInRange_start⟩ rfl rfl rfl rfl ⟨rfl, rfl, rfl⟩
    hreset

/-- What the invariant says of the sequencer and of ERR, while no request is outstanding. -/
def sequencerOf (s : State) := (s.busy, s.phase, s.request, s.staged, s.err, s.errCode, s.j, s.shifter)

/-- A write to a register or a buffer of an idle OTPE. -/
theorem inv_of_idleWrite {s t : State} (h : s.Inv) (hbusy : s.busy = false) (ht : Sound t)
    (hsame : sequencerOf t = sequencerOf s) : t.Inv := by
  obtain ⟨hphase, hrequest⟩ := idle_of_inv h hbusy
  simp only [sequencerOf, Prod.mk.injEq] at hsame
  obtain ⟨hb, hp, hr, hst, he, hc, hj, hsh⟩ := hsame
  have hrange : InRange t := by
    rw [InRange, hj, hsh]
    exact inRange_of_inv h
  exact inv_of_idle ht hrange (hb.trans hbusy) (hp.trans hphase) (hr.trans hrequest) (hst ▸ h.staged_kinds)
    (by rw [he, hc]; exact h.err_code) (hc ▸ h.code_range)

theorem sound_writeBytes {s : State} (h : Sound s) (a : Nat) (bs : List Byte) : Sound (writeBytes a bs s) :=
  ⟨Memory.wf_write h.memory a bs, h.locked, h.no_match⟩

/-- A write that the lock lets through, with OTPE idle and out of reset. -/
theorem inv_writeLoc {s : State} (h : s.Inv) (hbusy : s.busy = false) (hreset : s.inReset = false) (v : Word) (l : Loc)
    (hlock : s.lock = true → frozenByLock l = false) : (writeLoc v s l).Inv := by
  have hs := sound_of_inv h
  have hunlocked : frozenByLock l = true → s.lock = false := fun hf =>
    Bool.eq_false_iff.mpr fun hl => Bool.noConfusion ((hlock hl).symm.trans hf)
  have hbytes : ∀ a, (writeBytes a (lanes v) s).Inv := fun a => inv_of_idleWrite h hbusy (sound_writeBytes hs a _) rfl
  have hunlockedWrite : ∀ t : State, frozenByLock l = true → t.lock = s.lock → t.mem = s.mem → t.matched = s.matched →
      mctr t = mctr s → sequencerOf t = sequencerOf s → t.Inv := fun t hf hl hm hma hmc hsame =>
    inv_of_idleWrite h hbusy
      ⟨hm ▸ hs.memory, fun ht => Bool.noConfusion ((hunlocked hf).symm.trans (hl.symm.trans ht)),
        fun ht => hmc.trans (hs.no_match (hma.symm.trans ht))⟩ hsame
  cases l with
  | status => exact inv_writeStatus h v
  | cmd => exact inv_issue h hreset v
  | config | tstep | keyLen => exact hunlockedWrite _ rfl rfl rfl rfl rfl rfl
  | ctrLo | ctrHi | timeLo | timeHi | candLen | srcLen | irqEn =>
    exact inv_of_idleWrite h hbusy ⟨hs.memory, hs.locked, hs.no_match⟩ rfl
  | buf b a =>
    cases b with
    | code => exact h
    | _ => exact hbytes a
  | _ => exact h

theorem inv_busWrite {s : State} (h : s.Inv) (hreset : s.inReset = false) (l : Loc) (v : Word) : (busWrite l v s).Inv := by
  unfold busWrite
  split
  · exact inv_frame h true s.irqEn s.draws s.program s.schedule s.replies
  next hopen =>
  split
  · exact h
  next hfree =>
  cases hbusy : s.busy with
  | false =>
    refine inv_writeLoc h hbusy hreset v l fun hl => ?_
    simpa [hl] using hfree
  | true =>
    cases l with
    | status => exact inv_writeStatus h v
    | irqEn => exact inv_frame h s.ovr _ s.draws s.program s.schedule s.replies
    | _ => simp [hbusy, openWhileBusy] at hopen

theorem inv_reply {s : State} (h : s.Inv) (r : Reply) : (reply r s).Inv :=
  inv_frame h s.ovr s.irqEn s.draws s.program s.schedule _

theorem inv_busRead {s : State} (h : s.Inv) (l : Loc) : (busRead l s).2.Inv := by
  unfold busRead
  split
  · exact inv_frame h s.ovr s.irqEn _ s.program s.schedule s.replies
  · exact h

theorem inv_access {s : State} (h : s.Inv) (hreset : s.inReset = false) (x : Access) : (access x s).Inv := by
  cases x with
  | read w a =>
    simp only [access]
    split
    · exact inv_reply (inv_busRead h _) _
    · exact inv_reply h _
  | write w a v =>
    simp only [access]
    split
    · exact inv_reply (inv_busWrite h hreset _ v) _
    · exact inv_reply h _

theorem inv_hostTurn {s t : State} (h : s.Inv) (ht : hostTurn s = .next t) : t.Inv := by
  unfold hostTurn at ht
  split at ht
  · cases ht
    exact h
  next op rest _ =>
  split at ht
  · cases ht
  next hreset =>
  have hreset : s.inReset = false := Bool.eq_false_iff.mpr hreset
  have hrest : ({ s with program := rest }).Inv := inv_frame h s.ovr s.irqEn s.draws rest s.schedule s.replies
  split at ht
  · cases ht
    exact inv_access hrest hreset _
  · cases ht
    split
    · exact inv_access h hreset _
    · exact inv_access hrest hreset _

/-! ## Reset -/

/-- The reset values satisfy the invariant, whatever the reset leaves alone. -/
theorem inv_reset (inReset : Bool) (epoch draws : Nat) (program : List HostOp) (schedule recurring : List Turn)
    (replies : List Reply) (requests : List HmacReq) :
    ({ State.reset with
      inReset := inReset, epoch := epoch, draws := draws, program := program, schedule := schedule
      recurring := recurring, replies := replies, requests := requests }).Inv :=
  inv_of_idle ⟨Memory.wf_nil, fun hl => Bool.noConfusion hl, fun _ => (by decide : (0#32 ++ 0#32 : DWord) = 0#64)⟩
    ⟨Nat.zero_le 511, shifterInRange_start⟩ rfl rfl rfl rfl (by simp [State.reset]) (Nat.zero_le 7)

theorem inv_releaseReset {s : State} (h : s.Inv) : (releaseReset s).Inv :=
  { h with
    reset_idle := fun hr => Bool.noConfusion hr
    request_job := fun r hr => by
      obtain ⟨i, hi, he⟩ := h.request_job r hr
      exact ⟨i, hi, (expects_congr i rfl rfl rfl).trans he⟩ }

/-- Settles O50: the reset values meet every clause, and no clause speaks of the program or the turns. -/
theorem invariantHoldsAtReset : Obligations.InvariantHoldsAtReset :=
  fun p ts us => inv_reset false 0 0 p ts us [] []

/-! ## Every step -/

theorem inv_takeTurn {s t : State} {turn : Turn} (h : s.Inv) (ht : takeTurn turn s = .next t) : t.Inv := by
  cases turn with
  | host => exact inv_hostTurn h ht
  | seq => exact inv_sequencerTurn h ht
  | hmac => exact inv_hmacTurn h ht
  | run => exact inv_runCommand h ht
  | assertReset =>
    cases ht
    exact inv_reset true _ _ _ _ _ _ _
  | releaseReset =>
    cases ht
    exact inv_releaseReset h

theorem inv_schedule {s : State} (h : s.Inv) (ts : List Turn) : ({ s with schedule := ts }).Inv :=
  inv_frame h s.ovr s.irqEn s.draws s.program ts s.replies

/-- Settles O51: a step is one turn of one agent, and each agent's turn keeps the invariant. -/
theorem stepKeepsTheInvariant : Obligations.StepKeepsTheInvariant := by
  intro s t h ht
  obtain ⟨turn, ts, hstep⟩ := step_cases s
  exact inv_takeTurn (inv_schedule h ts) (hstep ▸ ht)

/-! ## No fault -/

theorem inv_of_reachable {s : State} (h : Reachable s) : s.Inv := by
  induction h with
  | start p ts us => exact invariantHoldsAtReset p ts us
  | step _ hs ih => exact stepKeepsTheInvariant _ _ ih hs

theorem runJob_ne_fault {s : State} {k : Job} (hk : JobSound s k) (f : Fault) : runJob k s ≠ .fault f := by
  cases k with
  | unreachable => exact hk.elim
  | _ => exact nofun

theorem stepJob_ne_fault {s : State} {k : Job} (hk : JobSound s k) (f : Fault) : stepJob k s ≠ .fault f := by
  cases k with
  | unreachable => exact hk.elim
  | _ => exact nofun

theorem runCommand_ne_fault {s : State} (h : s.Inv) (f : Fault) : runCommand s ≠ .fault f := by
  unfold runCommand
  split
  · split
    · next i hi =>
      rw [exec_eq_runJob]
      exact runJob_ne_fault (jobSound_of_decode (sound_of_inv h) hi) f
    · exact nofun
  · exact nofun

theorem sequencerTurn_ne_fault {s : State} (h : s.Inv) (f : Fault) : sequencerTurn s ≠ .fault f := by
  unfold sequencerTurn
  split
  · split
    · next i hi => exact stepJob_ne_fault (jobSound_of_decode (sound_of_inv h) hi) f
    · exact nofun
  · exact nofun

theorem hmacTurn_ne_fault (s : State) (f : Fault) : hmacTurn s ≠ .fault f := by
  unfold hmacTurn
  split
  · exact nofun
  · split <;> exact nofun

theorem hostTurn_ne_fault (s : State) (f : Fault) : hostTurn s ≠ .fault f := by
  unfold hostTurn
  split
  · exact nofun
  · split
    · exact nofun
    · split <;> exact nofun

/-- Settles O52: a reachable state satisfies the invariant, under which no command's job is the unreachable one. -/
theorem reachableStepsAreSafe : Obligations.ReachableStepsAreSafe := by
  intro s hs f
  obtain ⟨turn, ts, hstep⟩ := step_cases s
  have h := inv_schedule (inv_of_reachable hs) ts
  rw [hstep]
  cases turn with
  | host => exact hostTurn_ne_fault _ f
  | seq => exact sequencerTurn_ne_fault h f
  | hmac => exact hmacTurn_ne_fault _ f
  | run => exact runCommand_ne_fault h f
  | assertReset => exact nofun
  | releaseReset => exact nofun

end Sys2Proof.Proofs.Invariant
end

section
/-! PROOFS. The multi-pass validator (41_hotp.md R129): all of a pass list run to its end, and with it HOTP_VAL and
TOTP_VER, whose pass lists (R131, R140) are turned from exact counters into comparisons. -/

namespace Sys2Proof.Proofs.Validator

open Sys2Proof.Machine Sys2Proof.Proofs.Completion

/-! ## The passes -/

theorem passFails_some (e : Engine) (c : DWord) : passFails e (some c) = (hmacAnswer (passRequest e c)).isNone := rfl

theorem passMatch_none (e : Engine) (t : List Byte) : passMatch e t none = none := rfl

theorem passRequests_cons_none (e : Engine) (ps : List (Option DWord)) :
    passRequests e (none :: ps) = passRequests e ps := rfl

theorem passRequests_cons_some (e : Engine) (c : DWord) (ps : List (Option DWord)) :
    passRequests e (some c :: ps) = passRequest e c :: passRequests e ps := rfl

/-- The latch keeps the first match (R129). -/
theorem latch_eq_or {e : Engine} {c : DWord} {d : List Byte} (hd : hmacAnswer (passRequest e c) = some d) (t : List Byte)
    (first : Option DWord) : latch e t c d first = first.or (passMatch e t (some c)) := by
  cases first <;> simp [latch, passMatch, hd]

/-- The state after a pass at counter `c` has taken its digest `d` (R129). -/
def afterPass (e : Engine) (t : List Byte) (c : DWord) (d : List Byte) (s : State) : State :=
  { s with
    phase := .run, request := none, requests := s.requests ++ [passRequest e c], scratch := d
    first := latch e t c d s.first, j := s.j + 1 }

theorem runPasses_of_answer {e : Engine} {t : List Byte} {pre : List Pending} {c : DWord} {ps : List (Option DWord)}
    {s : State} {d : List Byte} (hrequest : s.request = none) (hd : hmacAnswer (passRequest e c) = some d) :
    runPasses e t pre (some c :: ps) s = runPasses e t pre ps (afterPass e t c d s) :=
  runPasses_some hrequest hd

/-- The first pass that fails ends the validation, with the requests up to its own made (R129). -/
theorem runPasses_of_fails {e : Engine} {t : List Byte} {pre : List Pending} {ps : List (Option DWord)} {s : State} {k : Nat}
    (hrequest : s.request = none) (hk : ps.findIdx? (passFails e) = some k) :
    ∃ f sc, runPasses e t pre ps s = ({ s with
      requests := s.requests ++ passRequests e (ps.take (k + 1)), j := s.j + k, first := f, scratch := sc }).failed
        .hmacFail (BitVec.ofNat 32 (s.j + k)) := by
  induction ps generalizing s k with
  | nil => cases hk
  | cons p ps ih =>
    cases p with
    | none =>
      obtain ⟨k', hk', rfl⟩ : ∃ k', ps.findIdx? (passFails e) = some k' ∧ k' + 1 = k := by
        simpa [List.findIdx?_cons, passFails] using hk
      obtain ⟨f, sc, h⟩ := ih (s := skipPass s) hrequest hk'
      refine ⟨f, sc, runPasses_skip.trans (h.trans ?_)⟩
      simp [State.failed, skipPass, passRequests_cons_none, Nat.add_assoc, Nat.add_comm 1]
    | some c =>
      cases ha : hmacAnswer (passRequest e c) with
      | none =>
        obtain rfl : 0 = k := by simpa [List.findIdx?_cons, passFails_some, ha] using hk
        exact ⟨s.first, s.scratch, runPasses_fail hrequest ha⟩
      | some d =>
        obtain ⟨k', hk', rfl⟩ : ∃ k', ps.findIdx? (passFails e) = some k' ∧ k' + 1 = k := by
          simpa [List.findIdx?_cons, passFails_some, ha] using hk
        obtain ⟨f, sc, h⟩ := ih (s := afterPass e t c d s) rfl hk'
        refine ⟨f, sc, (runPasses_of_answer hrequest ha).trans (h.trans ?_)⟩
        simp [State.failed, afterPass, passRequests_cons_some, Nat.add_assoc, Nat.add_comm 1]

/-- With no failing pass every pass is made, and the latch holds the first match (R129). -/
theorem runPasses_of_no_fail {e : Engine} {t : List Byte} {pre : List Pending} {ps : List (Option DWord)} {s : State}
    (hrequest : s.request = none) (hphase : s.phase = .run) (hps : ps.findIdx? (passFails e) = none) :
    ∃ sc, runPasses e t pre ps s = finishValidate pre { s with
      requests := s.requests ++ passRequests e ps, j := s.j + ps.length
      first := s.first.or (ps.findSome? (passMatch e t)), scratch := sc } := by
  induction ps generalizing s with
  | nil => exact ⟨s.scratch, by simp [runPasses, passRequests]⟩
  | cons p ps ih =>
    cases p with
    | none =>
      have hps' : ps.findIdx? (passFails e) = none := by simpa [List.findIdx?_cons, passFails] using hps
      obtain ⟨sc, h⟩ := ih (s := skipPass s) hrequest hphase hps'
      refine ⟨sc, runPasses_skip.trans (h.trans ?_)⟩
      simp [skipPass, passRequests_cons_none, List.findSome?_cons, passMatch_none, Nat.add_assoc, Nat.add_comm 1]
    | some c =>
      cases ha : hmacAnswer (passRequest e c) with
      | none => simp [List.findIdx?_cons, passFails_some, ha] at hps
      | some d =>
        have hps' : ps.findIdx? (passFails e) = none := by simpa [List.findIdx?_cons, passFails_some, ha] using hps
        obtain ⟨sc, h⟩ := ih (s := afterPass e t c d s) rfl rfl hps'
        refine ⟨sc, (runPasses_of_answer hrequest ha).trans (h.trans ?_)⟩
        have hfirst : (s.first.or (passMatch e t (some c))).or (ps.findSome? (passMatch e t)) =
            s.first.or ((some c :: ps).findSome? (passMatch e t)) := by
          rw [Option.or_assoc, List.findSome?_cons]
          cases passMatch e t (some c) <;> rfl
        simp [afterPass, latch_eq_or ha, hfirst, passRequests_cons_some, hphase, hrequest, Nat.add_assoc, Nat.add_comm 1]

/-- The validator of a freshly issued command does what `Validates` says, where `base` is `s` with the writes `pre`. -/
theorem validates_runJob {s base : State} (hs : s.Fresh) (e : Engine) (t : List Byte) (ps : List (Option DWord))
    {pre : List Pending}
    (hbase : ∀ (m : Option DWord) rqs j f sc,
      commit (validateWrites pre m) { s with requests := rqs, j := j, first := f, scratch := sc } =
        ({ base with
          requests := rqs, j := j, first := f, scratch := sc
          matched := m.isSome, mctrLo := loHalf (m.getD 0#64), mctrHi := hiHalf (m.getD 0#64) }).completed) :
    Validates e t ps s base (runJob (.validate e t ps pre) s) := by
  obtain ⟨hphase, hj, hfirst, -, -, hrequest⟩ := hs
  unfold Validates
  cases hps : ps.findIdx? (passFails e) with
  | some k =>
    obtain ⟨f, sc, h⟩ := runPasses_of_fails (t := t) (pre := pre) hrequest hps
    refine ⟨f, sc, congrArg Host.Outcome.next ?_⟩
    rw [hj, List.drop_zero, h, hj, Nat.zero_add]
  | none =>
    obtain ⟨sc, h⟩ := runPasses_of_no_fail (t := t) (pre := pre) hrequest hphase hps
    refine ⟨ps.findSome? (passMatch e t), sc, congrArg Host.Outcome.next ?_⟩
    rw [hj, List.drop_zero, h, hj, hfirst, Nat.zero_add, Option.none_or]
    exact hbase _ _ _ _ _

/-- The validator with TCTR committed beside its result (R141). -/
theorem validates_runJob_tctr {s : State} (hs : s.Fresh) (e : Engine) (t : List Byte) (ps : List (Option DWord))
    (c : DWord) :
    Validates e t ps s { s with tctrLo := loHalf c, tctrHi := hiHalf c } (runJob (.validate e t ps [.tctr c]) s) :=
  validates_runJob hs e t ps fun _ _ _ _ _ => rfl

/-! ## The pass lists -/

theorem passCounter_natCast (n : Nat) :
    passCounter (n : Int) = if n ≤ 2 ^ 64 - 1 then some (BitVec.ofNat 64 n) else none := by
  have h : (0 ≤ (n : Int) ∧ (n : Int) ≤ 2 ^ 64 - 1) ↔ n ≤ 2 ^ 64 - 1 := by omega
  simp only [passCounter, h, Int.toNat_natCast]

theorem passCounter_of_neg {c : Int} (h : c < 0) : passCounter c = none :=
  if_neg fun hc => absurd hc.1 (Int.not_le.mpr h)

/-- R131 without exact counters. -/
theorem hotpPasses_eq (c : DWord) (w : Nat) : hotpPasses c w =
    (List.range (w + 1)).map fun j => if c.toNat + j ≤ 2 ^ 64 - 1 then some (BitVec.ofNat 64 (c.toNat + j)) else none := by
  have hpass : ∀ j : Nat, passCounter ((c.toNat : Int) + (j : Int)) =
      if c.toNat + j ≤ 2 ^ 64 - 1 then some (BitVec.ofNat 64 (c.toNat + j)) else none := fun j => by
    rw [← passCounter_natCast, Nat.cast_add]
  simp only [hotpPasses, bind_pure_comp, List.map_eq_map, List.map_map]
  exact List.map_congr_left fun j _ => hpass j

/-- R140 without exact counters: no counter of TIME comes near 2^64, so that a SKIP is one below 0. -/
theorem totpPasses_eq {c w : Nat} (hc : c + w ≤ 2 ^ 64 - 1) : totpPasses c w =
    (List.range (2 * w + 1)).map fun j => if w ≤ c + j then some (BitVec.ofNat 64 (c + j - w)) else none := by
  have hpass : ∀ j < 2 * w + 1, passCounter ((c : Int) + ((j : Int) - (w : Int))) =
      if w ≤ c + j then some (BitVec.ofNat 64 (c + j - w)) else none := fun j hj => by
    split
    · next hle =>
      have hcast : (c : Int) + ((j : Int) - (w : Int)) = ((c + j - w : Nat) : Int) := by omega
      rw [hcast, passCounter_natCast, if_pos (by omega)]
    · exact passCounter_of_neg (by omega)
  simp only [totpPasses, bind_pure_comp, List.map_eq_map, List.map_map]
  exact List.map_congr_left fun j hj => hpass j (List.mem_range.mp hj)

/-! ## TIME -/

theorem time_toNat (s : State) : (time s).toNat = s.timeHi.toNat * 2 ^ 32 + s.timeLo.toNat := by
  rw [time, BitVec.toNat_append, ← Nat.shiftLeft_add_eq_or_of_lt s.timeLo.isLt, Nat.shiftLeft_eq]

theorem totpCounter_eq (e : Engine) (s : State) :
    totpCounter e s = (s.timeHi.toNat * 2 ^ 32 + s.timeLo.toNat) / 1000 / e.tstep := by
  rw [totpCounter, seconds, time_toNat]

/-- C leaves room for every window above it (R140). -/
theorem totpCounter_add_le (e : Engine) (s : State) {w : Nat} (hw : w ≤ 255) : totpCounter e s + w ≤ 2 ^ 64 - 1 := by
  have htime : (time s).toNat < 2 ^ 64 := (time s).isLt
  have hle : totpCounter e s ≤ (time s).toNat / 1000 := Nat.div_le_self _ _
  omega

/-! ## The validation commands -/

/-- Settles O44: the checks in their order, then the validator on R131's passes. -/
theorem hotpValValidatesTheLookAhead : Obligations.HotpValValidatesTheLookAhead := by
  intro s w hs hlocked _
  rw [exec_eq_runJob, jobOf, jobHotpVal]
  refine ⟨fun hl => ?_, fun hl hc => ?_, fun hl hc => ?_⟩
  · rw [withEngine_of_unlocked hl]
    rfl
  · obtain ⟨h, -, he⟩ := engineOf_of_configFault (hlocked hl)
    rw [withEngine_of_locked hl he, withCandidate_of_long hc]
    rfl
  · obtain ⟨h, hh, he⟩ := engineOf_of_configFault (hlocked hl)
    refine ⟨h, hh, ?_⟩
    rw [withEngine_of_locked hl he, withCandidate_of_short hc, hotpPasses_eq]
    exact validates_runJob hs _ _ _ fun _ _ _ _ _ => rfl

/-- Settles O47: the checks in their order, then the validator on R140's passes, TCTR committed with its result. -/
theorem totpVerVerifiesTheWindow : Obligations.TotpVerVerifiesTheWindow := by
  intro s w hs hlocked hw
  rw [exec_eq_runJob, jobOf, jobTotpVer]
  refine ⟨fun hl => ?_, fun hl hc => ?_, fun hl hc => ?_⟩
  · rw [withEngine_of_unlocked hl]
    rfl
  · obtain ⟨h, -, he⟩ := engineOf_of_configFault (hlocked hl)
    rw [withEngine_of_locked hl he, withCandidate_of_long hc]
    rfl
  · obtain ⟨h, hh, he⟩ := engineOf_of_configFault (hlocked hl)
    refine ⟨h, hh, ?_⟩
    rw [withEngine_of_locked hl he, withCandidate_of_short hc, totpPasses_eq (totpCounter_add_le _ s hw), tctrWrite,
      totpCounter_eq]
    exact validates_runJob_tctr hs _ _ _ _

end Sys2Proof.Proofs.Validator
end

section
/-! PROOFS. What a command leaves alone: the operands, with CAND and BUF_A (10_state.md R30, R31, R47, R52); and what it does
not depend on: the hidden state that earlier commands left (R51). -/

namespace Sys2Proof.Proofs.Operands

open Sys2Proof.Machine Sys2Proof.Proofs.Completion

/-! ## The operand registers -/

/-- The fields that no command writes. -/
def unwrittenFields (s : State) :=
  (s.digits, s.alg, s.strictLen, s.tstep, s.ctrLo, s.ctrHi, s.timeLo, s.timeHi, s.candLen, s.srcLen, s.irqEn, s.ovr, s.cmd,
    s.inReset, s.program)

theorem unwrittenFields_commit (ws : List Pending) (s : State) : unwrittenFields (commit ws s) = unwrittenFields s :=
  foldl_applyPending_frame unwrittenFields (fun _ p => by cases p <;> rfl) ws s

theorem unwrittenFields_of_endsAt {s t u : State} {k : Job} (ht : HiddenOnly s t) (hend : EndsAt s k t u) :
    unwrittenFields u = unwrittenFields s := by
  obtain ⟨_, _, _, _, _, _, _, _, rfl⟩ := ht
  obtain ⟨e, info, rfl⟩ | ⟨ws, -, rfl⟩ := hend
  · rfl
  · exact unwrittenFields_commit ws _

/-! ## The operand buffers -/

/-- The bytes a command must leave alone: CAND's, and BUF_A's unless it is CLEAR. -/
def OperandByte (i : Instr) (a : Nat) : Prop := inRun 0x070 16 a ∨ (i ≠ .clear ∧ inRun 0x200 256 a)

/-- The write touches no byte of `R`. -/
def Spares (R : Nat → Prop) : Pending → Prop
  | .bytes base bs => ∀ a, R a → a < base ∨ base + bs.length ≤ a
  | _ => True

theorem byteAt_foldl_of_spares {R : Nat → Prop} {ws : List Pending} {s : State} {a : Nat} (hws : ∀ p ∈ ws, Spares R p)
    (ha : R a) : byteAt (ws.foldl applyPending s) a = byteAt s a := by
  induction ws generalizing s with
  | nil => rfl
  | cons p ws ih =>
    obtain ⟨hp, hws⟩ := List.forall_mem_cons.mp hws
    refine (ih hws).trans ?_
    cases p with
    | bytes base bs => exact byteAt_writeBytes_outside (hp a ha)
    | _ => rfl

/-- All the job may commit leaves the operand bytes of `i` alone. -/
def JobSpares (i : Instr) (s : State) (k : Job) : Prop := ∀ ws, MayCommit s k ws → ∀ p ∈ ws, Spares (OperandByte i) p

theorem jobSpares_fail (i : Instr) (s : State) (e : ErrCode) (info : Word) : JobSpares i s (.fail e info) :=
  fun _ hws => hws.elim

theorem jobSpares_write {i : Instr} {s : State} {ws : List Pending} (h : ∀ p ∈ ws, Spares (OperandByte i) p) :
    JobSpares i s (.write ws) := by
  rintro _ rfl
  exact h

/-- BUF_B lies above every operand byte. -/
theorem spares_bufB (i : Instr) (out : List Byte) : Spares (OperandByte i) (.bytes Buffer.bufB.base out) := by
  rintro a ha
  simp only [OperandByte, Buffer.base] at ha ⊢
  omega

theorem spares_codeWrites (i : Instr) {digits : Nat} (h : digits ≤ 10) (d : List Byte) :
    ∀ p ∈ codeWrites digits d, Spares (OperandByte i) p := by
  have hlen : (codeOf digits d ++ List.replicate (Buffer.code.size - digits) 0#8).length = 16 := by
    rw [List.length_append, codeOf, decString_length, List.length_replicate]
    simp only [Buffer.size]
    omega
  have hcode : Spares (OperandByte i)
      (.bytes Buffer.code.base (codeOf digits d ++ List.replicate (Buffer.code.size - digits) 0#8)) := fun a ha => by
    simp only [OperandByte, Buffer.base] at ha ⊢
    omega
  intro p hp
  simp only [codeWrites, List.mem_cons, List.not_mem_nil, or_false] at hp
  obtain rfl | rfl | rfl | rfl := hp
  · trivial
  · trivial
  · trivial
  · exact hcode

theorem spares_digest (i : Instr) {d : List Byte} (h : d.length ≤ Buffer.digest.size) :
    Spares (OperandByte i) (.bytes Buffer.digest.base d) := by
  intro a ha
  simp only [OperandByte, Buffer.base, Buffer.size] at h ha ⊢
  omega

theorem jobSpares_generate (i : Instr) {s : State} (hs : s.Fresh) {e : Engine} (he : e.digits ≤ 10) (c : DWord)
    {pre : List Pending} (hpre : ∀ p ∈ pre, Spares (OperandByte i) p) : JobSpares i s (.generate e c pre) := by
  obtain ⟨-, -, -, -, hstaged, -⟩ := hs
  rintro ws (rfl | ⟨d, hd, rfl⟩)
  · simp [hstaged]
  · intro p hp
    simp only [generateWrites, List.mem_append, List.mem_singleton] at hp
    obtain (hp | rfl) | hp := hp
    · exact hpre p hp
    · exact spares_digest i hd
    · exact spares_codeWrites i he d p hp

theorem jobSpares_validate (i : Instr) (s : State) (e : Engine) (t : List Byte) (ps : List (Option DWord))
    {pre : List Pending} (hpre : ∀ p ∈ pre, Spares (OperandByte i) p) : JobSpares i s (.validate e t ps pre) := by
  rintro ws ⟨f, rfl⟩ p hp
  simp only [validateWrites, List.mem_append, List.mem_cons, List.not_mem_nil, or_false] at hp
  obtain hp | rfl | rfl := hp
  · exact hpre p hp
  · trivial
  · trivial

/-- A decode into BUF_B. -/
theorem jobSpares_decode (i : Instr) (s : State) (src : List Byte) : JobSpares i s (.decode src .bufB) := by
  rintro ws rfl
  exact List.forall_mem_cons.mpr ⟨spares_bufB i _, by simp [Spares]⟩

/-- A decode into KEY, of a secret that fits (R113): its writes end with KEY. -/
theorem jobSpares_decodeKey (i : Instr) {s : State} (hs : s.Fresh) {src : List Byte}
    (h : (src.foldl decodeChar Shifter.start).out.length ≤ 128) : JobSpares i s (.decode src .key) := by
  obtain ⟨-, -, -, hshifter, -⟩ := hs
  rintro ws rfl
  rw [hshifter]
  refine List.forall_mem_cons.mpr ⟨fun a ha => ?_, by simp [Spares]⟩
  change (src.foldl decodeChar Shifter.start).out.length ≤ 128 at h
  simp only [OperandByte, Buffer.base, Config.maxKeyLen, Shifter.start, List.drop_zero, List.length_append,
    List.length_replicate] at ha h ⊢
  omega

theorem b32decode_ok {src r : List Byte} (h : b32decode src = .ok r) :
    r = ((stripPadding src).foldl decodeChar Shifter.start).out := by
  unfold b32decode at h
  dsimp only at h
  split at h
  · cases h
  · injection h with h
    exact h.symm

theorem jobSpares_clear (s : State) : JobSpares .clear s (jobClear s) := by
  refine jobSpares_write fun p hp => ?_
  cases p with
  | bytes base bs =>
    intro a ha
    have hcand : inRun 0x070 16 a := ha.resolve_right fun h => h.1 rfl
    simp only [List.mem_cons, Pending.bytes.injEq, reduceCtorEq, List.not_mem_nil, false_or, or_false, Buffer.base,
      Buffer.size] at hp
    obtain ⟨rfl, rfl⟩ | ⟨rfl, rfl⟩ | ⟨rfl, rfl⟩ | ⟨rfl, rfl⟩ | ⟨rfl, rfl⟩ := hp <;>
      simp only [List.length_replicate] <;> omega
  | _ => trivial

theorem jobSpares_b32Deck {s : State} (hs : s.Fresh) : JobSpares .b32Deck s (jobB32Deck s) := by
  unfold jobB32Deck
  split
  · exact jobSpares_fail _ _ _ _
  split
  · exact jobSpares_fail _ _ _ _
  split
  · exact jobSpares_fail _ _ _ _
  next r hr =>
  split
  · exact jobSpares_fail _ _ _ _
  next hle => exact jobSpares_decodeKey _ hs (b32decode_ok hr ▸ Nat.not_lt.mp hle)

/-- No command writes an operand byte. -/
theorem jobSpares_jobOf {s : State} (hs : s.Fresh) (hlocked : s.lock = true → configFault s = none) (i : Instr) :
    JobSpares i s (jobOf i s) := by
  have htctr : ∀ e, ∀ p ∈ [tctrWrite e s], Spares (OperandByte i) p := by simp [tctrWrite, Spares]
  have hfail := jobSpares_fail i s
  cases i with
  | nop => exact jobSpares_write (by simp)
  | cfg =>
    simp only [jobOf, jobCfg]
    split
    · exact hfail _ _
    split
    · exact hfail _ _
    · exact jobSpares_write (by simp [Spares])
  | clear => exact jobSpares_clear s
  | b32Enc =>
    simp only [jobOf, jobB32Enc]
    split
    · exact hfail _ _
    · rintro ws ⟨out, rfl⟩
      exact List.forall_mem_cons.mpr ⟨spares_bufB _ _, by simp [Spares]⟩
  | b32Dec =>
    simp only [jobOf, jobB32Dec]
    split
    · exact hfail _ _
    split
    · exact hfail _ _
    · exact jobSpares_decode _ _ _
  | b32Deck => exact jobSpares_b32Deck hs
  | trunc => exact withEngine_induction hlocked hfail fun _ he => jobSpares_write (spares_codeWrites _ he _)
  | hotpGen => exact withEngine_induction hlocked hfail fun _ he => jobSpares_generate _ hs he _ (by simp)
  | hotpVal w =>
    exact withEngine_induction hlocked hfail fun _ _ =>
      withCandidate_induction hfail fun _ => jobSpares_validate _ _ _ _ _ (by simp)
  | totpGen => exact withEngine_induction hlocked hfail fun e he => jobSpares_generate _ hs he _ (htctr e)
  | totpVer w =>
    exact withEngine_induction hlocked hfail fun e _ =>
      withCandidate_induction hfail fun _ => jobSpares_validate _ _ _ _ _ (htctr e)
  | totpRem => exact withEngine_induction hlocked hfail fun e _ => jobSpares_write (by simp [tctrWrite, Spares])

theorem byteAt_of_endsAt {s t u : State} {i : Instr} {k : Job} {a : Nat} (hk : JobSpares i s k) (ht : HiddenOnly s t)
    (hend : EndsAt s k t u) (ha : OperandByte i a) : byteAt u a = byteAt s a := by
  obtain ⟨_, _, _, _, _, _, _, _, rfl⟩ := ht
  obtain ⟨e, info, rfl⟩ | ⟨ws, hws, rfl⟩ := hend
  · rfl
  · exact byteAt_foldl_of_spares (hk ws hws) ha

/-- Settles O54: a command ends with an error, which writes no operand, or with a commit, whose writes spare them. -/
theorem commandsLeaveTheOperands : Obligations.CommandsLeaveTheOperands := by
  intro i s u hs hlocked h
  rw [exec_eq_runJob] at h
  obtain ⟨t, ht, -, -, hend⟩ := runJob_end h
  have hfields := unwrittenFields_of_endsAt ht hend
  have hbytes : ∀ a, OperandByte i a → byteAt u a = byteAt s a := fun a =>
    byteAt_of_endsAt (jobSpares_jobOf hs hlocked i) ht hend
  simp only [unwrittenFields, Prod.mk.injEq] at hfields
  obtain ⟨h1, h2, h3, h4, h5, h6, h7, h8, h9, h10, h11, h12, h13, h14, h15⟩ := hfields
  exact ⟨h1, h2, h3, h4, h5, h6, h7, h8, h9, h10, h11, h12, h13, h14, h15, fun a ha => hbytes a (.inl ha),
    fun hi a ha => hbytes a (.inr ⟨hi, ha⟩)⟩

/-! ## The hidden state of earlier commands -/

/-- `s` with other contents of `scratch`, the one hidden item that the issue of a command does not set (R92). -/
def withScratch (sc : List Byte) (s : State) : State := { s with scratch := sc }

@[simp] theorem withScratch_staged (sc : List Byte) (s : State) : (withScratch sc s).staged = s.staged := rfl

@[simp] theorem withScratch_request (sc : List Byte) (s : State) : (withScratch sc s).request = s.request := rfl

theorem foldl_applyPending_withScratch (sc : List Byte) (ws : List Pending) (s : State) :
    ws.foldl applyPending (withScratch sc s) = withScratch sc (ws.foldl applyPending s) := by
  induction ws generalizing s with
  | nil => rfl
  | cons p ws ih =>
    have hp : applyPending (withScratch sc s) p = withScratch sc (applyPending s p) := by cases p <;> rfl
    rw [List.foldl_cons, hp, ih, List.foldl_cons]

theorem commit_withScratch (sc : List Byte) (ws : List Pending) (s : State) :
    commit ws (withScratch sc s) = withScratch sc (commit ws s) := by
  rw [commit, foldl_applyPending_withScratch]
  rfl

theorem sendRequest_withScratch (sc : List Byte) (r : HmacReq) (s : State) :
    sendRequest r (withScratch sc s) = withScratch sc (sendRequest r s) := by
  unfold sendRequest withScratch
  dsimp only
  split <;> rfl

/-- A digest overwrites `scratch`. -/
theorem runGenerate_withScratch (sc : List Byte) (e : Engine) (c : DWord) (pre : List Pending) (s : State) :
    ∃ sc', runGenerate e c pre (withScratch sc s) = withScratch sc' (runGenerate e c pre s) := by
  simp only [runGenerate, sendRequest_withScratch, withScratch_staged, withScratch_request]
  by_cases hs : s.staged = []
  · rw [if_pos hs, if_pos hs]
    cases (sendRequest (passRequest e c) s).request.bind hmacAnswer with
    | none => exact ⟨sc, rfl⟩
    | some d => exact ⟨_, rfl⟩
  · rw [if_neg hs, if_neg hs]
    exact ⟨sc, commit_withScratch ..⟩

theorem runPasses_withScratch (sc : List Byte) (e : Engine) (t : List Byte) (pre : List Pending) (ps : List (Option DWord))
    (s : State) : ∃ sc', runPasses e t pre ps (withScratch sc s) = withScratch sc' (runPasses e t pre ps s) := by
  induction ps generalizing s with
  | nil => exact ⟨sc, commit_withScratch ..⟩
  | cons p ps ih =>
    cases p with
    | none => exact ih (skipPass s)
    | some c =>
      simp only [runPasses, sendRequest_withScratch, withScratch_request]
      cases (sendRequest (passRequest e c) s).request.bind hmacAnswer with
      | none => exact ⟨sc, rfl⟩
      | some d => exact ⟨_, rfl⟩

theorem runJob_withScratch (sc : List Byte) {k : Job} {s t : State} (h : runJob k s = .next t) :
    ∃ sc', runJob k (withScratch sc s) = .next (withScratch sc' t) := by
  cases k with
  | unreachable => cases h
  | fail e info =>
    cases h
    exact ⟨sc, rfl⟩
  | write ws =>
    cases h
    exact ⟨sc, congrArg _ (commit_withScratch ..)⟩
  | encode src =>
    cases h
    exact ⟨sc, congrArg Host.Outcome.next (commit_withScratch sc _
      { s with shifter := (src.drop s.shifter.pos).foldl encodeByte s.shifter })⟩
  | decode src dst =>
    cases h
    exact ⟨sc, congrArg Host.Outcome.next (commit_withScratch sc _
      { s with shifter := (src.drop s.shifter.pos).foldl decodeChar s.shifter })⟩
  | generate e c pre =>
    cases h
    obtain ⟨sc', h⟩ := runGenerate_withScratch sc e c pre s
    exact ⟨sc', congrArg Host.Outcome.next h⟩
  | validate e cand ps pre =>
    cases h
    obtain ⟨sc', h⟩ := runPasses_withScratch sc e cand pre (ps.drop s.j) s
    exact ⟨sc', congrArg Host.Outcome.next h⟩

/-- Settles O55: the issue sets every hidden item but `scratch`, and `scratch` is never read before a digest sets it. -/
theorem hiddenStateLeavesNoTrace : Obligations.HiddenStateLeavesNoTrace := by
  intro i v s ph c n f sc sh st t h
  have hissue : issue v { s with
      phase := ph, cmd := c, j := n, first := f, scratch := sc, shifter := sh, staged := st } =
        withScratch sc (issue v s) := rfl
  have hjob : jobOf i (withScratch sc (issue v s)) = jobOf i (issue v s) := jobOf_congr i rfl
  rw [exec_eq_runJob] at h
  rw [hissue, exec_eq_runJob, hjob]
  exact runJob_withScratch sc h

end Sys2Proof.Proofs.Operands
end

section
/-! PROOFS. Host accesses (20_memory.md R55 to R66; 10_state.md R19 to R49): where an offset lies, what a write stores, and
what a read returns. -/

namespace Sys2Proof.Proofs.Window

open Sys2Proof.Machine

/-! ## Where an offset lies -/

/-- A location of the register map: neither a buffer word nor reserved. -/
def IsRegister : Loc → Prop
  | .buf _ _ => False
  | .reserved => False
  | _ => True

theorem isRegister_of_mem : ∀ p ∈ registerMap, IsRegister p.2 := by
  simp [registerMap, IsRegister]

theorem lookup_registerMap_mem {n : Nat} {l : Loc} (h : registerMap.lookup n = some l) : (n, l) ∈ registerMap := by
  obtain ⟨before, after, hmap, -⟩ := List.lookup_eq_some_iff.mp h
  rw [hmap]
  exact List.mem_append_right _ List.mem_cons_self

/-- A register lies at its offset in the map and nowhere else (R19). -/
theorem locate_eq_register {n : Nat} {l : Loc} (hl : IsRegister l) : locate n = l ↔ (n, l) ∈ registerMap := by
  constructor
  · rintro rfl
    unfold locate at hl ⊢
    split at hl
    · next l hlookup => exact lookup_registerMap_mem hlookup
    · split at hl <;> exact hl.elim
  · have hmap : ∀ p ∈ registerMap, locate p.1 = p.2 := by decide
    exact hmap (n, l)

theorem bufferAt_eq_some {n : Nat} {b : Buffer} : bufferAt n = some b ↔ inRun b.base b.size n := by
  constructor
  · intro h
    simpa [Buffer.holds] using List.find?_some h
  · rintro ⟨hle, hlt⟩
    obtain ⟨k, rfl⟩ := Nat.exists_eq_add_of_le hle
    exact bufferAt_base b (by omega)

theorem base_ge (b : Buffer) : 0x060 ≤ b.base := by cases b <;> decide

/-- A buffer word lies within its buffer, at the offset the location carries (R19). -/
theorem locate_eq_buf {n a : Nat} {b : Buffer} : locate n = .buf b a ↔ a = n ∧ inRun b.base b.size n := by
  have hbase := base_ge b
  constructor
  · intro h
    unfold locate at h
    split at h
    · next l hlookup =>
      subst h
      exact False.elim (isRegister_of_mem _ (lookup_registerMap_mem hlookup))
    · split at h
      · next c hc =>
        obtain ⟨rfl, rfl⟩ := Loc.buf.inj h
        exact ⟨rfl, bufferAt_eq_some.mp hc⟩
      · cases h
  · rintro ⟨rfl, hrun⟩
    rw [locate_above (by omega), bufferAt_eq_some.mpr hrun]

theorem locate_eq_some_buf {n : Nat} {b : Buffer} : (∃ a, locate n = .buf b a) ↔ inRun b.base b.size n := by
  simp only [locate_eq_buf, exists_eq_left]

theorem locate_eq_reserved {n : Nat} (h : n = 0x05C ∨ inRun 0x0C0 0x40 n ∨ inRun 0x180 0x80 n ∨ 0x400 ≤ n) :
    locate n = .reserved := by
  have hnone : bufferAt n = none := by
    rcases bufferAt_cases n with h' | h' | h' | h' | h' | h' | h'
    iterate 6 exact absurd h'.1 (by omega)
    exact h'.2
  rw [locate_above (by omega), hnone]

/-! ## Accesses -/

theorem access_write {a : BitVec 12} (h : a.toNat % 4 = 0) (v : Word) (s : State) :
    access (.write .word a v) s = reply (.write .okay) (busWrite (locate a.toNat) v s) :=
  if_pos (admitted_of_aligned h)

/-- A read that R64 leaves exact returns the location's value (R20 to R48). -/
theorem access_read_exact {s : State} {a : BitVec 12} (h : a.toNat % 4 = 0)
    (hexact : unspecifiedRead s (locate a.toNat) = false) :
    access (.read .word a) s = reply (.read .okay (readLoc s (locate a.toNat))) s := by
  simp [access, admitted_of_aligned h, busRead, hexact]

/-- A read that R64 leaves unspecified draws the next free word. -/
theorem access_read_free {s : State} {a : BitVec 12} (h : a.toNat % 4 = 0)
    (hfree : unspecifiedRead s (locate a.toNat) = true) :
    access (.read .word a) s = reply (.read .okay (Config.freeWord s.draws)) { s with draws := s.draws + 1 } := by
  simp [access, admitted_of_aligned h, busRead, hfree]

theorem unspecifiedRead_of_idle {s : State} (h : s.busy = false) (l : Loc) : unspecifiedRead s l = false := by
  simp [unspecifiedRead, h]

theorem access_read_idle {s : State} {a : BitVec 12} (hbusy : s.busy = false) (h : a.toNat % 4 = 0) :
    access (.read .word a) s = reply (.read .okay (readLoc s (locate a.toNat))) s :=
  access_read_exact h (unspecifiedRead_of_idle hbusy _)

theorem busWrite_idle {s : State} {l : Loc} (hbusy : s.busy = false) (hlock : s.lock = true → frozenByLock l = false)
    (v : Word) : busWrite l v s = writeLoc v s l := by
  cases hl : s.lock with
  | false => simp [busWrite, hbusy, hl]
  | true => simp [busWrite, hbusy, hlock hl]

theorem busWrite_frozen {s : State} {l : Loc} (hbusy : s.busy = false) (hlock : s.lock = true)
    (hl : frozenByLock l = true) (v : Word) : busWrite l v s = s := by
  simp [busWrite, hbusy, hlock, hl]

/-- A location that ignores writes ignores them under LOCK too. -/
theorem busWrite_ignored {s : State} {l : Loc} {v : Word} (hbusy : s.busy = false) (h : writeLoc v s l = s) :
    busWrite l v s = s := by
  simp [busWrite, hbusy, h]

/-- Settles O12: STATUS takes writes whether or not BUSY = 1, and no lock freezes it. -/
theorem statusWriteClearsWhatItNames : Obligations.StatusWriteClearsWhatItNames := by
  intro s v
  have hstatus : busWrite .status v s = writeStatus v s := by simp [busWrite, openWhileBusy, frozenByLock, writeLoc]
  have haccess : access (.write .word 0x004#12 v) s = reply (.write .okay) (writeStatus v s) := by
    rw [access_write rfl, ← hstatus]
    rfl
  have hclear : ∀ b c : Bool, (b && !c) = if c then false else b := by decide
  refine ⟨?_, ?_⟩
  · rw [haccess]
    simp only [reply, writeStatus, hclear]
  · rw [haccess, irq, reply_done, reply_irqEn, irq]
    simp only [writeStatus]
    exact Bool.and_right_comm _ _ _

/-! ## A word in a buffer -/

theorem lanes_getD (v : Word) {k : Nat} (h : k < 4) : (lanes v).getD k 0#8 = v.extractLsb' (8 * k) 8 := by
  interval_cases k <;> rfl

/-- An aligned word lies in one buffer as a whole. -/
theorem inRun_of_word {b : Buffer} {a x : Nat} (ha : inRun b.base b.size a) (h4 : a % 4 = 0) (hx : inRun a 4 x) :
    inRun b.base b.size x := by
  cases b <;> simp only [Buffer.base, Buffer.size] at ha ⊢ <;> omega

/-- A buffer word's four bytes are the written word's, the lowest at the lowest offset (R57); no other byte changes. -/
theorem byteAt_writeWord {b : Buffer} {a : Nat} (ha : inRun b.base b.size a) (h4 : a % 4 = 0) (v : Word) (s : State)
    (x : Nat) : byteAt (writeBytes a (lanes v) s) x =
      if inRun a 4 x then v.extractLsb' (8 * (x - a)) 8 else byteAt s x := by
  split
  · next hx =>
    have hbuf : (bufferAt x).isSome = true := Option.isSome_of_eq_some (bufferAt_eq_some.mpr (inRun_of_word ha h4 hx))
    rw [byteAt_writeBytes_inside (bs := lanes v) hx.1 hx.2 hbuf, lanes_getD v (by omega)]
  · next hx =>
    have hout : x < a ∨ a + (lanes v).length ≤ x := by
      change x < a ∨ a + 4 ≤ x
      omega
    exact byteAt_writeBytes_outside hout

/-- Four bytes in the lane order make up their word again (R57). -/
theorem wordAt_of_lanes {s : State} {a : Nat} {v : Word}
    (h : ∀ x, inRun a 4 x → byteAt s x = v.extractLsb' (8 * (x - a)) 8) : wordAt s a = v := by
  have hbyte : ∀ k < 4, (byteAt s (a + k)).toNat = v.toNat / 2 ^ (8 * k) % 2 ^ 8 := fun k hk => by
    rw [h (a + k) ⟨by omega, by omega⟩, BitVec.extractLsb'_toNat, Nat.add_sub_cancel_left, Nat.shiftRight_eq_div_pow]
  have h0 := hbyte 0 (by decide)
  have h1 := hbyte 1 (by decide)
  have h2 := hbyte 2 (by decide)
  have h3 := hbyte 3 (by decide)
  apply BitVec.eq_of_toNat_eq
  rw [wordAt_eq_ofNat, BitVec.toNat_ofNat]
  have hv := v.isLt
  simp only [Nat.add_zero] at h0
  omega

/-- Settles O13: the lock is what decides, and each of the four locations takes its own write without it. -/
theorem lockFreezesConfigurationAndKey : Obligations.LockFreezesConfigurationAndKey := by
  intro s a v hbusy h4 ha
  have hkey : inRun 0x100 128 a.toNat → locate a.toNat = .buf .key a.toNat := fun h => locate_eq_buf.mpr ⟨rfl, h⟩
  have hfrozen : frozenByLock (locate a.toNat) = true := by
    rcases ha with ha | ha
    · simp only [List.mem_cons, List.not_mem_nil, or_false] at ha
      obtain rfl | rfl | rfl := ha <;> rfl
    · rw [hkey ha]
      rfl
  refine ⟨fun hl => ?_, fun hl => ?_⟩
  · rw [access_write h4, busWrite_frozen hbusy hl hfrozen]
    rfl
  · have haccess : access (.write .word a v) s = reply (.write .okay) (writeLoc v s (locate a.toNat)) := by
      rw [access_write h4, busWrite_idle hbusy fun h => Bool.noConfusion (hl.symm.trans h)]
    rw [haccess]
    refine ⟨?_, ?_, ?_, fun hrun => ?_⟩
    · rintro rfl
      rfl
    · rintro rfl
      rfl
    · rintro rfl
      rfl
    · rw [hkey hrun]
      exact ⟨_, rfl, byteAt_writeWord (b := .key) hrun h4 v s⟩

/-- Settles O16: the word's bytes go to the buffer's four offsets and are read back from them. -/
theorem bufferWordReadsBack : Obligations.BufferWordReadsBack := by
  intro s b k v hbusy hb hk
  have hbound : b.base + 4 * k < 2 ^ 12 ∧ (b.base + 4 * k) % 4 = 0 := by
    cases b <;> simp only [Buffer.base, Buffer.size] at hk ⊢ <;> omega
  have hrun : inRun b.base b.size (b.base + 4 * k) := ⟨by omega, by omega⟩
  have htoNat : (BitVec.ofNat 12 (b.base + 4 * k)).toNat = b.base + 4 * k := by
    rw [BitVec.toNat_ofNat, Nat.mod_eq_of_lt hbound.1]
  have h4 : (BitVec.ofNat 12 (b.base + 4 * k)).toNat % 4 = 0 := by
    rw [htoNat]
    exact hbound.2
  have hloc : locate (BitVec.ofNat 12 (b.base + 4 * k)).toNat = .buf b (b.base + 4 * k) := by
    rw [htoNat]
    exact locate_eq_buf.mpr ⟨rfl, hrun⟩
  have hopen : frozenByLock (.buf b (b.base + 4 * k)) = false ∧
      (∀ s, writeLoc v s (.buf b (b.base + 4 * k)) = writeBytes (b.base + 4 * k) (lanes v) s) ∧
      ∀ s, readLoc s (.buf b (b.base + 4 * k)) = wordAt s (b.base + 4 * k) := by
    simp only [List.mem_cons, List.not_mem_nil, or_false] at hb
    obtain rfl | rfl | rfl | rfl := hb <;> exact ⟨rfl, fun _ => rfl, fun _ => rfl⟩
  obtain ⟨hfrozen, hwrite, hread⟩ := hopen
  have hbytes := byteAt_writeWord hrun hbound.2 v s
  refine ⟨(writeBytes (b.base + 4 * k) (lanes v) s).mem, ?_, hbytes, ?_⟩
  · rw [access_write h4, hloc, busWrite_idle hbusy fun _ => hfrozen, hwrite]
    rfl
  · have hword : wordAt (writeBytes (b.base + 4 * k) (lanes v) s) (b.base + 4 * k) = v :=
      wordAt_of_lanes fun x hx => (hbytes x).trans (if_pos hx)
    refine (access_read_idle (s := writeBytes (b.base + 4 * k) (lanes v) s) hbusy h4).trans ?_
    rw [hloc, hread]
    exact congrArg (fun w => reply (.read .okay w) (writeBytes (b.base + 4 * k) (lanes v) s)) hword

/-! ## The read-only and reserved locations -/

/-- R19's read-only and reserved offsets. -/
theorem writeLoc_readOnly {n : Nat} (h4 : n % 4 = 0) (h : n = 0 ∨ inRun 0x030 0x24 n ∨ inRun 0x058 0x18 n ∨
    inRun 0x0C0 0x40 n ∨ inRun 0x180 0x80 n ∨ 0x400 ≤ n) (v : Word) (s : State) : writeLoc v s (locate n) = s := by
  obtain ⟨k, rfl⟩ : ∃ k, n = 4 * k := ⟨n / 4, by omega⟩
  rcases h with h | ⟨hle, hlt⟩ | ⟨hle, hlt⟩ | h
  · rw [h]
    rfl
  · have h1 : 12 ≤ k := by omega
    have h2 : k < 21 := by omega
    interval_cases k <;> rfl
  · have h1 : 22 ≤ k := by omega
    have h2 : k < 28 := by omega
    interval_cases k <;> rfl
  · rw [locate_eq_reserved (.inr h)]
    rfl

/-- Settles O17: each clause is a lookup in the register map. -/
theorem readOnlyAndReservedIgnoreWrites : Obligations.ReadOnlyAndReservedIgnoreWrites := by
  intro s a v hbusy h4
  refine ⟨fun h => ?_, ?_, ?_, fun h => ?_⟩
  · have hzero : a = 0x000#12 → a.toNat = 0 := fun h => congrArg BitVec.toNat h
    rw [access_write h4, busWrite_ignored hbusy (writeLoc_readOnly h4 (h.imp_left hzero) v s)]
    rfl
  · rw [access_read_idle hbusy h4, readLoc_locate s a h4]
    rfl
  · rintro rfl
    exact access_read_idle hbusy h4
  · have hreserved : a = 0x05C#12 → a.toNat = 0x05C := fun h => congrArg BitVec.toNat h
    rw [access_read_idle hbusy h4, locate_eq_reserved (h.imp_left hreserved)]
    rfl

/-! ## The read-write registers -/

/-- The read-write registers with the bits of their fields (R26 to R33, R41). -/
def fieldMasks : List (Loc × Word) :=
  [ (.config, 0x13F#32), (.tstep, 0xFFFFFFFF#32), (.keyLen, 0xFF#32), (.ctrLo, 0xFFFFFFFF#32), (.ctrHi, 0xFFFFFFFF#32),
    (.timeLo, 0xFFFFFFFF#32), (.timeHi, 0xFFFFFFFF#32), (.candLen, 0x1F#32), (.srcLen, 0x1FF#32), (.irqEn, 0x1#32) ]

/-- A field in the low bits of its register (R49). -/
theorem setWidth_lowBits (v : Word) {n : Nat} (hn : n ≤ 32) :
    (v.extractLsb' 0 n).setWidth 32 = v &&& BitVec.ofNat 32 (2 ^ n - 1) := by
  have hlt : 2 ^ n - 1 < 2 ^ 32 := Nat.sub_one_lt_of_le (Nat.two_pow_pos n) (Nat.pow_le_pow_right (by decide) hn)
  have hmod : v.toNat % 2 ^ n < 2 ^ 32 := (Nat.mod_le _ _).trans_lt v.isLt
  apply BitVec.eq_of_toNat_eq
  rw [BitVec.toNat_setWidth, BitVec.extractLsb'_toNat, Nat.shiftRight_zero, Nat.mod_eq_of_lt hmod, BitVec.toNat_and,
    BitVec.toNat_ofNat, Nat.mod_eq_of_lt hlt, Nat.and_two_pow_sub_one_eq_mod]

theorem setWidth_irqEn (v : Word) : (BitVec.ofBool (v.getLsbD 0)).setWidth 32 = v &&& 0x1#32 := by
  have hbit : BitVec.ofBool (v.getLsbD 0) = v.extractLsb' 0 1 := by
    ext i hi
    obtain rfl : i = 0 := by omega
    simp
  rw [hbit]
  exact setWidth_lowBits v (by decide)

theorem configWord_fields (v : Word) :
    (BitVec.ofBool (v.getLsbD 8) ++ 0#2 ++ v.extractLsb' 4 2 ++ v.extractLsb' 0 4).setWidth 32 = v &&& 0x13F#32 := by
  refine BitVec.eq_of_getLsbD_eq fun i hi => ?_
  rw [BitVec.getLsbD_setWidth, BitVec.getLsbD_and, BitVec.getLsbD_append, BitVec.getLsbD_append, BitVec.getLsbD_append]
  interval_cases i <;> simp

/-- A read-write register reads back the bits of its fields (R49). -/
theorem readLoc_writeLoc_same : ∀ p ∈ fieldMasks, ∀ v s, readLoc (writeLoc v s p.1) p.1 = v &&& p.2 := by
  intro p hp v s
  have hfull : v = v &&& 0xFFFFFFFF#32 := (BitVec.and_allOnes).symm
  unfold fieldMasks at hp
  fin_cases hp
  · exact configWord_fields v
  · exact hfull
  · exact setWidth_lowBits v (n := 8) (by decide)
  · exact hfull
  · exact hfull
  · exact hfull
  · exact hfull
  · exact setWidth_lowBits v (n := 5) (by decide)
  · exact setWidth_lowBits v (n := 9) (by decide)
  · exact setWidth_irqEn v

theorem readLoc_buf_congr {s t : State} (hmem : s.mem = t.mem) (hepoch : s.epoch = t.epoch) (b : Buffer) (a : Nat) :
    readLoc s (.buf b a) = readLoc t (.buf b a) := by
  have hword : wordAt s a = wordAt t a := by simp only [wordAt, byteAt_congr hmem hepoch]
  cases b with
  | key => rfl
  | _ => exact hword

/-- Nothing but the read-write registers changes. -/
theorem writeLoc_frame : ∀ p ∈ fieldMasks, ∀ v s, let t := writeLoc v s p.1
    t = { s with
      digits := t.digits, alg := t.alg, strictLen := t.strictLen, tstep := t.tstep, keyLen := t.keyLen, ctrLo := t.ctrLo
      ctrHi := t.ctrHi, timeLo := t.timeLo, timeHi := t.timeHi, candLen := t.candLen, srcLen := t.srcLen
      irqEn := t.irqEn } := by
  intro p hp v s
  unfold fieldMasks at hp
  fin_cases hp <;> rfl

/-- A write to a read-write register changes no other location's value. -/
theorem readLoc_writeLoc_other {p : Loc × Word} (hp : p ∈ fieldMasks) {l : Loc} (hne : l ≠ p.1) (v : Word) (s : State) :
    readLoc (writeLoc v s p.1) l = readLoc s l := by
  cases l with
  | buf b a =>
    have hmem := congrArg State.mem (writeLoc_frame p hp v s)
    have hepoch := congrArg State.epoch (writeLoc_frame p hp v s)
    exact readLoc_buf_congr (t := s) hmem hepoch b a
  | _ =>
    unfold fieldMasks at hp
    fin_cases hp <;> simp_all [readLoc, writeLoc, statusWord, configWord]

theorem readLoc_reply (r : Reply) (s : State) (l : Loc) : readLoc (reply r s) l = readLoc s l := by
  cases l with
  | buf b a => exact readLoc_buf_congr (s := reply r s) (t := s) rfl rfl b a
  | _ => rfl

theorem isRegister_of_fieldMasks : ∀ p ∈ fieldMasks, IsRegister p.1 := by
  simp [fieldMasks, IsRegister]

/-- No two offsets hold one register. -/
theorem locate_injective {m n : Nat} (hm : IsRegister (locate m)) (h : locate n = locate m) : n = m := by
  have hmap : ∀ p ∈ registerMap, ∀ q ∈ registerMap, p.2 = q.2 → p.1 = q.1 := by decide
  exact hmap _ ((locate_eq_register hm).mp h) _ ((locate_eq_register hm).mp rfl) rfl

/-- The read-write registers' offsets, with the bits of their fields. -/
def fieldMaskAt : List (BitVec 12 × Word) :=
  [ (0x00C#12, 0x13F#32), (0x010#12, 0xFFFFFFFF#32), (0x014#12, 0xFF#32), (0x018#12, 0xFFFFFFFF#32),
    (0x01C#12, 0xFFFFFFFF#32), (0x020#12, 0xFFFFFFFF#32), (0x024#12, 0xFFFFFFFF#32), (0x028#12, 0x1F#32),
    (0x02C#12, 0x1FF#32), (0x054#12, 0x1#32) ]

theorem fieldMaskAt_locate : ∀ p ∈ fieldMaskAt, p.1.toNat % 4 = 0 ∧ (locate p.1.toNat, p.2) ∈ fieldMasks ∧
    (p.1 ∉ [0x00C#12, 0x010#12, 0x014#12] → frozenByLock (locate p.1.toNat) = false) := by
  intro p hp
  unfold fieldMaskAt at hp
  fin_cases hp <;> decide

/-- Settles O15: the register's own read gives the field bits back, and the frame is that of the location's write. -/
theorem registerKeepsItsFieldBits : Obligations.RegisterKeepsItsFieldBits := by
  intro s a mask v hbusy hlock ha
  obtain ⟨h4, hmask, hopen⟩ := fieldMaskAt_locate (a, mask) ha
  have haccess : access (.write .word a v) s = reply (.write .okay) (writeLoc v s (locate a.toNat)) := by
    rw [access_write h4, busWrite_idle hbusy fun hl => hopen (hlock hl)]
  have hframe := writeLoc_frame _ hmask v s
  have hidle : (reply (.write .okay) (writeLoc v s (locate a.toNat))).busy = false :=
    (congrArg State.busy hframe).trans hbusy
  have hother : ∀ l, l ≠ locate a.toNat →
      readLoc (reply (.write .okay) (writeLoc v s (locate a.toNat))) l = readLoc s l := fun l hl => by
    rw [readLoc_reply, readLoc_writeLoc_other hmask hl]
  simp only [haccess]
  refine ⟨?_, fun b hb hne => ?_, hother, ?_⟩
  · rw [access_read_idle hidle h4, readLoc_reply, readLoc_writeLoc_same _ hmask]
    rfl
  · have hloc : locate b.toNat ≠ locate a.toNat := fun h =>
      hne (BitVec.eq_of_toNat_eq (locate_injective (isRegister_of_fieldMasks _ hmask) h))
    rw [access_read_idle hidle hb, hother _ hloc, readLoc_locate s b hb]
    rfl
  · exact congrArg (reply (.write .okay)) hframe

/-! ## Reads while a command runs -/

/-- Settles O19: KEY's words are in no write set that R64 leaves unspecified, and they read 0. -/
theorem keyReadsZero : Obligations.KeyReadsZero := by
  intro s a h4 hrun
  have hloc : locate a.toNat = .buf .key a.toNat := locate_eq_buf.mpr ⟨rfl, hrun⟩
  have hexact : unspecifiedRead s (locate a.toNat) = false := by simp [unspecifiedRead, hloc, keyWord]
  rw [access_read_exact h4 hexact, hloc]
  rfl

theorem commandWrites_status (s : State) (i : Instr) : commandWrites s .status i = false := by cases i <;> rfl

/-- STATUS is in no write set (R64). -/
theorem unspecifiedRead_status (s : State) : unspecifiedRead s .status = false := by
  unfold unspecifiedRead
  cases decode s.cmd with
  | ok i => simp [commandWrites_status]
  | error x => simp

/-- Settles O20: a STATUS read is exact, and the invariant fixes DONE, ERR and ERRCODE while BUSY = 1. -/
theorem statusIsExactWhileBusy : Obligations.StatusIsExactWhileBusy := by
  intro s
  have hread : access (.read .word 0x004#12) s = reply (.read .okay (statusWord s)) s :=
    access_read_exact rfl (unspecifiedRead_status s)
  refine ⟨?_, fun hinv hbusy => ?_⟩
  · rw [hread, statusWord_eq_ofNat]
    rfl
  · obtain ⟨-, ⟨hdone, herr, hcode⟩, -⟩ := Invariant.busy_of_inv hinv (hinv.busy_phase.mp hbusy)
    have hword : statusWord s = 1#32 ||| (if s.matched then 8#32 else 0#32) ||| (if s.lock then 16#32 else 0#32) |||
        (if s.ovr then 32#32 else 0#32) := by
      rw [statusWord, hbusy, hdone, herr, hcode]
      cases s.matched <;> cases s.lock <;> cases s.ovr <;> rfl
    rw [hread, hword]
    rfl

/-! ## The write sets, in offsets -/

theorem codeResult_iff (l : Loc) :
    codeResult l = true ↔ l = .otp ∨ l = .binary ∨ l = .offset ∨ ∃ a, l = .buf .code a := by
  cases l with
  | buf b a => cases b <;> simp [codeResult]
  | _ => simp [codeResult]

theorem keyWord_iff (l : Loc) : keyWord l = true ↔ ∃ a, l = .buf .key a := by
  cases l with
  | buf b a => cases b <;> simp [keyWord]
  | _ => simp [keyWord]

theorem clearResult_iff (l : Loc) : clearResult l = true ↔
    l = .keyLen ∨ l = .dstLen ∨ l = .remain ∨ codeResult l = true ∨ mctrResult l = true ∨ tctrResult l = true ∨
      (∃ a, l = .buf .digest a) ∨ keyWord l = true ∨ (∃ a, l = .buf .bufA a) ∨ ∃ a, l = .buf .bufB a := by
  cases l with
  | buf b a => cases b <;> simp [clearResult, codeResult, keyWord]
  | _ => simp [clearResult, codeResult, mctrResult, tctrResult, keyWord]

theorem keyWord_locate (n : Nat) : keyWord (locate n) = true ↔ inRun 0x100 128 n :=
  (keyWord_iff _).trans locate_eq_some_buf

/-- The single registers of the write sets (R19, R52). -/
theorem locate_results (n : Nat) :
    (locate n = .keyLen ↔ n = 0x014) ∧ (locate n = .dstLen ↔ n = 0x030) ∧ (locate n = .otp ↔ n = 0x034) ∧
    (locate n = .binary ↔ n = 0x038) ∧ (locate n = .offset ↔ n = 0x03C) ∧ (locate n = .mctrLo ↔ n = 0x040) ∧
    (locate n = .mctrHi ↔ n = 0x044) ∧ (locate n = .tctrLo ↔ n = 0x048) ∧ (locate n = .tctrHi ↔ n = 0x04C) ∧
    (locate n = .remain ↔ n = 0x050) ∧ (locate n = .errInfo ↔ n = 0x058) := by
  refine ⟨?_, ?_, ?_, ?_, ?_, ?_, ?_, ?_, ?_, ?_, ?_⟩ <;>
    refine (locate_eq_register ?_).trans ?_ <;> simp [IsRegister, registerMap]

theorem codeResult_locate (n : Nat) :
    codeResult (locate n) = true ↔ n ∈ [0x034, 0x038, 0x03C] ∨ inRun 0x060 16 n := by
  obtain ⟨-, -, hotp, hbinary, hoffset, -⟩ := locate_results n
  have hcode : (∃ a, locate n = .buf .code a) ↔ inRun 0x060 16 n := locate_eq_some_buf
  rw [codeResult_iff, hotp, hbinary, hoffset, hcode]
  simp only [List.mem_cons, List.not_mem_nil, or_false, or_assoc]

theorem mctrResult_locate (n : Nat) : mctrResult (locate n) = true ↔ n ∈ [0x040, 0x044] := by
  obtain ⟨-, -, -, -, -, hlo, hhi, -⟩ := locate_results n
  simp [mctrResult, hlo, hhi]

theorem tctrResult_locate (n : Nat) : tctrResult (locate n) = true ↔ n ∈ [0x048, 0x04C] := by
  obtain ⟨-, -, -, -, -, -, -, hlo, hhi, -⟩ := locate_results n
  simp [tctrResult, hlo, hhi]

/-- DL by the value of ALG (R26, R116). -/
theorem digestExtent_eq (s : State) : digestExtent s = [20, 32, 64].getD s.alg.toNat 0 := by
  have halg : ∀ a : BitVec 2, (match hashAlg a with | some h => digestLen h | none => 0) = [20, 32, 64].getD a.toNat 0 := by
    decide
  exact halg s.alg

theorem digestExtent_le (s : State) : digestExtent s ≤ 64 := by
  have hle : ∀ a : BitVec 2, [20, 32, 64].getD a.toNat 0 ≤ 64 := by decide
  exact digestExtent_eq s ▸ hle s.alg

theorem digestResult_iff (s : State) (l : Loc) :
    digestResult s l = true ↔ ∃ a, l = .buf .digest a ∧ a < Buffer.digest.base + digestExtent s := by
  cases l with
  | buf b a => cases b <;> simp [digestResult, inFirst]
  | _ => simp [digestResult]

theorem digestResult_locate (s : State) (n : Nat) :
    digestResult s (locate n) = true ↔ inRun 0x080 ([20, 32, 64].getD s.alg.toNat 0) n := by
  have hle := digestExtent_le s
  rw [digestResult_iff, ← digestExtent_eq]
  simp only [locate_eq_buf, Buffer.base, Buffer.size, and_assoc, exists_eq_left]
  omega

theorem bufBResult_iff (k : Nat) (l : Loc) : bufBResult k l = true ↔ ∃ a, l = .buf .bufB a ∧ a < Buffer.bufB.base + k := by
  cases l with
  | buf b a => cases b <;> simp [bufBResult, inFirst]
  | _ => simp [bufBResult]

theorem bufBResult_locate (k n : Nat) : bufBResult k (locate n) = true ↔ inRun 0x300 256 n ∧ n < 0x300 + k := by
  rw [bufBResult_iff]
  simp only [locate_eq_buf, Buffer.base, Buffer.size, and_assoc, exists_eq_left]

theorem clearResult_locate (n : Nat) : clearResult (locate n) = true ↔
    n ∈ [0x014, 0x030, 0x050] ∨ (n ∈ [0x034, 0x038, 0x03C] ∨ inRun 0x060 16 n) ∨ n ∈ [0x040, 0x044] ∨
      n ∈ [0x048, 0x04C] ∨ inRun 0x080 64 n ∨ inRun 0x100 128 n ∨ inRun 0x200 0x200 n := by
  obtain ⟨hkeyLen, hdstLen, -, -, -, -, -, -, -, hremain, -⟩ := locate_results n
  rw [clearResult_iff, codeResult_locate, mctrResult_locate, tctrResult_locate, keyWord_locate, hkeyLen, hdstLen, hremain]
  simp only [locate_eq_some_buf, Buffer.base, Buffer.size, List.mem_cons, List.not_mem_nil, or_false]
  omega

/-- R64's exception and R52's rows, as the specification writes them in offsets. -/
theorem unspecifiedRead_locate {s : State} (hbusy : s.busy = true) (n : Nat) :
    unspecifiedRead s (locate n) = true ↔ inWriteSet s n := by
  obtain ⟨hkeyLen, hdstLen, -, -, -, -, -, -, -, hremain, herrInfo⟩ := locate_results n
  have hdigest := digestResult_locate s n
  have hdl : [20, 32, 64].getD s.alg.toNat 0 ≤ 64 := digestExtent_eq s ▸ digestExtent_le s
  have hset : unspecifiedRead s (locate n) = true ↔ ¬ inRun 0x100 128 n ∧ (n = 0x058 ∨
      ∃ i, decode s.cmd = .ok i ∧ commandWrites s (locate n) i = true) := by
    simp only [unspecifiedRead, hbusy, Bool.true_and, Bool.and_eq_true, Bool.not_eq_true', Bool.or_eq_true, beq_iff_eq,
      herrInfo, ← Bool.not_eq_true, keyWord_locate]
    cases decode s.cmd <;> simp
  rw [hset]
  unfold inWriteSet
  cases decode s.cmd with
  | error x =>
    simp only [reduceCtorEq, false_and, exists_false, or_false]
    omega
  | ok i =>
    simp only [Except.ok.injEq, exists_eq_left']
    cases i <;> simp only [commandWrites, Bool.or_eq_true, beq_iff_eq, Bool.false_eq_true, codeResult_locate,
      mctrResult_locate, tctrResult_locate, hdigest, bufBResult_locate, clearResult_locate, keyWord_locate, hkeyLen,
      hdstLen, hremain, encodeLength, decodeLength, sourceOf, List.mem_cons, List.not_mem_nil, or_false] <;>
      generalize [20, 32, 64].getD s.alg.toNat 0 = dl at hdl <;> omega

/-- Settles O21: the read is free exactly where the location is in the write set. -/
theorem busyReadIsFreeExactlyInTheWriteSet : Obligations.BusyReadIsFreeExactlyInTheWriteSet := by
  intro s a hbusy h4
  have hset := unspecifiedRead_locate hbusy a.toNat
  refine ⟨fun h => ?_, fun h => ?_⟩
  · rw [access_read_free h4 (hset.mpr h)]
    rfl
  · rw [access_read_exact h4 (Bool.eq_false_iff.mpr (mt hset.mp h)), readLoc_locate s a h4]
    rfl

/-! ## KEY and the host -/

/-- Two states that differ in the bytes of KEY alone, as one state with two memories. -/
theorem sameButKey_iff {s t : State} : s.sameButKey t ↔ ∃ m, t = { s with mem := m } ∧
    ∀ a, ¬ inRun Buffer.key.base Buffer.key.size a → byteAt { s with mem := m } a = byteAt s a := by
  constructor
  · rintro ⟨ht, hb⟩
    exact ⟨t.mem, ht, fun a ha => (congrArg (byteAt · a) ht).symm.trans (hb a ha)⟩
  · rintro ⟨m, rfl, hb⟩
    exact ⟨rfl, hb⟩

theorem sourceOf_of_sameButKey {s t : State} (h : s.sameButKey t) : sourceOf t = sourceOf s := by
  obtain ⟨m, rfl, hb⟩ := sameButKey_iff.mp h
  refine List.map_congr_left fun k _ => hb _ ?_
  simp only [Buffer.base, Buffer.size]
  omega

theorem unspecifiedRead_of_sameButKey {s t : State} (h : s.sameButKey t) (l : Loc) :
    unspecifiedRead t l = unspecifiedRead s l := by
  have hwrites : ∀ i, commandWrites t l i = commandWrites s l i := fun i => by
    have hsrc := sourceOf_of_sameButKey h
    obtain ⟨m, rfl, -⟩ := sameButKey_iff.mp h
    cases i with
    | b32Dec => simp only [commandWrites, decodeLength, hsrc]
    | _ => rfl
  obtain ⟨m, rfl, -⟩ := sameButKey_iff.mp h
  simp only [unspecifiedRead, hwrites]

/-- What a host read of a location returns does not depend on KEY (R46). -/
theorem readLoc_of_sameButKey {s t : State} (h : s.sameButKey t) (n : Nat) : readLoc t (locate n) = readLoc s (locate n) := by
  obtain ⟨m, rfl, hb⟩ := sameButKey_iff.mp h
  cases hl : locate n with
  | buf b a =>
    obtain ⟨rfl, hrun⟩ := locate_eq_buf.mp hl
    have hword : b ≠ .key → wordAt { s with mem := m } a = wordAt s a := fun hkey => by
      have hout : ∀ k < 4, ¬ inRun Buffer.key.base Buffer.key.size (a + k) := fun k hk => by
        cases b <;> simp only [ne_eq, reduceCtorEq, not_true_eq_false, Buffer.base, Buffer.size] at hkey hrun ⊢ <;> omega
      have hbyte : ∀ k < 4, byteAt { s with mem := m } (a + k) = byteAt s (a + k) := fun k hk => hb _ (hout k hk)
      have hlow : byteAt { s with mem := m } a = byteAt s a := hbyte 0 (by decide)
      simp only [wordAt, hlow, hbyte 1 (by decide), hbyte 2 (by decide), hbyte 3 (by decide)]
    cases b with
    | key => rfl
    | _ => exact hword (by decide)
  | _ => rfl

theorem byteAt_writeBytes_congr {s t : State} (hepoch : t.epoch = s.epoch) {x : Nat} (h : byteAt t x = byteAt s x) (a : Nat)
    (bs : List Byte) : byteAt (writeBytes a bs t) x = byteAt (writeBytes a bs s) x := by
  by_cases hx : a ≤ x ∧ x < a + bs.length
  · simp only [byteAt, writeBytes, Memory.read_write, if_pos hx, hepoch]
  · have hout : x < a ∨ a + bs.length ≤ x := by omega
    rw [byteAt_writeBytes_outside hout, byteAt_writeBytes_outside hout, h]

theorem sameButKey_writeBytes {s t : State} (h : s.sameButKey t) (a : Nat) (bs : List Byte) :
    (writeBytes a bs s).sameButKey (writeBytes a bs t) := by
  obtain ⟨m, rfl, hb⟩ := sameButKey_iff.mp h
  exact ⟨rfl, fun x hx => byteAt_writeBytes_congr (s := s) (t := { s with mem := m }) rfl (hb x hx) a bs⟩

theorem sameButKey_writeLoc {s t : State} (h : s.sameButKey t) (v : Word) (l : Loc) :
    (writeLoc v s l).sameButKey (writeLoc v t l) := by
  cases l with
  | buf b a =>
    cases b with
    | code => exact h
    | _ => exact sameButKey_writeBytes h a (lanes v)
  | _ =>
    obtain ⟨m, rfl, hb⟩ := sameButKey_iff.mp h
    exact ⟨rfl, hb⟩

theorem sameButKey_reply {s t : State} (h : s.sameButKey t) (r : Reply) : (reply r s).sameButKey (reply r t) := by
  obtain ⟨m, rfl, hb⟩ := sameButKey_iff.mp h
  exact ⟨rfl, hb⟩

theorem sameButKey_busWrite {s t : State} (h : s.sameButKey t) (v : Word) (l : Loc) :
    (busWrite l v s).sameButKey (busWrite l v t) := by
  have hwrite := sameButKey_writeLoc h v l
  obtain ⟨m, rfl, hb⟩ := sameButKey_iff.mp h
  unfold busWrite
  dsimp only
  split
  · exact ⟨rfl, hb⟩
  · split
    · exact h
    · exact hwrite

/-- The host's reply to a read of a location, and the state after it, tell nothing of KEY (R46, R64). -/
theorem sameButKey_busRead {s t : State} (h : s.sameButKey t) (n : Nat) :
    (busRead (locate n) t).1 = (busRead (locate n) s).1 ∧
      (busRead (locate n) s).2.sameButKey (busRead (locate n) t).2 := by
  have hread := readLoc_of_sameButKey h n
  unfold busRead
  rw [unspecifiedRead_of_sameButKey h]
  split
  · obtain ⟨m, rfl, hb⟩ := sameButKey_iff.mp h
    exact ⟨rfl, rfl, hb⟩
  · exact ⟨hread, h⟩

/-- Settles O22: a read returns the same in both states, and a write changes them alike. -/
theorem hostLearnsNothingOfKey : Obligations.HostLearnsNothingOfKey := by
  intro s t x h
  cases x with
  | read w a =>
    simp only [access]
    split
    · obtain ⟨hvalue, hstate⟩ := sameButKey_busRead h a.toNat
      rw [hvalue]
      exact sameButKey_reply hstate _
    · exact sameButKey_reply h _
  | write w a v =>
    simp only [access]
    split
    · exact sameButKey_reply (sameButKey_busWrite h v _) _
    · exact sameButKey_reply h _

end Sys2Proof.Proofs.Window
end

section
/-! PROOFS. Host accesses and the busy rule (20_memory.md R56, R61, R63, R65): what a refused access, a read, and an access
while BUSY = 1 can change. -/

namespace Sys2Proof.Proofs.BusyRule

open Sys2Proof.Machine Sys2Proof.Proofs.Window

/-! ## Refused accesses and reads -/

/-- OTPE refuses every access of another width or at a misaligned offset (R56). -/
theorem admitted_eq_false {w : Width} {a : BitVec 12} (h : w ≠ .word ∨ a.toNat % 4 ≠ 0) : admitted w a = false := by
  rw [admitted, Bool.and_eq_false_iff]
  refine h.imp (fun hw => beq_false_of_ne hw) fun ha => beq_false_of_ne fun hlow => ha ?_
  have hnat := congrArg BitVec.toNat hlow
  rwa [BitVec.extractLsb'_toNat, Nat.shiftRight_zero] at hnat

/-- Settles O10: such an access is not admitted, and the refusal looks at nothing else. -/
theorem refusedAccessHasNoEffect : Obligations.RefusedAccessHasNoEffect := by
  intro s w a v h
  have hno := admitted_eq_false h
  constructor
  · simp [access, hno, reply]
  · simp [access, hno, reply]

/-- Settles O18: only a draw of a free word, which BUSY = 1 alone allows, leaves a trace beside the reply. -/
theorem hostReadHasNoSideEffect : Obligations.HostReadHasNoSideEffect := by
  intro s w a
  simp only [access]
  split
  · cases hfree : unspecifiedRead s (locate a.toNat) with
    | true =>
      refine ⟨s.draws + 1, .read .okay (Config.freeWord s.draws), by simp [busRead, hfree, reply], fun hidle => ?_⟩
      rw [unspecifiedRead_of_idle hidle] at hfree
      cases hfree
    | false => exact ⟨s.draws, .read .okay (readLoc s (locate a.toNat)), by simp [busRead, hfree, reply], fun _ => rfl⟩
  · exact ⟨s.draws, .read .error 0#32, rfl, fun _ => rfl⟩

/-! ## Accesses while BUSY = 1 -/

/-- While BUSY = 1 a write reaches STATUS and IRQ_EN, which no lock freezes, and is dropped elsewhere (R63). -/
theorem busWrite_of_busy {s : State} (hbusy : s.busy = true) (l : Loc) (v : Word) :
    busWrite l v s = if openWhileBusy l then writeLoc v s l else flagDropped s := by
  cases l with
  | status | irqEn => simp [busWrite, openWhileBusy, frozenByLock]
  | _ => simp [busWrite, hbusy, openWhileBusy]

/-- The two offsets that stay open (R19, R63). -/
theorem openWhileBusy_locate {a : BitVec 12} (h4 : a ≠ 0x004#12) (h54 : a ≠ 0x054#12) :
    openWhileBusy (locate a.toNat) = false := by
  have hstatus : locate a.toNat ≠ .status := by
    rw [Ne, locate_eq_register (show IsRegister .status from trivial)]
    simpa [registerMap, ← BitVec.toNat_inj] using h4
  have hirqEn : locate a.toNat ≠ .irqEn := by
    rw [Ne, locate_eq_register (show IsRegister .irqEn from trivial)]
    simpa [registerMap, ← BitVec.toNat_inj] using h54
  cases hl : locate a.toNat with
  | status => exact absurd hl hstatus
  | irqEn => exact absurd hl hirqEn
  | _ => rfl

/-- Settles O11: the write rule while BUSY = 1, at the closed offsets and at the two open ones. -/
theorem busyWriteIsDropped : Obligations.BusyWriteIsDropped := by
  intro s a v hbusy ha
  refine ⟨fun h4 h54 => ?_, ?_, ?_⟩
  · rw [access_write ha, busWrite_of_busy hbusy, openWhileBusy_locate h4 h54]
    rfl
  · rw [access_write rfl, busWrite_of_busy hbusy]
    rfl
  · rw [access_write rfl, busWrite_of_busy hbusy]
    rfl

/-- `t` is `s` but for what the host and its accesses can change while BUSY = 1: the flags it acknowledges, OVR, IRQ_EN, the
count of free values, its program and replies, and the turns to come. -/
def HostOnly (s t : State) : Prop :=
  ∃ d e c o q n p ts rs, t = { s with
    done := d, err := e, errCode := c, ovr := o, irqEn := q, draws := n, program := p, schedule := ts, replies := rs }

theorem HostOnly.refl (s : State) : HostOnly s s := ⟨_, _, _, _, _, _, _, _, _, rfl⟩

theorem HostOnly.trans {s t u : State} (h : HostOnly s t) (h' : HostOnly t u) : HostOnly s u := by
  obtain ⟨_, _, _, _, _, _, _, _, _, rfl⟩ := h
  obtain ⟨_, _, _, _, _, _, _, _, _, rfl⟩ := h'
  exact ⟨_, _, _, _, _, _, _, _, _, rfl⟩

theorem HostOnly.operandsOf {s t : State} (h : HostOnly s t) : operandsOf t = operandsOf s := by
  obtain ⟨_, _, _, _, _, _, _, _, _, rfl⟩ := h
  rfl

theorem HostOnly.busy {s t : State} (h : HostOnly s t) : t.busy = s.busy := by
  obtain ⟨_, _, _, _, _, _, _, _, _, rfl⟩ := h
  rfl

theorem HostOnly.phase {s t : State} (h : HostOnly s t) : t.phase = s.phase := by
  obtain ⟨_, _, _, _, _, _, _, _, _, rfl⟩ := h
  rfl

theorem HostOnly.request {s t : State} (h : HostOnly s t) : t.request = s.request := by
  obtain ⟨_, _, _, _, _, _, _, _, _, rfl⟩ := h
  rfl

theorem hostOnly_busWrite {s : State} (hbusy : s.busy = true) (l : Loc) (v : Word) : HostOnly s (busWrite l v s) := by
  rw [busWrite_of_busy hbusy]
  cases l <;> exact ⟨_, _, _, _, _, _, _, _, _, rfl⟩

theorem hostOnly_access {s : State} (hbusy : s.busy = true) (x : Access) : HostOnly s (access x s) := by
  cases x with
  | read w a =>
    obtain ⟨n, r, haccess, -⟩ := hostReadHasNoSideEffect s w a
    exact ⟨_, _, _, _, _, _, _, _, _, haccess⟩
  | write w a v =>
    simp only [access]
    split
    · exact (hostOnly_busWrite hbusy _ v).trans ⟨_, _, _, _, _, _, _, _, _, rfl⟩
    · exact ⟨_, _, _, _, _, _, _, _, _, rfl⟩

/-- Settles O58: an access changes none of the operands, which determine the job, and nothing hidden. -/
theorem operandsStandWhileBusy : Obligations.OperandsStandWhileBusy := by
  intro s x i hbusy
  have haccess := hostOnly_access hbusy x
  refine ⟨jobOf_congr i haccess.operandsOf, ?_⟩
  obtain ⟨_, _, _, _, _, _, _, _, _, ht⟩ := haccess
  rw [ht]
  exact ⟨hbusy, rfl, rfl, rfl, rfl, rfl, rfl, rfl, rfl, rfl⟩

/-! ## The host's turn -/

/-- Settles O8: the turn is the host's, and the operation an access. -/
theorem hostTurnPerformsTheNextAccess : Obligations.HostTurnPerformsTheNextAccess := by
  intro s x ops ts hschedule hprogram
  have hstep : step s = hostTurn { s with schedule := ts } := step_of_upcoming (upcoming_of_schedule hschedule)
  constructor
  · intro hreset
    simp [hstep, hostTurn, hprogram, hreset]
  · intro hreset
    simp [hstep, hostTurn, hprogram, hreset]

end Sys2Proof.Proofs.BusyRule
end

section
/-! PROOFS. The word of a command decodes to the command (30_encoding.md R82, R83), and so runs where it is placed
(20_memory.md R69). -/

namespace Sys2Proof.Proofs.Fetch

open Sys2Proof.Machine

/-- Every mask of the opcode map covers OPC (R82), so that a row covers only words with its own OPC. -/
theorem opc_of_covers {v : Word} {r : OpcodeRow} (hr : r ∈ opcodeMap v) (hcovers : r.covers v = true) :
    r.pattern.extractLsb' 0 8 = v.extractLsb' 0 8 := by
  have hmasks : ∀ m ∈ [maskN, maskW], m.extractLsb' 0 8 = BitVec.allOnes 8 := by simp [maskN, maskW]
  have hmap : ∀ r ∈ opcodeMap v, r.mask ∈ [maskN, maskW] := by simp [opcodeMap]
  rw [← beq_iff_eq.mp hcovers, BitVec.extractLsb'_and, hmasks _ (hmap r hr), BitVec.and_allOnes]

/-- No two rows of the opcode map have the same OPC (R82). -/
theorem nodup_opc (v : Word) : ((opcodeMap v).map fun r => r.pattern.extractLsb' 0 8).Nodup := by
  have hopc : ∀ u : Word, ((opcodeMap u).map fun r => r.pattern.extractLsb' 0 8) =
      [0x00#8, 0x01#8, 0x02#8, 0x10#8, 0x11#8, 0x12#8, 0x20#8, 0x21#8, 0x22#8, 0x30#8, 0x31#8, 0x32#8] := fun _ => rfl
  rw [hopc]
  decide

/-- A word decodes to the command of any row that covers it (R83): there is at most one. -/
theorem decode_of_covers {v : Word} {r : OpcodeRow} (hr : r ∈ opcodeMap v) (hcovers : r.covers v = true) :
    decode v = .ok r.instr := by
  obtain ⟨q, hq⟩ := Option.isSome_iff_exists.mp (List.find?_isSome (p := (·.covers v)).mpr ⟨r, hr, hcovers⟩)
  have hmem := List.mem_of_find?_eq_some hq
  have hqcovers : q.covers v = true := by simpa using List.find?_some hq
  have hrow : q = r := List.inj_on_of_nodup_map (nodup_opc v) hmem hr
    ((opc_of_covers hmem hqcovers).trans (opc_of_covers hr hcovers).symm)
  rw [decode, hq, hrow]

/-- The mask of form W takes W out of a word of form W (R79, R82). -/
theorem formW_and_maskW (opc : Byte) (w : Nat) : formW opc w &&& maskW = 0#16 ++ 0#8 ++ opc := by
  have hmask : maskW = 0xFFFF#16 ++ 0#8 ++ BitVec.allOnes 8 := by decide
  rw [hmask, formW, BitVec.and_append, BitVec.and_append, BitVec.and_allOnes, BitVec.and_zero, BitVec.zero_and]

/-- The word of a well-formed command decodes to the command (R82, R83). -/
theorem decode_encode {i : Instr} (h : i.wellFormed = true) : decode (encode i) = .ok i := by
  cases i with
  | hotpVal w =>
    obtain ⟨-, hw, -⟩ := Laws.Encoding.hotpVal w h
    have hrow := decode_of_covers (v := formW 0x22#8 w) (r := ⟨0x22#32, maskW, .hotpVal (windowOf (formW 0x22#8 w))⟩)
      (by simp [opcodeMap]) (beq_iff_eq.mpr (formW_and_maskW _ w))
    exact hrow.trans (congrArg _ (congrArg _ hw))
  | totpVer w =>
    obtain ⟨-, hw, -⟩ := Laws.Encoding.totpVer w h
    have hrow := decode_of_covers (v := formW 0x31#8 w) (r := ⟨0x31#32, maskW, .totpVer (windowOf (formW 0x31#8 w))⟩)
      (by simp [opcodeMap]) (beq_iff_eq.mpr (formW_and_maskW _ w))
    exact hrow.trans (congrArg _ (congrArg _ hw))
  | _ => decide

theorem runCommand_of_decode {s : State} {i : Instr} (hbusy : s.busy = true) (hi : decode s.cmd = .ok i) :
    runCommand s = exec i s := by
  simp [runCommand, hbusy, hi]

/-- Settles O6: the turn that is put first on the schedule runs the word the issue has put in `cmd`. -/
theorem fetchedWordRunsNext : Obligations.FetchedWordRunsNext := by
  intro s i h
  have hword : BitVec.ofNat 32 ((encode i).toNat % 2 ^ 32) = encode i := by
    rw [Nat.mod_eq_of_lt (encode i).isLt, BitVec.ofNat_toNat, BitVec.setWidth_eq]
  rw [State.withFetchWord, hword]
  exact runCommand_of_decode (s := { issue (encode i) s with inReset := false }) rfl (decode_encode h)

end Sys2Proof.Proofs.Fetch
end

section
/-! PROOFS. Progress (20_memory.md R75; 30_encoding.md R94, R100; 70_reset_and_hazards.md R185): every turn that moves a
running command leaves its completion as it was and lowers a measure; every other turn lets the command stand. -/

namespace Sys2Proof.Proofs.Progress

open Sys2Proof.Machine Sys2Proof.Proofs.Completion Sys2Proof.Proofs.Invariant Sys2Proof.Proofs.BusyRule
  Sys2Proof.Proofs.Fetch

/-! ## The measure -/

/-- A bound of the single steps a job has still to take: one for each source byte of the Base32 unit, two for each pass or
generation (its request and its answer), and one for the end. -/
def jobSteps (k : Job) (s : State) : Nat :=
  match k with
  | .encode src => src.length - s.shifter.pos + 1
  | .decode src _ => src.length - s.shifter.pos + 1
  | .generate _ _ _ => if s.staged = [] then (if s.request = none then 3 else 2) else 1
  | .validate _ _ ps _ => 2 * (ps.length - s.j) + (if s.request = none then 2 else 1)
  | _ => 1

/-- The same of a state: of its running command, 0 when idle. -/
def stepsLeft (s : State) : Nat :=
  if s.busy then
    match decode s.cmd with
    | .ok i => jobSteps (jobOf i s) s
    | .error _ => 1
  else 0

theorem jobSteps_pos (k : Job) (s : State) : 0 < jobSteps k s := by
  have hrequest : ∀ n, 0 < n + (if s.request = none then 2 else 1) := fun n => by split <;> omega
  cases k with
  | generate e c pre =>
    simp only [jobSteps]
    split
    · split <;> decide
    · decide
  | validate e t ps pre => exact hrequest _
  | _ => exact Nat.succ_pos _

theorem stepsLeft_of_idle {s : State} (h : s.busy = false) : stepsLeft s = 0 := by simp [stepsLeft, h]

theorem stepsLeft_of_decode {s : State} {i : Instr} (hbusy : s.busy = true) (hi : decode s.cmd = .ok i) :
    stepsLeft s = jobSteps (jobOf i s) s := by
  simp [stepsLeft, hbusy, hi]

theorem stepsLeft_pos {s : State} (hbusy : s.busy = true) : 0 < stepsLeft s := by
  cases hi : decode s.cmd with
  | ok i => exact stepsLeft_of_decode hbusy hi ▸ jobSteps_pos _ s
  | error x => simp [stepsLeft, hbusy, hi]

theorem stepsLeft_of_hostOnly {s t : State} (h : HostOnly s t) : stepsLeft t = stepsLeft s := by
  have hjob := fun i => jobOf_congr i h.operandsOf
  obtain ⟨_, _, _, _, _, _, _, _, _, rfl⟩ := h
  simp only [stepsLeft, hjob, jobSteps]

/-- The source a job has for the Base32 unit. -/
def sourceLength : Job → Nat
  | .encode src => src.length
  | .decode src _ => src.length
  | _ => 0

/-- SRC_LEN is 9 bits wide (R33), and stripping the padding leaves no more (R107). -/
theorem sourceLength_jobOf_le {s : State} (h : s.Inv) (i : Instr) : sourceLength (jobOf i s) ≤ 511 := by
  have hsource : (sourceOf s).length ≤ 511 := by
    rw [sourceOf, bytesOf_length]
    exact Nat.le_of_lt_succ s.srcLen.isLt
  have hstripped := (stripPadding_length (sourceOf s)).trans hsource
  have hengine : ∀ k : Engine → Job, (∀ e, sourceLength (k e) ≤ 511) → sourceLength (withEngine s k) ≤ 511 := fun k hk =>
    withEngine_induction (P := fun k => sourceLength k ≤ 511) h.locked (fun _ _ => Nat.zero_le _) fun e _ => hk e
  have hcandidate : ∀ k : List Byte → Job, (∀ t, sourceLength (k t) ≤ 511) → sourceLength (withCandidate s k) ≤ 511 :=
    fun k hk => withCandidate_induction (P := fun k => sourceLength k ≤ 511) (fun _ _ => Nat.zero_le _) hk
  cases i with
  | nop | clear => exact Nat.zero_le _
  | cfg =>
    simp only [jobOf, jobCfg]
    split
    · exact Nat.zero_le _
    · split <;> exact Nat.zero_le _
  | b32Enc =>
    simp only [jobOf, jobB32Enc]
    split
    · exact Nat.zero_le _
    · exact hsource
  | b32Dec =>
    simp only [jobOf, jobB32Dec]
    split
    · exact Nat.zero_le _
    split
    · exact Nat.zero_le _
    · exact hstripped
  | b32Deck =>
    simp only [jobOf, jobB32Deck]
    split
    · exact Nat.zero_le _
    split
    · exact Nat.zero_le _
    split
    · exact Nat.zero_le _
    split
    · exact Nat.zero_le _
    · exact hstripped
  | trunc | hotpGen | totpGen | totpRem => exact hengine _ fun _ => Nat.zero_le _
  | hotpVal w | totpVer w => exact hengine _ fun _ => hcandidate _ fun _ => Nat.zero_le _

theorem jobSteps_le {k : Job} (s : State) (hsource : sourceLength k ≤ 511) (hpasses : passCount k ≤ 511) :
    jobSteps k s ≤ 1024 := by
  cases k with
  | encode src | decode src dst =>
    simp only [sourceLength] at hsource
    simp only [jobSteps]
    omega
  | generate e c pre =>
    simp only [jobSteps]
    split
    · split <;> decide
    · decide
  | validate e t ps pre =>
    simp only [passCount] at hpasses
    simp only [jobSteps]
    split <;> omega
  | _ => exact (by decide : 1 ≤ 1024)

theorem stepsLeft_le {s : State} (h : s.Inv) : stepsLeft s ≤ 1024 := by
  cases hbusy : s.busy with
  | false => simp [stepsLeft_of_idle hbusy]
  | true =>
    cases hi : decode s.cmd with
    | ok i =>
      rw [stepsLeft_of_decode hbusy hi]
      exact jobSteps_le s (sourceLength_jobOf_le h i) (passCount_le (jobSound_of_decode (sound_of_inv h) hi))
    | error x => simp [stepsLeft, hbusy, hi]

/-! ## A step of a job -/

/-- `t` is the end of the job `k` in `s`, or the job with the same end to come, closer to it. -/
def JobAdvances (k : Job) (s t : State) : Prop :=
  (t.busy = false ∧ runJob k s = .next t) ∨
    (HiddenOnly s t ∧ runJob k t = runJob k s ∧ jobSteps k t < jobSteps k s)

/-- A request is sent once, until it is answered (R71). -/
theorem sendRequest_sendRequest (r : HmacReq) (s : State) : sendRequest r (sendRequest r s) = sendRequest r s := by
  cases h : s.request with
  | none => rw [sendRequest_of_none h, sendRequest_of_some rfl]
  | some q => rw [sendRequest_of_some h, sendRequest_of_some h]

theorem runGenerate_sendRequest {s : State} (hstaged : s.staged = []) (hrequest : s.request = none) (e : Engine) (c : DWord)
    (pre : List Pending) : runGenerate e c pre (sendRequest (passRequest e c) s) = runGenerate e c pre s := by
  have hsent : (sendRequest (passRequest e c) s).staged = [] := by rw [sendRequest_of_none hrequest, hstaged]
  rw [runGenerate, runGenerate, if_pos hsent, if_pos hstaged, sendRequest_sendRequest]

theorem runPasses_sendRequest (e : Engine) (t : List Byte) (pre : List Pending) (c : DWord) (ps : List (Option DWord))
    (s : State) :
    runPasses e t pre (some c :: ps) (sendRequest (passRequest e c) s) = runPasses e t pre (some c :: ps) s := by
  simp only [runPasses, sendRequest_sendRequest]

/-- What a list has from a position on where it has an element. -/
theorem drop_eq_cons {α : Type} {xs : List α} {n : Nat} {x : α} (h : xs[n]? = some x) :
    xs.drop n = x :: xs.drop (n + 1) := by
  obtain ⟨hn, hx⟩ := List.getElem?_eq_some_iff.mp h
  rw [List.drop_eq_getElem_cons hn, hx]

theorem drop_eq_nil {α : Type} {xs : List α} {n : Nat} (h : xs[n]? = none) : xs.drop n = [] :=
  List.drop_eq_nil_of_le (List.getElem?_eq_none_iff.mp h)

theorem stepEncode_advances (src : List Byte) (s : State) : JobAdvances (.encode src) s (stepEncode src s) := by
  unfold stepEncode
  split
  · next b hb =>
    obtain ⟨hpos, -⟩ := List.getElem?_eq_some_iff.mp hb
    refine .inr ⟨⟨_, _, _, _, _, _, _, _, rfl⟩, ?_, ?_⟩
    · simp only [runJob, runEncode, encodeByte_pos, drop_eq_cons hb, List.foldl_cons]
    · simp only [jobSteps, encodeByte_pos]
      omega
  · next hend => exact .inl ⟨rfl, by rw [runJob, runEncode, drop_eq_nil hend, List.foldl_nil]⟩

theorem stepDecode_advances (src : List Byte) (dst : DecodeTo) (s : State) :
    JobAdvances (.decode src dst) s (stepDecode src dst s) := by
  unfold stepDecode
  split
  · next c hc =>
    obtain ⟨hpos, -⟩ := List.getElem?_eq_some_iff.mp hc
    refine .inr ⟨⟨_, _, _, _, _, _, _, _, rfl⟩, ?_, ?_⟩
    · simp only [runJob, runDecode, decodeChar_pos, drop_eq_cons hc, List.foldl_cons]
    · simp only [jobSteps, decodeChar_pos]
      omega
  · next hend => exact .inl ⟨rfl, by rw [runJob, runDecode, drop_eq_nil hend, List.foldl_nil]⟩

/-- A validation's step: the next request, a SKIP passed over, or the commit (R129). -/
theorem stepValidate_advances {s : State} (hrequest : s.request = none) (e : Engine) (t : List Byte)
    (ps : List (Option DWord)) (pre : List Pending) : JobAdvances (.validate e t ps pre) s (stepValidate e ps pre s) := by
  unfold stepValidate
  split
  · next c hc =>
    refine .inr ⟨hiddenOnly_sendRequest _ s, ?_, ?_⟩
    · rw [runJob, runJob, sendRequest_j, drop_eq_cons hc, runPasses_sendRequest]
    · simp [jobSteps, sendRequest_of_none hrequest, hrequest]
  · next hskip =>
    obtain ⟨hj, -⟩ := List.getElem?_eq_some_iff.mp hskip
    refine .inr ⟨⟨_, _, _, _, _, _, _, _, rfl⟩, ?_, ?_⟩
    · rw [runJob, runJob, drop_eq_cons hskip, skipPass_j]
      rfl
    · simp only [jobSteps, skipPass_j, skipPass_request, hrequest, if_true]
      omega
  · next hend => exact .inl ⟨rfl, by rw [runJob, drop_eq_nil hend, runPasses]⟩

/-- A generation's step: its request, or the commit of what the answer has staged (R124). -/
theorem stepGenerate_advances {s t : State} (hrequest : s.request = none) {e : Engine} {c : DWord} {pre : List Pending}
    (h : stepJob (.generate e c pre) s = .next t) : JobAdvances (.generate e c pre) s t := by
  cases h
  split
  next hstaged =>
    refine .inr ⟨hiddenOnly_sendRequest _ s, ?_, ?_⟩
    · rw [runJob, runJob, runGenerate_sendRequest hstaged hrequest]
    · simp [jobSteps, sendRequest_of_none hrequest, hrequest, hstaged]
  next hstaged => exact .inl ⟨rfl, by rw [runJob, runGenerate, if_neg hstaged]⟩

/-- Every internal step brings a job closer to its end, whatever the job. -/
theorem stepJob_advances {k : Job} {s t : State} (hrequest : s.request = none) (h : stepJob k s = .next t) :
    JobAdvances k s t := by
  cases k with
  | unreachable => cases h
  | fail e info | write ws =>
    cases h
    exact .inl ⟨rfl, rfl⟩
  | encode src =>
    cases h
    exact stepEncode_advances src s
  | decode src dst =>
    cases h
    exact stepDecode_advances src dst s
  | generate e c pre => exact stepGenerate_advances hrequest h
  | validate e t ps pre =>
    cases h
    exact stepValidate_advances hrequest e t ps pre

/-! ## An answer -/

section
variable {e : Engine} {c : DWord} {s : State} (hrequest : s.request = some (passRequest e c))
include hrequest

theorem runGenerate_of_fail (hstaged : s.staged = []) (ha : hmacAnswer (passRequest e c) = none) (pre : List Pending) :
    runGenerate e c pre s = hmacFailed s := by
  simp only [runGenerate, if_pos hstaged, sendRequest_of_some hrequest, hrequest, Option.bind_some, ha]

theorem runGenerate_of_answer (hstaged : s.staged = []) {d : List Byte} (ha : hmacAnswer (passRequest e c) = some d)
    (pre : List Pending) :
    runGenerate e c pre s = commit (takeGenerated e pre d s).staged (takeGenerated e pre d s) := by
  simp only [runGenerate, if_pos hstaged, sendRequest_of_some hrequest, hrequest, Option.bind_some, ha]

theorem runPasses_of_fail (ha : hmacAnswer (passRequest e c) = none) (t : List Byte) (pre : List Pending)
    (ps : List (Option DWord)) : runPasses e t pre (some c :: ps) s = hmacFailed s := by
  simp only [runPasses, sendRequest_of_some hrequest, hrequest, Option.bind_some, ha]

theorem runPasses_of_answer {d : List Byte} (ha : hmacAnswer (passRequest e c) = some d) (t : List Byte)
    (pre : List Pending) (ps : List (Option DWord)) :
    runPasses e t pre (some c :: ps) s = runPasses e t pre ps (takePass e t c d s) := by
  simp only [runPasses, sendRequest_of_some hrequest, hrequest, Option.bind_some, ha]

theorem answerGenerate_advances (hstaged : s.staged = []) (pre : List Pending) :
    JobAdvances (.generate e c pre) s (answerJob (.generate e c pre) (hmacAnswer (passRequest e c)) s) := by
  cases ha : hmacAnswer (passRequest e c) with
  | none => exact .inl ⟨rfl, congrArg _ (runGenerate_of_fail hrequest hstaged ha pre)⟩
  | some d =>
    have htaken : (takeGenerated e pre d s).staged ≠ [] := by simp [takeGenerated, generateWrites]
    refine .inr ⟨⟨_, _, _, _, _, _, _, _, rfl⟩, ?_, ?_⟩
    · rw [runJob, runJob, runGenerate_of_answer hrequest hstaged ha]
      exact congrArg _ (if_neg htaken)
    · simp [answerJob, jobSteps, htaken, hstaged, hrequest]

theorem answerValidate_advances {ps : List (Option DWord)} (hc : ps[s.j]? = some (some c)) (t : List Byte)
    (pre : List Pending) :
    JobAdvances (.validate e t ps pre) s (answerJob (.validate e t ps pre) (hmacAnswer (passRequest e c)) s) := by
  obtain ⟨hj, -⟩ := List.getElem?_eq_some_iff.mp hc
  have hrun : runJob (.validate e t ps pre) s = .next (runPasses e t pre (some c :: ps.drop (s.j + 1)) s) := by
    rw [runJob, drop_eq_cons hc]
  cases ha : hmacAnswer (passRequest e c) with
  | none => exact .inl ⟨rfl, hrun.trans (congrArg _ (runPasses_of_fail hrequest ha t pre _))⟩
  | some d =>
    have htake : answerJob (.validate e t ps pre) (some d) s = takePass e t c d s := by simp only [answerJob, hc]
    rw [htake]
    refine .inr ⟨⟨_, _, _, _, _, _, _, _, rfl⟩, ?_, ?_⟩
    · rw [hrun, runPasses_of_answer hrequest ha]
      rfl
    · simp only [jobSteps, takePass, endRequest, hrequest, if_true, reduceCtorEq, if_false]
      omega

end

/-- The answer to the request a job waits for brings the job closer to its end. -/
theorem answerJob_advances {k : Job} {s : State} {r : HmacReq} (hrequest : s.request = some r)
    (hexpects : k.expects s = some r) : JobAdvances k s (answerJob k (hmacAnswer r) s) := by
  cases k with
  | generate e c pre =>
    simp only [Job.expects, Option.ite_none_right_eq_some, Option.some.injEq] at hexpects
    obtain ⟨hstaged, rfl⟩ := hexpects
    exact answerGenerate_advances hrequest hstaged pre
  | validate e t ps pre =>
    simp only [Job.expects] at hexpects
    split at hexpects
    next c hc =>
      cases hexpects
      exact answerValidate_advances hrequest hc t pre
    next => cases hexpects
  | _ => cases hexpects

/-! ## A turn of the sequencer or the core -/

/-- `t` is closer to the completion that a running `s` has to come, or is that completion. -/
def Advances (s t : State) : Prop := runCommand t = runCommand s ∧ stepsLeft t < stepsLeft s

theorem advances_of_completion {s t : State} (hbusy : s.busy = true) (ht : t.busy = false) (hrun : runCommand s = .next t) :
    Advances s t := by
  refine ⟨?_, stepsLeft_of_idle ht ▸ stepsLeft_pos hbusy⟩
  rw [hrun, runCommand, if_neg (Bool.eq_false_iff.mp ht)]

theorem advances_of_job {s t : State} {i : Instr} (hbusy : s.busy = true) (hi : decode s.cmd = .ok i)
    (h : JobAdvances (jobOf i s) s t) : Advances s t := by
  have hrun : runCommand s = runJob (jobOf i s) s := (runCommand_of_decode hbusy hi).trans (exec_eq_runJob i s)
  obtain ⟨ht, hend⟩ | ⟨hhidden, hsame, hless⟩ := h
  · exact advances_of_completion hbusy ht (hrun.trans hend)
  · obtain ⟨hbusy', hi', hoperands⟩ : t.busy = true ∧ decode t.cmd = .ok i ∧ operandsOf t = operandsOf s := by
      obtain ⟨_, _, _, _, _, _, _, _, rfl⟩ := hhidden
      exact ⟨hbusy, hi, rfl⟩
    have hjob := jobOf_congr i hoperands
    refine ⟨?_, ?_⟩
    · rw [hrun, runCommand_of_decode hbusy' hi', exec_eq_runJob, hjob, hsame]
    · rw [stepsLeft_of_decode hbusy' hi', stepsLeft_of_decode hbusy hi, hjob]
      exact hless

theorem advances_raiseIllegal {s : State} {x : IllegalWord} (hbusy : s.busy = true) (hx : decode s.cmd = .error x) :
    Advances s (raiseIllegal s) :=
  advances_of_completion hbusy rfl (by simp [runCommand, hbusy, hx])

/-- R94, R99: an internal step keeps the completion to come and is one step on the way to it. -/
theorem sequencerTurn_advances {s t : State} (h : s.Inv) (hphase : s.phase = .run) (ht : sequencerTurn s = .next t) :
    Advances s t := by
  have hbusy := h.busy_phase.mpr (by simp [hphase])
  rw [sequencerTurn, if_pos hphase] at ht
  split at ht
  · next i hi => exact advances_of_job hbusy hi (stepJob_advances (request_none_of_run h hphase) ht)
  · next x hx =>
    cases ht
    exact advances_raiseIllegal hbusy hx

/-- R72, R94: so does the HMAC core's answer. -/
theorem hmacTurn_advances {s t : State} {r : HmacReq} (h : s.Inv) (hrequest : s.request = some r)
    (ht : hmacTurn s = .next t) : Advances s t := by
  obtain ⟨i, hi, hexpects⟩ := h.request_job r hrequest
  have hwaiting := h.waiting.mpr (Option.isSome_of_eq_some hrequest)
  have hbusy := h.busy_phase.mpr (by simp [hwaiting])
  simp only [hmacTurn, hrequest, hi] at ht
  cases ht
  exact advances_of_job hbusy hi (answerJob_advances hrequest hexpects)

/-! ## Driven by the sequencer and the core alone -/

theorem stepJob_next {s : State} {k : Job} (hk : JobSound s k) : ∃ t, stepJob k s = .next t := by
  cases k with
  | unreachable => exact hk.elim
  | _ => exact ⟨_, rfl⟩

theorem sequencerTurn_next {s : State} (h : s.Inv) : ∃ t, sequencerTurn s = .next t := by
  unfold sequencerTurn
  split
  · split
    · next i hi => exact stepJob_next (jobSound_of_decode (sound_of_inv h) hi)
    · exact ⟨_, rfl⟩
  · exact ⟨_, rfl⟩

/-- While BUSY = 1 one of the two can move, and does. -/
theorem drive_turn {s : State} (h : s.Inv) (hbusy : s.busy = true) :
    ∃ t, (if s.phase = .waitHmac then hmacTurn s else sequencerTurn s) = .next t ∧ t.Inv ∧ Advances s t := by
  split
  next hwaiting =>
    obtain ⟨r, hrequest⟩ := Option.isSome_iff_exists.mp (h.waiting.mp hwaiting)
    have hturn : ∃ t, hmacTurn s = .next t := by
      obtain ⟨i, hi, -⟩ := h.request_job r hrequest
      simp only [hmacTurn, hrequest, hi]
      exact ⟨_, rfl⟩
    obtain ⟨t, ht⟩ := hturn
    exact ⟨t, ht, inv_hmacTurn h ht, hmacTurn_advances h hrequest ht⟩
  next hwaiting =>
    have hphase : s.phase = .run := by
      cases hp : s.phase with
      | idle => exact absurd hp (h.busy_phase.mp hbusy)
      | run => rfl
      | waitHmac => exact absurd hp hwaiting
    obtain ⟨t, ht⟩ := sequencerTurn_next h
    exact ⟨t, ht, inv_sequencerTurn h ht, sequencerTurn_advances h hphase ht⟩

theorem drive_eq_runCommand {s : State} (h : s.Inv) : ∃ n, n ≤ stepsLeft s ∧ drive n s = runCommand s := by
  induction hm : stepsLeft s using Nat.strong_induction_on generalizing s with
  | _ m ih =>
  cases hbusy : s.busy with
  | false => exact ⟨0, Nat.zero_le _, by simp [drive, runCommand, hbusy]⟩
  | true =>
    obtain ⟨t, ht, hinv, hrun, hless⟩ := drive_turn h hbusy
    obtain ⟨n, hn, hdrive⟩ := ih _ (hm ▸ hless) hinv rfl
    refine ⟨n + 1, by omega, ?_⟩
    rw [drive, ht]
    exact hdrive.trans hrun

/-! ## Every other turn -/

/-- The turns that do not move the command running in `s`. -/
def Idles (turn : Turn) (s : State) : Prop :=
  match turn with
  | .host => True
  | .releaseReset => True
  | .seq => s.phase ≠ .run
  | .hmac => s.request = none
  | .run => False
  | .assertReset => False

theorem hostOnly_hostTurn {s t : State} (hbusy : s.busy = true) (ht : hostTurn s = .next t) : HostOnly s t := by
  unfold hostTurn at ht
  split at ht
  · cases ht
    exact .refl s
  next op rest _ =>
  split at ht
  · cases ht
  split at ht
  · next x _ =>
    have hrest : HostOnly s { s with program := rest } := ⟨_, _, _, _, _, _, _, _, _, rfl⟩
    cases ht
    exact hrest.trans (hostOnly_access (s := { s with program := rest }) hbusy x)
  · cases ht
    exact hostOnly_access hbusy _

theorem hostOnly_of_idles {s t : State} {turn : Turn} (h : s.Inv) (hbusy : s.busy = true) (hidles : Idles turn s)
    (ht : takeTurn turn s = .next t) : HostOnly s t := by
  cases turn with
  | host => exact hostOnly_hostTurn hbusy ht
  | seq =>
    rw [takeTurn, sequencerTurn, if_neg hidles] at ht
    cases ht
    exact .refl s
  | hmac =>
    simp only [takeTurn, hmacTurn, show s.request = none from hidles] at ht
    cases ht
    exact .refl s
  | releaseReset =>
    obtain ⟨-, -, hreset⟩ := busy_of_inv h (h.busy_phase.mp hbusy)
    cases ht
    rw [releaseReset, ← hreset]
    exact .refl s
  | run | assertReset => exact hidles.elim

theorem idle_of_runCommand {s t : State} (hbusy : s.busy = true) (ht : runCommand s = .next t) : t.busy = false := by
  cases hi : decode s.cmd with
  | error x =>
    simp only [runCommand, hbusy, hi, if_true] at ht
    cases ht
    rfl
  | ok i =>
    rw [runCommand_of_decode hbusy hi, exec_eq_runJob] at ht
    obtain ⟨u, hu, hcompleted⟩ | ⟨-, hfault⟩ := runJob_cases (jobOf i s) s
    · cases hu.symm.trans ht
      exact hcompleted.1
    · cases hfault.symm.trans ht

theorem stepsLeft_lt_of_not_idles {s t : State} {turn : Turn} (h : s.Inv) (hbusy : s.busy = true) (hmoves : ¬ Idles turn s)
    (ht : takeTurn turn s = .next t) : stepsLeft t < stepsLeft s := by
  cases turn with
  | host | releaseReset => exact absurd trivial hmoves
  | seq => exact (sequencerTurn_advances h (not_not.mp hmoves) ht).2
  | hmac =>
    obtain ⟨r, hr⟩ := Option.ne_none_iff_exists'.mp hmoves
    exact (hmacTurn_advances h hr ht).2
  | run =>
    exact stepsLeft_of_idle (idle_of_runCommand hbusy ht) ▸ stepsLeft_pos hbusy
  | assertReset =>
    cases ht
    exact stepsLeft_of_idle (s := assertReset s) rfl ▸ stepsLeft_pos hbusy

/-! ## Runs without end -/

section
variable {states : Nat → State} {turns : Nat → Turn} (hrun : EndlessRun states turns)
include hrun

/-- The turn of an endless run is taken on its state, but for the schedule. -/
theorem turn_of_endlessRun (n : Nat) :
    ∃ ts, takeTurn (turns n) { states n with schedule := ts } = .next (states (n + 1)) := by
  obtain ⟨ts, hstep⟩ := hrun n
  exact ⟨ts, hstep⟩

theorem inv_of_endlessRun {n : Nat} (h : (states n).Inv) {m : Nat} (hm : n ≤ m) : (states m).Inv := by
  induction m, hm using Nat.le_induction with
  | base => exact h
  | succ m hm ih =>
    obtain ⟨ts, ht⟩ := turn_of_endlessRun hrun m
    exact inv_takeTurn (inv_schedule ih ts) ht

theorem hostOnly_succ {n : Nat} (h : (states n).Inv) (hbusy : (states n).busy = true) (hidles : Idles (turns n) (states n)) :
    HostOnly (states n) (states (n + 1)) := by
  obtain ⟨ts, ht⟩ := turn_of_endlessRun hrun n
  have hschedule : HostOnly (states n) { states n with schedule := ts } := ⟨_, _, _, _, _, _, _, _, _, rfl⟩
  exact hschedule.trans (hostOnly_of_idles (inv_schedule h ts) hbusy hidles ht)

theorem stepsLeft_succ_lt {n : Nat} (h : (states n).Inv) (hbusy : (states n).busy = true)
    (hmoves : ¬ Idles (turns n) (states n)) : stepsLeft (states (n + 1)) < stepsLeft (states n) := by
  obtain ⟨ts, ht⟩ := turn_of_endlessRun hrun n
  have hschedule : HostOnly (states n) { states n with schedule := ts } := ⟨_, _, _, _, _, _, _, _, _, rfl⟩
  rw [← stepsLeft_of_hostOnly hschedule]
  exact stepsLeft_lt_of_not_idles (inv_schedule h ts) hbusy hmoves ht

/-- While every turn leaves the running command where it is, only the host's fields change. -/
theorem hostOnly_of_idling {n : Nat} (h : (states n).Inv) (hbusy : (states n).busy = true)
    (hidles : ∀ m, n ≤ m → HostOnly (states n) (states m) → Idles (turns m) (states m)) {m : Nat} (hm : n ≤ m) :
    HostOnly (states n) (states m) := by
  induction m, hm using Nat.le_induction with
  | base => exact .refl _
  | succ m hm ih =>
    exact ih.trans (hostOnly_succ hrun (inv_of_endlessRun hrun h hm) (ih.busy.trans hbusy) (hidles m hm ih))

/-- R185: under fairness some turn moves the running command from where it stands. -/
theorem exists_move (hcore : CoreIsFair states turns) (hmoves : SequencerMoves states turns) {n : Nat}
    (h : (states n).Inv) (hbusy : (states n).busy = true) :
    ∃ m, n ≤ m ∧ HostOnly (states n) (states m) ∧ ¬ Idles (turns m) (states m) := by
  by_contra! hidles
  have hstands : ∀ m, n ≤ m → (states m).phase = (states n).phase ∧ (states m).request = (states n).request ∧
      Idles (turns m) (states m) := by
    intro m hm
    have hhost := hostOnly_of_idling hrun h hbusy hidles hm
    exact ⟨hhost.phase, hhost.request, hidles m hm hhost⟩
  cases hphase : (states n).phase with
  | idle => exact h.busy_phase.mp hbusy hphase
  | run =>
    have hstays : ∀ m, n ≤ m → (states m).phase = .run := fun m hm => (hstands m hm).1.trans hphase
    obtain ⟨m, hm, hturn⟩ := hmoves n hstays
    obtain ⟨-, -, hidle⟩ := hstands m hm
    rcases hturn with hturn | hturn
    · exact (hturn ▸ hidle : Idles .seq _) (hstays m hm)
    · exact (hturn ▸ hidle : Idles .run _)
  | waitHmac =>
    have hsome := h.waiting.mp hphase
    have hstays : ∀ m, n ≤ m → (states m).request.isSome = true := fun m hm => (hstands m hm).2.1 ▸ hsome
    obtain ⟨m, hm, hturn⟩ := hcore n hstays
    obtain ⟨-, -, hidle⟩ := hstands m hm
    rcases hturn with hturn | hturn
    · exact Option.isSome_iff_ne_none.mp (hstays m hm) (hturn ▸ hidle : Idles .hmac _)
    · exact (hturn ▸ hidle : Idles .run _)

/-- R75, R185: a running command of a fair run completes, or a reset ends it. -/
theorem idle_of_fair (hcore : CoreIsFair states turns) (hmoves : SequencerMoves states turns) {n : Nat}
    (h : (states n).Inv) (hbusy : (states n).busy = true) : ∃ m, n < m ∧ (states m).busy = false := by
  induction hk : stepsLeft (states n) using Nat.strong_induction_on generalizing n with
  | _ k ih =>
  obtain ⟨m, hm, hhost, hmove⟩ := exists_move hrun hcore hmoves h hbusy
  have hinv := inv_of_endlessRun hrun h hm
  have hbusy' : (states m).busy = true := hhost.busy.trans hbusy
  cases hnext : (states (m + 1)).busy with
  | false => exact ⟨m + 1, by omega, hnext⟩
  | true =>
    have hless := stepsLeft_succ_lt hrun hinv hbusy' hmove
    rw [stepsLeft_of_hostOnly hhost, hk] at hless
    obtain ⟨l, hl, hidle⟩ := ih _ hless (inv_of_endlessRun hrun hinv (Nat.le_succ m)) hnext rfl
    exact ⟨l, by omega, hidle⟩

/-- R75: a request that the core never answers stays outstanding, and BUSY stays 1. -/
theorem waits_without_answer {n : Nat} {r : HmacReq} (h : (states n).Inv) (hrequest : (states n).request = some r)
    (hnever : ∀ m, n ≤ m → turns m ≠ .hmac ∧ turns m ≠ .run ∧ turns m ≠ .assertReset) {m : Nat} (hm : n ≤ m) :
    (states m).busy = true ∧ (states m).request = some r := by
  have hwaiting := h.waiting.mpr (Option.isSome_of_eq_some hrequest)
  have hbusy := h.busy_phase.mpr (by simp [hwaiting])
  have hidles : ∀ m, n ≤ m → HostOnly (states n) (states m) → Idles (turns m) (states m) := by
    intro m hm hhost
    obtain ⟨hhmac, hrunTurn, hreset⟩ := hnever m hm
    cases hturn : turns m with
    | host | releaseReset => trivial
    | seq => simp [Idles, hhost.phase, hwaiting]
    | hmac => exact absurd hturn hhmac
    | run => exact absurd hturn hrunTurn
    | assertReset => exact absurd hturn hreset
  have hhost := hostOnly_of_idling hrun h hbusy hidles hm
  exact ⟨hhost.busy.trans hbusy, hhost.request.trans hrequest⟩

end

/-- Where only the sequencer's turn recurs, a step of a waiting command is that turn, which does nothing (R72, R75). -/
theorem step_of_waiting {s : State} (h : s.Inv) (hrequest : s.request.isSome = true) (hschedule : s.schedule = [])
    (hrecurring : s.recurring = [.seq]) : step s = .next s := by
  have hturn : step s = sequencerTurn { s with schedule := [] } :=
    step_of_upcoming ((upcoming_of_recurring hschedule).trans hrecurring)
  have hsame : { s with schedule := [] } = s := by rw [← hschedule]
  rw [hturn, hsame, sequencerTurn, if_neg (by simp [h.waiting.mpr hrequest])]

/-- Settles O56: the measure bounds the drive by 1024 turns; under fairness it falls until the command has ended; and no turn
but the core's, `run` or a reset moves a command that waits. -/
theorem singleStepsReachTheCompletion : Obligations.SingleStepsReachTheCompletion := by
  refine ⟨fun s h _ => ?_, ?_, ?_, fun s => step_of_waiting⟩
  · obtain ⟨n, hn, hdrive⟩ := drive_eq_runCommand h
    exact ⟨n, hn.trans (stepsLeft_le h), hdrive⟩
  · intro states turns hrun hcore hmoves n h hbusy
    exact idle_of_fair hrun hcore hmoves h hbusy
  · intro states turns hrun n r h hrequest hnever m hm
    exact waits_without_answer hrun h hrequest hnever hm

end Sys2Proof.Proofs.Progress
end

section
/-! PROOFS. The encoding (30_encoding.md R78 to R84): the decoder and the encoder are inverse to each other, and so the words
that no well-formed command has are ILLEGAL. -/

namespace Sys2Proof.Proofs.Encoding

open Sys2Proof.Proofs.Invariant Sys2Proof.Proofs.Fetch

/-- Settles O1: the one row that covers the command's word is the command's. -/
theorem decodeOfEncodeIsTheCommand : Obligations.DecodeOfEncodeIsTheCommand :=
  fun _ => decode_encode

/-! ## The word of a decoded command -/

/-- A decoded command is that of a row that covers the word (R83). -/
theorem exists_row_of_decode {v : Word} {i : Instr} (h : decode v = .ok i) :
    ∃ r ∈ opcodeMap v, r.covers v = true ∧ r.instr = i := by
  unfold decode at h
  split at h
  · next r hr =>
    cases h
    exact ⟨r, List.mem_of_find?_eq_some hr, List.find?_some (p := fun r : OpcodeRow => r.covers v) hr, rfl⟩
  · cases h

/-- The two forms of the map's rows (R79): form N's pattern is the command's word, form W's is the word without its W. -/
theorem row_cases {v : Word} {r : OpcodeRow} (hr : r ∈ opcodeMap v) :
    (r.mask = maskN ∧ r.pattern = encode r.instr) ∨
      (r.mask = maskW ∧ ∃ opc, r.pattern = formN opc ∧ encode r.instr = formW opc (windowOf v)) := by
  simp only [opcodeMap, List.mem_cons, List.not_mem_nil, or_false] at hr
  obtain rfl | rfl | rfl | rfl | rfl | rfl | rfl | rfl | rfl | rfl | rfl | rfl := hr
  any_goals exact .inl ⟨rfl, rfl⟩
  · exact .inr ⟨rfl, 0x22#8, rfl, rfl⟩
  · exact .inr ⟨rfl, 0x31#8, rfl, rfl⟩

/-- The bits above OPC are the reserved ones and W (R78). -/
theorem bits_above_opc (v : Word) : v.extractLsb' 8 24 = v.extractLsb' 16 16 ++ v.extractLsb' 8 8 :=
  (BitVec.extractLsb'_append_extractLsb'_eq_extractLsb' (start₁ := 8) (len₁ := 8) (len₂ := 16) rfl).symm

theorem word_eq_fields (v : Word) : v = v.extractLsb' 16 16 ++ v.extractLsb' 8 8 ++ v.extractLsb' 0 8 := by
  have hopc : v.extractLsb' 0 32 = v.extractLsb' 8 24 ++ v.extractLsb' 0 8 :=
    (BitVec.extractLsb'_append_extractLsb'_eq_extractLsb' (start₁ := 0) (len₁ := 8) (len₂ := 24) rfl).symm
  rw [← bits_above_opc, ← hopc, BitVec.extractLsb'_eq_self]

/-- Form W's mask leaves out W alone (R79, R80). -/
theorem eq_formW_of_masked {v : Word} {opc : Byte} (h : v &&& maskW = formN opc) : v = formW opc (windowOf v) := by
  have hfield : ∀ lo n, maskW.extractLsb' lo n = BitVec.allOnes n → v.extractLsb' lo n = (formN opc).extractLsb' lo n := by
    intro lo n hmask
    rw [← h, BitVec.extractLsb'_and, hmask, BitVec.and_allOnes]
  obtain ⟨hopc, -, hrsvd⟩ := Laws.Encoding.formW_fields opc 0 (Nat.zero_le _)
  have hlow : v.extractLsb' 0 8 = opc := (hfield 0 8 (by decide)).trans (BitVec.eq_of_toNat_eq hopc)
  have hhigh : v.extractLsb' 16 16 = 0#16 := (hfield 16 16 (by decide)).trans hrsvd
  have hwin : v.extractLsb' 8 8 = BitVec.ofNat 8 (windowOf v) := by rw [windowOf, BitVec.ofNat_toNat, BitVec.setWidth_eq]
  have hparts := word_eq_fields v
  rwa [hlow, hhigh, hwin] at hparts

theorem encode_of_covers {v : Word} {r : OpcodeRow} (hr : r ∈ opcodeMap v) (hcovers : r.covers v = true) :
    encode r.instr = v := by
  have hmasked : v &&& r.mask = r.pattern := beq_iff_eq.mp hcovers
  obtain ⟨hmask, hpattern⟩ | ⟨hmask, opc, hpattern, hencode⟩ := row_cases hr
  · rw [← hpattern, ← hmasked, hmask]
    exact BitVec.and_allOnes
  · rw [hencode]
    exact (eq_formW_of_masked (by rw [← hmask, hmasked, hpattern])).symm

/-- Settles O2: the row that covers the word fixes all its bits but those of W, which the command carries. -/
theorem encodeOfDecodeIsTheWord : Obligations.EncodeOfDecodeIsTheWord := by
  intro v i h
  obtain ⟨r, hr, hcovers, rfl⟩ := exists_row_of_decode h
  exact ⟨wellFormed_of_decode h, encode_of_covers hr hcovers⟩

/-! ## Reserved encodings -/

/-- What the fields of a command's word hold (R78). -/
theorem fields_encode (i : Instr) : Laws.Encoding.Statement i := by
  cases i with
  | nop => exact Laws.Encoding.nop
  | cfg => exact Laws.Encoding.cfg
  | clear => exact Laws.Encoding.clear
  | b32Enc => exact Laws.Encoding.b32Enc
  | b32Dec => exact Laws.Encoding.b32Dec
  | b32Deck => exact Laws.Encoding.b32Deck
  | trunc => exact Laws.Encoding.trunc
  | hotpGen => exact Laws.Encoding.hotpGen
  | hotpVal w => exact Laws.Encoding.hotpVal w
  | totpGen => exact Laws.Encoding.totpGen
  | totpVer w => exact Laws.Encoding.totpVer w
  | totpRem => exact Laws.Encoding.totpRem

/-- A decoded word holds its command's OPC and W, and 0 in its reserved bits (R78, R84). -/
theorem fields_of_decode {v : Word} {i : Instr} (h : decode v = .ok i) :
    (v.extractLsb' 0 8).toNat = (Laws.Encoding.fields i).1 ∧ (v.extractLsb' 8 8).toNat = (Laws.Encoding.fields i).2 ∧
      v.extractLsb' 16 16 = 0#16 := by
  obtain ⟨hwf, hword⟩ := encodeOfDecodeIsTheWord v i h
  exact hword ▸ fields_encode i hwf

/-- The OPC values of the map (R82). -/
def listedOpcodes : List Nat := [0x00, 0x01, 0x02, 0x10, 0x11, 0x12, 0x20, 0x21, 0x22, 0x30, 0x31, 0x32]

theorem knownOpcode_iff (v : Word) : knownOpcode v = true ↔ (v.extractLsb' 0 8).toNat ∈ listedOpcodes := by
  have hopc : (v.extractLsb' 0 8).toNat = v.toNat &&& 0xFF := by
    rw [BitVec.extractLsb'_toNat]
    exact (Nat.and_two_pow_sub_one_eq_mod _ 8).symm
  rw [hopc]
  simp [knownOpcode, opcodeMap, listedOpcodes, ← BitVec.toNat_inj, eq_comm (b := v.toNat &&& 0xFF)]

theorem opc_mem_of_decode {v : Word} {i : Instr} (h : decode v = .ok i) : (v.extractLsb' 0 8).toNat ∈ listedOpcodes := by
  obtain ⟨hopc, -, -⟩ := fields_of_decode h
  rw [hopc]
  cases i <;> simp [Laws.Encoding.fields, listedOpcodes]

/-- A word that no command has is ILLEGAL, for the reason that its OPC gives (R84). -/
theorem decode_of_no_command {v : Word} (h : ∀ i, decode v ≠ .ok i) :
    decode v = .error (if knownOpcode v then .reservedBits else .reservedOpcode) := by
  unfold decode at h ⊢
  split at h
  · next r hr => exact absurd rfl (h r.instr)
  · rfl

theorem decode_of_reserved_opcode {v : Word} (h : (v.extractLsb' 0 8).toNat ∉ listedOpcodes) :
    decode v = .error .reservedOpcode := by
  rw [decode_of_no_command fun i hi => h (opc_mem_of_decode hi), if_neg (h ∘ (knownOpcode_iff v).mp)]

theorem decode_of_reserved_bits {v : Word} (hopc : (v.extractLsb' 0 8).toNat ∈ listedOpcodes) (h : ∀ i, decode v ≠ .ok i) :
    decode v = .error .reservedBits := by
  rw [decode_of_no_command h, if_pos ((knownOpcode_iff v).mpr hopc)]

/-- Settles O3: a command's word holds a listed OPC, 0 in its reserved bits, and with an OPC of form N no W. -/
theorem reservedEncodingsAreIllegal : Obligations.ReservedEncodingsAreIllegal := by
  intro v
  refine ⟨fun hopc => decode_of_reserved_opcode ?_, fun hopc hbits => decode_of_reserved_bits ?_ fun i hi => hbits ?_,
    fun hopc hbits => decode_of_reserved_bits ?_ fun i hi => hbits ?_⟩
  · simp only [listedOpcodes, List.mem_cons, List.not_mem_nil, or_false]
    omega
  · exact (by decide : [0x00, 0x01, 0x02, 0x10, 0x11, 0x12, 0x20, 0x21, 0x30, 0x32] ⊆ listedOpcodes) hopc
  · obtain ⟨hfield, hwin, hrsvd⟩ := fields_of_decode hi
    have hnone : (Laws.Encoding.fields i).2 = 0 := by
      rw [hfield] at hopc
      cases i with
      | hotpVal w | totpVer w => simp [Laws.Encoding.fields] at hopc
      | _ => rfl
    rw [bits_above_opc, hrsvd, BitVec.eq_of_toNat_eq (y := 0#8) (hwin.trans hnone)]
    rfl
  · exact (by decide : [0x22, 0x31] ⊆ listedOpcodes) hopc
  · obtain ⟨-, -, hrsvd⟩ := fields_of_decode hi
    exact hrsvd

/-- Settles O4: each word is closed, and the decoder computes. -/
theorem tableWordsDecode : Obligations.TableWordsDecode := by
  unfold Obligations.TableWordsDecode
  decide

end Sys2Proof.Proofs.Encoding
end

section
/-! PROOFS. What the single turns do: the turn that runs a command to its completion, the `wait` of the host's program, the
CMD write that issues (30_encoding.md R89, R92, R93, R99), and the internal steps, which keep the completion to come. -/

namespace Sys2Proof.Proofs.Steps

open Sys2Proof.Machine Sys2Proof.Proofs.Window Sys2Proof.Proofs.BusyRule Sys2Proof.Proofs.Fetch Sys2Proof.Proofs.Progress

/-! ## The completion to come -/

/-- Settles O57: a turn that moves the command advances it to the same completion, and any other leaves the state as it is. -/
theorem singleStepKeepsTheCompletion : Obligations.SingleStepKeepsTheCompletion := by
  rintro s t h - - (hseq | hhmac)
  · by_cases hphase : s.phase = .run
    · exact (sequencerTurn_advances h hphase hseq).1
    · rw [sequencerTurn, if_neg hphase] at hseq
      cases hseq
      rfl
  · cases hrequest : s.request with
    | some r => exact (hmacTurn_advances h hrequest hhmac).1
    | none =>
      simp only [hmacTurn, hrequest] at hhmac
      cases hhmac
      rfl

/-! ## The turn that completes a command -/

/-- With no turn to come, BUSY = 1 takes the running command to its completion (assumption 7). -/
theorem step_of_busy {s : State} (hbusy : s.busy = true) (hschedule : s.schedule = []) (hrecurring : s.recurring = []) :
    step s = runCommand s := by
  have hturn : defaultTurn s = .run := if_pos hbusy
  rw [step_of_upcoming_nil ((upcoming_of_recurring hschedule).trans hrecurring), hturn]
  rfl

/-- Settles O5: the turn is the run of the command, by default or as the next to come. -/
theorem stepRunsDecodedCommand : Obligations.StepRunsDecodedCommand := by
  intro s i hbusy hi
  refine ⟨fun hschedule hrecurring => ?_, fun ts hts => ?_⟩
  · exact (step_of_busy hbusy hschedule hrecurring).trans (runCommand_of_decode hbusy hi)
  · rw [step_of_upcoming (upcoming_eq_cons.mpr hts)]
    exact runCommand_of_decode (s := { s with schedule := ts }) hbusy hi

theorem runCommand_of_illegal {s : State} {x : IllegalWord} (hbusy : s.busy = true) (hx : decode s.cmd = .error x) :
    runCommand s = .next (s.failed .illegalCmd s.cmd) := by
  simp only [runCommand, hbusy, hx, if_true]
  rfl

theorem sequencerTurn_of_illegal {s : State} {x : IllegalWord} (hphase : s.phase = .run) (hx : decode s.cmd = .error x) :
    sequencerTurn s = .next (s.failed .illegalCmd s.cmd) := by
  simp only [sequencerTurn, hphase, hx, if_true]
  rfl

/-- Settles O7: the run of an illegal word and the sequencer's step of it are the same error completion. -/
theorem illegalWordEndsWithIllegalCmd : Obligations.IllegalWordEndsWithIllegalCmd := by
  intro s x hbusy hx
  refine ⟨fun hschedule hrecurring => ?_, fun ts hts => ?_, fun ts hts hphase => ?_⟩
  · exact (step_of_busy hbusy hschedule hrecurring).trans (runCommand_of_illegal hbusy hx)
  · rw [step_of_upcoming (upcoming_eq_cons.mpr hts)]
    exact runCommand_of_illegal (s := { s with schedule := ts }) hbusy hx
  · rw [step_of_upcoming (upcoming_eq_cons.mpr hts)]
    exact sequencerTurn_of_illegal (s := { s with schedule := ts }) hphase hx

/-! ## The host -/

/-- A STATUS read is exact in every state (R64). -/
theorem access_read_status (s : State) : access (.read .word 0x004#12) s = reply (.read .okay (statusWord s)) s :=
  access_read_exact rfl (unspecifiedRead_status s)

/-- Settles O9: the turn reads STATUS, and the `wait` is taken off the program where that read shows BUSY = 0. -/
theorem waitPollsStatusUntilIdle : Obligations.WaitPollsStatusUntilIdle := by
  intro s ops ts hschedule hprogram hreset
  have hstep : step s = hostTurn { s with schedule := ts } := step_of_upcoming (upcoming_of_schedule hschedule)
  have hturn : hostTurn { s with schedule := ts } = .next (access (.read .word 0x004#12)
      { s with schedule := ts, program := if s.busy then .wait :: ops else ops }) := by
    cases s.busy with
    | true => simp [hostTurn, hprogram, hreset]
    | false => simp [hostTurn, hprogram, hreset]
  rw [hstep, hturn, access_read_status]
  rfl

/-- Settles O14: CMD is frozen by no lock, and a location like any other where BUSY = 1. -/
theorem cmdWriteIssues : Obligations.CmdWriteIssues := by
  intro s v
  refine ⟨fun hidle => ?_, fun hbusy => ?_⟩
  · have hwrite : busWrite .cmd v s = issue v s := by simp [busWrite, hidle, frozenByLock, writeLoc]
    rw [access_write rfl]
    exact congrArg _ hwrite
  · obtain ⟨hdropped, -, -⟩ := busyWriteIsDropped s 0x008#12 v hbusy rfl
    exact hdropped (by decide) (by decide)

end Sys2Proof.Proofs.Steps
end

section
/-! PROOFS. What every completion and every error completion writes, and how many requests a command makes (30_encoding.md
R96 to R100; 60_exceptions.md R153 to R157, R161). -/

namespace Sys2Proof.Proofs.Ends

open Sys2Proof.Machine Sys2Proof.Proofs.Completion Sys2Proof.Proofs.Invariant Sys2Proof.Proofs.Operands

/-! ## Every completion -/

theorem completed_of_endsAt {s t u : State} {k : Job} (h : EndsAt s k t u) : Completed u := by
  obtain ⟨e, info, rfl⟩ | ⟨ws, -, rfl⟩ := h
  · exact completed_raise ..
  · exact completed_commit ..

/-- Settles O25: every job ends in a completed state, and IRQ_EN is a field that no command writes. -/
theorem completionRaisesTheInterrupt : Obligations.CompletionRaisesTheInterrupt := by
  intro i s u h
  rw [exec_eq_runJob] at h
  obtain ⟨t, ht, -, -, hend⟩ := runJob_end h
  have hfields := unwrittenFields_of_endsAt ht hend
  simp only [unwrittenFields, Prod.mk.injEq] at hfields
  obtain ⟨-, -, -, -, -, -, -, -, -, -, hirq, -⟩ := hfields
  obtain ⟨hbusy, hdone, hphase, -, -⟩ := completed_of_endsAt hend
  exact ⟨hbusy, hdone, hphase, hirq, by rw [irq, hdone, hirq, Bool.true_and]⟩

/-! ## Error completions -/

/-- The error with which a generation or a pass ends is HMAC_FAIL (R124, R129). -/
theorem errCode_runGenerate {e : Engine} {c : DWord} {pre : List Pending} {s : State}
    (h : (runGenerate e c pre s).err = true) : (runGenerate e c pre s).errCode = 7#4 := by
  unfold runGenerate at h ⊢
  split at h
  · next hs =>
    rw [if_pos hs]
    dsimp only at h ⊢
    split at h
    · rfl
    · cases h
  · cases h

theorem errCode_runPasses {e : Engine} {t : List Byte} {pre : List Pending} {ps : List (Option DWord)} {s : State}
    (h : (runPasses e t pre ps s).err = true) : (runPasses e t pre ps s).errCode = 7#4 := by
  induction ps generalizing s with
  | nil => cases h
  | cons p ps ih =>
    cases p with
    | none => exact ih h
    | some c =>
      simp only [runPasses] at h ⊢
      split at h
      · rfl
      · exact ih h

/-- An error other than HMAC_FAIL is that of a check, made before any request (R93, R155). -/
theorem runJob_check_failed {k : Job} {s t : State} (h : runJob k s = .next t) (herr : t.err = true)
    (hcode : t.errCode ≠ 7#4) : ∃ e info, t = raise e info s := by
  cases k with
  | unreachable => cases h
  | fail e info =>
    cases h
    exact ⟨e, info, rfl⟩
  | write _ | encode _ | decode _ _ =>
    cases h
    cases herr
  | generate e c pre =>
    cases h
    exact absurd (errCode_runGenerate herr) hcode
  | validate e cand ps pre =>
    cases h
    exact absurd (errCode_runPasses herr) hcode

/-- Settles O53: the end is `raise`, from a state that differs from `s` in the hidden state alone. -/
theorem errorWritesOnlyStatusAndErrinfo : Obligations.ErrorWritesOnlyStatusAndErrinfo := by
  intro i s u hstaged h herr
  rw [exec_eq_runJob] at h
  constructor
  · obtain ⟨t, ht, -, -, ⟨e, info, rfl⟩ | ⟨ws, -, rfl⟩⟩ := runJob_end h
    · obtain ⟨_, _, _, _, _, _, _, _, rfl⟩ := ht
      simp [raise_eq_failed, State.failed, hstaged]
    · cases herr
  · intro hcode
    obtain ⟨e, info, rfl⟩ := runJob_check_failed h herr hcode
    rfl

/-! ## The number of requests -/

/-- `t` has made at most `n` requests more than `s`. -/
def RequestsUpTo (n : Nat) (s t : State) : Prop := ∃ rs, t.requests = s.requests ++ rs ∧ rs.length ≤ n

theorem requestsUpTo_of_eq {s t : State} (h : t.requests = s.requests) (n : Nat) : RequestsUpTo n s t :=
  ⟨[], by rw [h, List.append_nil], Nat.zero_le n⟩

theorem RequestsUpTo.mono {m n : Nat} {s t : State} (h : RequestsUpTo m s t) (hmn : m ≤ n) : RequestsUpTo n s t := by
  obtain ⟨rs, ht, hrs⟩ := h
  exact ⟨rs, ht, hrs.trans hmn⟩

theorem RequestsUpTo.trans {m n : Nat} {s t u : State} (h : RequestsUpTo m s t) (h' : RequestsUpTo n t u) :
    RequestsUpTo (n + m) s u := by
  obtain ⟨rs, ht, hrs⟩ := h
  obtain ⟨rs', hu, hrs'⟩ := h'
  refine ⟨rs ++ rs', by rw [hu, ht, List.append_assoc], ?_⟩
  rw [List.length_append]
  omega

theorem requests_commit (ws : List Pending) (s : State) : (commit ws s).requests = s.requests :=
  foldl_applyPending_frame State.requests (fun _ p => by cases p <;> rfl) ws s

theorem requestsUpTo_sendRequest (r : HmacReq) (s : State) : RequestsUpTo 1 s (sendRequest r s) := by
  cases h : s.request with
  | none => exact ⟨[r], by rw [sendRequest_of_none h], Nat.le_refl 1⟩
  | some q => exact requestsUpTo_of_eq (by rw [sendRequest_of_some h]) 1

theorem requestsUpTo_runGenerate (e : Engine) (c : DWord) (pre : List Pending) (s : State) :
    RequestsUpTo 1 s (runGenerate e c pre s) := by
  have hsent := requestsUpTo_sendRequest (passRequest e c) s
  unfold runGenerate
  dsimp only
  split
  · split
    · exact hsent
    · exact hsent.trans (requestsUpTo_of_eq (requests_commit ..) 0)
  · exact requestsUpTo_of_eq (requests_commit ..) 1

/-- One request at most for each pass (R129). -/
theorem requestsUpTo_runPasses (e : Engine) (t : List Byte) (pre : List Pending) (ps : List (Option DWord)) (s : State) :
    RequestsUpTo ps.length s (runPasses e t pre ps s) := by
  induction ps generalizing s with
  | nil => exact requestsUpTo_of_eq (requests_commit ..) 0
  | cons p ps ih =>
    cases p with
    | none => exact (ih (skipPass s)).mono (Nat.le_succ _)
    | some c =>
      have hsent := requestsUpTo_sendRequest (passRequest e c) s
      simp only [runPasses]
      split
      · exact hsent.mono (Nat.le_add_left ..)
      · next d _ => exact hsent.trans (ih (takePass e t c d (sendRequest (passRequest e c) s)))

/-- A job makes one request, or one for each pass (R124, R129). -/
theorem requestsUpTo_runJob {k : Job} {s t : State} (h : runJob k s = .next t) :
    RequestsUpTo (max 1 (passCount k)) s t := by
  cases k with
  | unreachable => cases h
  | fail e info =>
    cases h
    exact requestsUpTo_of_eq rfl _
  | write _ | encode _ | decode _ _ =>
    cases h
    exact requestsUpTo_of_eq (requests_commit ..) _
  | generate e c pre =>
    cases h
    exact (requestsUpTo_runGenerate e c pre s).mono (le_max_left ..)
  | validate e cand ps pre =>
    cases h
    have hrest : (ps.drop s.j).length ≤ ps.length := (List.drop_sublist ..).length_le
    exact (requestsUpTo_runPasses e cand pre (ps.drop s.j) s).mono (hrest.trans (le_max_right ..))

theorem passCount_withEngine_le {s : State} {k : Engine → Job} {n : Nat} (hk : ∀ e, passCount (k e) ≤ n) :
    passCount (withEngine s k) ≤ n := by
  obtain ⟨-, hw⟩ | ⟨-, e, -, hw⟩ | ⟨-, -, hw⟩ := withEngine_cases s k
  · exact hw ▸ Nat.zero_le n
  · exact hw ▸ hk e
  · exact hw ▸ Nat.zero_le n

theorem passCount_withCandidate_le {s : State} {k : List Byte → Job} {n : Nat} (hk : ∀ t, passCount (k t) ≤ n) :
    passCount (withCandidate s k) ≤ n :=
  withCandidate_induction (P := fun k => passCount k ≤ n) (fun _ _ => Nat.zero_le n) hk

/-- The passes of a well-formed command, in any state: W + 1 or 2 W + 1 (R131, R140). -/
theorem passCount_jobOf_le {i : Instr} (hi : i.wellFormed = true) (s : State) : passCount (jobOf i s) ≤ 511 := by
  cases i with
  | nop | clear => exact Nat.zero_le _
  | cfg | b32Enc | b32Dec | b32Deck =>
    simp only [jobOf, jobCfg, jobB32Enc, jobB32Dec, jobB32Deck]
    repeat' split
    all_goals exact Nat.zero_le _
  | trunc | hotpGen | totpGen | totpRem => exact passCount_withEngine_le fun _ => Nat.zero_le _
  | hotpVal w =>
    have hw : w ≤ 255 := of_decide_eq_true hi
    refine passCount_withEngine_le fun _ => passCount_withCandidate_le fun _ => ?_
    rw [passCount, length_hotpPasses]
    omega
  | totpVer w =>
    have hw : w ≤ 255 := of_decide_eq_true hi
    refine passCount_withEngine_le fun _ => passCount_withCandidate_le fun _ => ?_
    rw [passCount, length_totpPasses]
    omega

/-- Settles O59: one request for each pass, and TOTP_VER has the most passes, 2 * 255 + 1. -/
theorem atMost511Requests : Obligations.AtMost511Requests := by
  intro i s t hi h
  rw [exec_eq_runJob] at h
  exact (requestsUpTo_runJob h).mono (max_le (by decide) (passCount_jobOf_le hi s))

end Sys2Proof.Proofs.Ends
end

section
/-! PROOFS. The Base32 text and the bytes it stands for (40_base32.md R101 to R115). Both shifters regroup a bit string, the
encoder bytes into groups of five and the decoder characters into groups of eight, so that one invariant, `ShifterHolds`, and
one lemma about more bits going in serve both. -/

namespace Sys2Proof.Proofs.Base32

open Sys2Proof.Machine Sys2Proof.Proofs.Operands

/-! ## The lookup tables -/

theorem lut_isSome_iff (c : Byte) : (lut c).isSome = true ↔
    (0x41 ≤ c.toNat ∧ c.toNat ≤ 0x5A) ∨ (0x61 ≤ c.toNat ∧ c.toNat ≤ 0x7A) ∨ (0x32 ≤ c.toNat ∧ c.toNat ≤ 0x37) := by
  unfold lut
  split_ifs <;> simp only [Option.isSome_some, Option.isSome_none, Bool.false_eq_true, true_iff, false_iff] <;> omega

theorem lut_lt {c : Byte} {v : Nat} (h : lut c = some v) : v < 32 := by
  unfold lut at h
  split_ifs at h <;> injection h <;> omega

/-- A lower-case letter has the value of the letter 0x20 below it. -/
theorem lut_lowerCase {c : Byte} (h : 0x61 ≤ c.toNat ∧ c.toNat ≤ 0x7A) : lut c = lut (c - 0x20#8) := by
  have hupper : (c - 0x20#8).toNat = c.toNat - 0x20 := by bv_omega
  unfold lut
  rw [hupper, if_neg (by omega), if_pos h, if_pos (by omega)]
  exact congrArg some (by omega)

theorem lut_alpha {v : Nat} (h : v < 32) : lut (alpha v) = some v := by
  have table : ∀ v : Fin 32, lut (alpha v) = some v.val := by decide
  exact table ⟨v, h⟩

theorem alpha_ne_padByte {v : Nat} (h : v < 32) : alpha v ≠ padByte := fun heq => by
  have hpad : lut padByte = none := by decide
  rw [← heq, lut_alpha h] at hpad
  cases hpad

/-- Settles O29: the encode table letter by letter, the decode table by its three ranges. -/
theorem lookupTablesAgree : Obligations.LookupTablesAgree :=
  ⟨fun v => ⟨by revert v; decide, lut_alpha v.isLt⟩, fun c => ⟨lut_lowerCase, lut_isSome_iff c, fun _ => lut_lt⟩⟩

/-! ## Groups of bits -/

/-- The low `w * n` bits of `x` in `n` groups of `w` bits, the most significant group first. -/
def groups (w n x : Nat) : List Nat := (List.range n).map fun k => x / 2 ^ (w * (n - 1 - k)) % 2 ^ w

@[simp] theorem length_groups (w n x : Nat) : (groups w n x).length = n := by simp [groups]

@[simp] theorem groups_zero (w x : Nat) : groups w 0 x = [] := rfl

@[simp] theorem groups_one (w x : Nat) : groups w 1 x = [x % 2 ^ w] := by simp [groups]

/-- The group `k`, counted from the most significant. -/
theorem getD_map_groups {w n k : Nat} (hk : k < n) (x : Nat) (f : Nat → Byte) (b : Byte) :
    ((groups w n x).map f).getD k b = f (x / 2 ^ (w * (n - 1 - k)) % 2 ^ w) := by
  simp [groups, hk]

theorem lt_of_mem_groups {w n x v : Nat} (h : v ∈ groups w n x) : v < 2 ^ w := by
  obtain ⟨k, -, rfl⟩ := List.mem_map.mp h
  exact Nat.mod_lt _ (Nat.two_pow_pos w)

theorem groups_add (w m n x : Nat) : groups w (m + n) x = groups w m (x / 2 ^ (w * n)) ++ groups w n x := by
  unfold groups
  rw [List.range_add, List.map_append, List.map_map]
  congr 1
  · refine List.map_congr_left fun k hk => ?_
    have hk : k < m := List.mem_range.mp hk
    have hexp : m + n - 1 - k = n + (m - 1 - k) := by omega
    rw [hexp, Nat.mul_add, pow_add, Nat.div_div_eq_div_mul]
  · refine List.map_congr_left fun k _ => ?_
    have hexp : m + n - 1 - (m + k) = n - 1 - k := by omega
    rw [Function.comp_apply, hexp]

/-- Only the low `w * n` bits count. -/
theorem groups_congr {w n x y : Nat} (h : x ≡ y [MOD 2 ^ (w * n)]) : groups w n x = groups w n y := by
  refine List.map_congr_left fun k hk => ?_
  have hk : k < n := List.mem_range.mp hk
  have hexp : w * (n - 1 - k) + w ≤ w * n := by
    rw [← Nat.mul_succ]
    exact Nat.mul_le_mul_left w (by omega)
  have hlow : x ≡ y [MOD 2 ^ (w * (n - 1 - k)) * 2 ^ w] := h.of_dvd (pow_add 2 _ w ▸ pow_dvd_pow 2 hexp)
  rw [← Nat.mod_mul_right_div_self, hlow, Nat.mod_mul_right_div_self]

/-! ## The bits of a list -/

/-- The number that the bits of `bs` spell, `w` of them, the number `f b`, for each element `b`. -/
def bitsOf (w : Nat) (f : Byte → Nat) (bs : List Byte) : Nat := bs.foldl (fun x b => x * 2 ^ w + f b) 0

theorem bitsOf_concat (w : Nat) (f : Byte → Nat) (bs : List Byte) (b : Byte) :
    bitsOf w f (bs ++ [b]) = bitsOf w f bs * 2 ^ w + f b := by
  simp [bitsOf]

theorem mul_two_pow_add_lt {x v n d : Nat} (hx : x < 2 ^ n) (hv : v < 2 ^ d) : x * 2 ^ d + v < 2 ^ (n + d) :=
  calc x * 2 ^ d + v < (x + 1) * 2 ^ d := by rw [Nat.add_one_mul]; omega
    _ ≤ 2 ^ n * 2 ^ d := Nat.mul_le_mul_right _ hx
    _ = 2 ^ (n + d) := (pow_add 2 n d).symm

theorem mul_two_pow_add_div {x v d : Nat} (hv : v < 2 ^ d) : (x * 2 ^ d + v) / 2 ^ d = x := by
  rw [Nat.add_div_of_dvd_right (Nat.dvd_mul_left ..), Nat.mul_div_cancel _ (Nat.two_pow_pos d), Nat.div_eq_of_lt hv,
    Nat.add_zero]

theorem bitsOf_lt {w : Nat} {f : Byte → Nat} (hf : ∀ b, f b < 2 ^ w) (bs : List Byte) :
    bitsOf w f bs < 2 ^ (w * bs.length) := by
  induction bs using List.reverseRecOn with
  | nil => exact Nat.one_pos
  | append_singleton bs b ih =>
    rw [bitsOf_concat, List.length_append, List.length_singleton, Nat.mul_add, Nat.mul_one]
    exact mul_two_pow_add_lt ih (hf b)

/-- Cutting the bits of a list apart gives its elements' numbers back. -/
theorem groups_bitsOf {w : Nat} {f : Byte → Nat} (hf : ∀ b, f b < 2 ^ w) (bs : List Byte) :
    groups w bs.length (bitsOf w f bs) = bs.map f := by
  induction bs using List.reverseRecOn with
  | nil => rfl
  | append_singleton bs b ih =>
    rw [List.length_append, List.length_singleton, groups_add, bitsOf_concat, Nat.mul_one, mul_two_pow_add_div (hf b), ih,
      groups_one, Nat.mul_add_mod', Nat.mod_eq_of_lt (hf b), List.map_append, List.map_singleton]

/-- Joining groups together again gives the number they were cut from. -/
theorem bitsOf_map_groups {w : Nat} {f : Byte → Nat} {g : Nat → Byte} (hfg : ∀ v, v < 2 ^ w → f (g v) = v) (n x : Nat) :
    bitsOf w f ((groups w n x).map g) = x % 2 ^ (w * n) := by
  induction n generalizing x with
  | zero => simp [bitsOf, Nat.mod_one]
  | succ n ih =>
    rw [groups_add, List.map_append, groups_one, List.map_singleton, bitsOf_concat, ih,
      hfg _ (Nat.mod_lt _ (Nat.two_pow_pos w)), Nat.mul_one, Nat.mul_succ, Nat.add_comm (w * n), pow_add, Nat.mod_mul]
    ring

/-! ## The shifter -/

/-- The bits that are no longer held do not matter to the low bits of what is held next. -/
theorem feed_modEq (x v r d : Nat) : x % 2 ^ r * 2 ^ d + v ≡ x * 2 ^ d + v [MOD 2 ^ (r + d)] := by
  rw [pow_add]
  exact ((Nat.mod_modEq x (2 ^ r)).mul_right' (2 ^ d)).add_right v

/-- Regrouping in two parts: the groups already whole, then those that the residual bits and `d` more make. -/
theorem groups_feed {w d v : Nat} (hw : 0 < w) (hv : v < 2 ^ d) (N x : Nat) :
    groups w ((N + d) / w) ((x * 2 ^ d + v) / 2 ^ ((N + d) % w)) =
      groups w (N / w) (x / 2 ^ (N % w)) ++
        groups w ((N % w + d) / w) ((x % 2 ^ (N % w) * 2 ^ d + v) / 2 ^ ((N % w + d) % w)) := by
  have hcount : (N + d) / w = N / w + (N % w + d) / w := by
    rw [← Nat.mul_add_div hw, ← Nat.add_assoc, Nat.div_add_mod]
  have hleft : (N % w + d) % w + w * ((N % w + d) / w) = N % w + d := Nat.mod_add_div ..
  rw [hcount, groups_add, ← Nat.mod_add_mod, Nat.div_div_eq_div_mul, ← pow_add, hleft]
  congr 1
  · rw [Nat.add_comm (N % w), pow_add, ← Nat.div_div_eq_div_mul, mul_two_pow_add_div hv]
  · refine groups_congr ?_
    have h := feed_modEq x v (N % w) d
    rw [← hleft, pow_add] at h
    rw [Nat.ModEq, ← Nat.mod_mul_right_div_self, ← h, Nat.mod_mul_right_div_self]

/-- The shifter once the `N` bits of `x` have gone through it in groups of `w`: the residual bits are held, and `f` of each
whole group is emitted. -/
structure ShifterHolds (w : Nat) (f : Nat → Byte) (N x : Nat) (sh : Shifter) : Prop where
  nbits : sh.nbits = N % w
  acc : sh.acc = x % 2 ^ (N % w)
  out : sh.out = (groups w (N / w) (x / 2 ^ (N % w))).map f

theorem shifterHolds_start (w : Nat) (f : Nat → Byte) : ShifterHolds w f 0 0 Shifter.start where
  nbits := (Nat.zero_mod w).symm
  acc := (Nat.zero_mod _).symm
  out := by rw [Nat.zero_div]; rfl

/-- What is emitted when `d` more bits, `v`, have gone in. -/
theorem ShifterHolds.out_feed {w d v N x : Nat} {f : Nat → Byte} {sh : Shifter} (h : ShifterHolds w f N x sh) (hw : 0 < w)
    (hv : v < 2 ^ d) :
    sh.out ++ (groups w ((sh.nbits + d) / w) ((sh.acc * 2 ^ d + v) / 2 ^ ((sh.nbits + d) % w))).map f =
      (groups w ((N + d) / w) ((x * 2 ^ d + v) / 2 ^ ((N + d) % w))).map f := by
  rw [h.out, h.nbits, h.acc, ← List.map_append, ← groups_feed hw hv]

/-- A shifter step that takes in `d` more bits, `v`, and emits the whole groups keeps the invariant. -/
theorem ShifterHolds.feed {w d v N x : Nat} {f : Nat → Byte} {sh sh' : Shifter} (h : ShifterHolds w f N x sh) (hw : 0 < w)
    (hv : v < 2 ^ d) (hnbits : sh'.nbits = (sh.nbits + d) % w) (hacc : sh'.acc = (sh.acc * 2 ^ d + v) % 2 ^ sh'.nbits)
    (hout : sh'.out =
      sh.out ++ (groups w ((sh.nbits + d) / w) ((sh.acc * 2 ^ d + v) / 2 ^ ((sh.nbits + d) % w))).map f) :
    ShifterHolds w f (N + d) (x * 2 ^ d + v) sh' where
  nbits := by rw [hnbits, h.nbits, Nat.mod_add_mod]
  acc := by
    rw [hacc, hnbits, h.nbits, h.acc, Nat.mod_add_mod]
    refine (feed_modEq x v (N % w) d).of_dvd (pow_dvd_pow 2 ?_)
    rw [← Nat.mod_add_mod]
    exact Nat.mod_le ..
  out := hout.trans (h.out_feed hw hv)

/-! ## Encode -/

/-- The inner loop of R103 emits the whole groups of five bits. -/
theorem drainSymbols_eq (acc n : Nat) : drainSymbols acc n = (groups 5 (n / 5) (acc / 2 ^ (n % 5))).map alpha := by
  induction n using drainSymbols.induct with
  | case1 n ih =>
    have hcount : (n + 5) / 5 = 1 + n / 5 := by omega
    have hresidue : (n + 5) % 5 = n % 5 := Nat.add_mod_right n 5
    have hbit : n % 5 + 5 * (n / 5) = n := Nat.mod_add_div n 5
    rw [drainSymbols, ih, Nat.succ_eq_add_one, hcount, hresidue, groups_add, Nat.div_div_eq_div_mul, ← pow_add, hbit,
      groups_one, Nat.shiftRight_eq_div_pow, Nat.and_two_pow_sub_one_eq_mod _ 5]
    rfl
  | case2 n hn =>
    have hlt : n < 5 := Nat.lt_of_not_le fun h => hn (n - 5) (by omega)
    rw [drainSymbols, Nat.div_eq_of_lt hlt]
    · rfl
    · exact hn

theorem shifterHolds_encodeByte {N x : Nat} {sh : Shifter} (h : ShifterHolds 5 alpha N x sh) (b : Byte) :
    ShifterHolds 5 alpha (N + 8) (x * 2 ^ 8 + b.toNat) (encodeByte sh b) := by
  have hacc : sh.acc <<< 8 ||| b.toNat = sh.acc * 2 ^ 8 + b.toNat := by
    rw [← Nat.shiftLeft_add_eq_or_of_lt b.isLt, Nat.shiftLeft_eq]
  refine h.feed (by decide) b.isLt rfl ?_ ?_
  · simp only [encodeByte, hacc, Nat.one_shiftLeft, Nat.and_two_pow_sub_one_eq_mod]
  · simp only [encodeByte, hacc, drainSymbols_eq]

theorem shifterHolds_foldl_encodeByte (src : List Byte) :
    ShifterHolds 5 alpha (8 * src.length) (bitsOf 8 BitVec.toNat src) (src.foldl encodeByte Shifter.start) := by
  induction src using List.reverseRecOn with
  | nil => exact shifterHolds_start 5 alpha
  | append_singleton src b ih =>
    rw [List.foldl_append, List.length_append, Nat.mul_add, bitsOf_concat]
    exact shifterHolds_encodeByte ih b

/-- The number of symbols of an encoding (R104). -/
def symbolCount (src : List Byte) : Nat := (8 * src.length + 4) / 5

/-- The symbols hold the source's bits and fewer than five more. -/
theorem five_mul_symbolCount (src : List Byte) :
    8 * src.length ≤ 5 * symbolCount src ∧ 5 * symbolCount src < 8 * src.length + 5 := by
  unfold symbolCount
  omega

/-- The bits of the source, zero-filled on the low side to whole symbols (R103). -/
def symbolBits (src : List Byte) : Nat := bitsOf 8 BitVec.toNat src * 2 ^ (5 * symbolCount src - 8 * src.length)

/-- The symbols of an encoding, without its padding. -/
def symbols (src : List Byte) : List Byte := (groups 5 (symbolCount src) (symbolBits src)).map alpha

/-- Filling the residual bits with zeros on the low side is what `d` more zero bits do, where they end a group. -/
theorem encodedText_eq {sh : Shifter} {N x n d : Nat} (h : ShifterHolds 5 alpha N x sh) (hd : d < 5) (hn : N + d = 5 * n) :
    encodedText sh = (groups 5 n (x * 2 ^ d)).map alpha ++ List.replicate ((8 - n % 8) % 8) padByte := by
  have hnbits := h.nbits
  have hfeed := h.out_feed (by decide) (Nat.two_pow_pos d)
  rw [hn, Nat.mul_div_cancel_left n (by decide), Nat.mul_mod_right, Nat.add_zero, Nat.add_zero, pow_zero,
    Nat.div_one] at hfeed
  have htext : (if 0 < sh.nbits then sh.out ++ [alpha ((sh.acc <<< (5 - sh.nbits)) &&& 0x1F)] else sh.out) =
      (groups 5 n (x * 2 ^ d)).map alpha := by
    rw [← hfeed]
    split
    · have hd : d = 5 - sh.nbits := by omega
      have hfull : sh.nbits + (5 - sh.nbits) = 5 := by omega
      rw [hd, hfull, Nat.shiftLeft_eq, Nat.and_two_pow_sub_one_eq_mod _ 5]
      simp
    · have hd : d = 0 := by omega
      have hnone : (sh.nbits + d) / 5 = 0 := by omega
      rw [hnone]
      simp
  simp only [encodedText, htext, List.length_map, length_groups]

/-- An encoding is its symbols and the padding to a multiple of 8. -/
theorem b32encode_eq (src : List Byte) :
    b32encode src = symbols src ++ List.replicate (8 * ((src.length + 4) / 5) - symbolCount src) padByte := by
  have hpad : 8 * ((src.length + 4) / 5) - symbolCount src = (8 - symbolCount src % 8) % 8 := by
    unfold symbolCount
    omega
  obtain ⟨hle, hlt⟩ := five_mul_symbolCount src
  rw [hpad]
  exact encodedText_eq (shifterHolds_foldl_encodeByte src) (by omega) (by omega)

@[simp] theorem length_symbols (src : List Byte) : (symbols src).length = symbolCount src := by simp [symbols]

theorem length_b32encode (src : List Byte) : (b32encode src).length = 8 * ((src.length + 4) / 5) := by
  rw [b32encode_eq, List.length_append, length_symbols, List.length_replicate, symbolCount]
  omega

theorem exists_alpha_of_mem_symbols {src : List Byte} {c : Byte} (hc : c ∈ symbols src) : ∃ v, v < 32 ∧ c = alpha v := by
  obtain ⟨v, hv, rfl⟩ := List.mem_map.mp hc
  exact ⟨v, lt_of_mem_groups hv, rfl⟩

/-- Settles O30: an encoding is its symbols, then the padding. -/
theorem encodedLength : Obligations.EncodedLength := fun src =>
  ⟨length_b32encode src, symbols src, b32encode_eq src, length_symbols src, fun _ => exists_alpha_of_mem_symbols⟩

/-- Settles O31: the symbols are the groups of five bits of the source, zero-filled to whole symbols. -/
theorem encodedSymbolsAreTheSourceBits : Obligations.EncodedSymbolsAreTheSourceBits := by
  intro src k hk
  have hlt : k < symbolCount src := by
    have hle := (five_mul_symbolCount src).1
    omega
  rw [b32encode_eq, List.getD_append _ _ _ _ (by rwa [length_symbols])]
  exact getD_map_groups hlt (symbolBits src) alpha 0#8

/-! ## Padding and invalid characters -/

/-- `stripPadding` is the library's `rdropWhile`. -/
theorem stripPadding_eq_rdropWhile (src : List Byte) : stripPadding src = src.rdropWhile (· == padByte) := rfl

theorem exists_padding (src : List Byte) : ∃ k, src = stripPadding src ++ List.replicate k padByte := by
  have hpad : src.rtakeWhile (· == padByte) = List.replicate (src.rtakeWhile (· == padByte)).length padByte :=
    List.eq_replicate_of_mem fun c hc => eq_of_beq (List.mem_rtakeWhile_imp (p := (· == padByte)) hc)
  refine ⟨(src.rtakeWhile (· == padByte)).length, ?_⟩
  rw [← hpad, stripPadding_eq_rdropWhile, List.rdropWhile_append_rtakeWhile]

theorem getLast?_stripPadding (src : List Byte) : (stripPadding src).getLast? ≠ some padByte := fun h => by
  have hne : stripPadding src ≠ [] := fun hnil => by simp [hnil] at h
  have hlast : (stripPadding src).getLast hne = padByte := by simpa [List.getLast?_eq_some_getLast hne] using h
  exact List.rdropWhile_last_not (· == padByte) src hne (beq_iff_eq.mpr hlast)

/-- Text without the padding character is what stripping leaves of it once it is padded. -/
theorem stripPadding_append_replicate {text : List Byte} (h : padByte ∉ text) (k : Nat) :
    stripPadding (text ++ List.replicate k padByte) = text := by
  induction k with
  | zero =>
    rw [List.replicate_zero, List.append_nil, stripPadding_eq_rdropWhile, List.rdropWhile_eq_self_iff]
    exact fun hne hlast => h (eq_of_beq hlast ▸ List.getLast_mem hne)
  | succ k ih =>
    rw [List.replicate_succ', ← List.append_assoc, stripPadding_eq_rdropWhile,
      List.rdropWhile_concat_pos (· == padByte) _ _ (beq_self_eq_true _)]
    exact ih

theorem b32decode_eq_error_iff (src : List Byte) (i : Nat) :
    b32decode src = .error i ↔ firstInvalid (stripPadding src) = some i := by
  unfold b32decode
  cases h : firstInvalid (stripPadding src) <;> simp [h]

theorem b32decode_of_valid {src : List Byte} (h : firstInvalid (stripPadding src) = none) :
    b32decode src = .ok ((stripPadding src).foldl decodeChar Shifter.start).out := by
  simp [b32decode, h]

theorem firstInvalid_eq_some_iff (text : List Byte) (i : Nat) : firstInvalid text = some i ↔
    i < text.length ∧ lut (text.getD i 0#8) = none ∧ ∀ k, k < i → (lut (text.getD k 0#8)).isSome = true := by
  rw [firstInvalid, List.findIdx?_eq_some_iff_getElem]
  constructor
  all_goals
    rintro ⟨hi, hinvalid, hbefore⟩
    refine ⟨hi, by simpa [hi] using hinvalid, fun k hk => ?_⟩
    simpa [hk.trans hi, Option.isSome_iff_ne_none] using hbefore k hk

/-- Settles O32: the decoder fails at the index that `firstInvalid` finds. -/
theorem decodeRejectsAtTheFirstInvalid : Obligations.DecodeRejectsAtTheFirstInvalid := by
  intro src
  refine ⟨exists_padding src, getLast?_stripPadding src, fun i => ?_, fun c hc hinvalid => ?_⟩
  · rw [b32decode_eq_error_iff, firstInvalid_eq_some_iff]
  · rw [← lut_isSome_iff] at hinvalid
    simp only [b32decode_eq_error_iff, ← Option.isSome_iff_exists, firstInvalid, List.findIdx?_isSome, List.any_eq_true]
    exact ⟨c, hc, by simpa using hinvalid⟩

/-! ## Decode -/

/-- The value of a character in the shifter of R109. -/
def charValue (c : Byte) : Nat := (lut c).getD 0

theorem charValue_lt (c : Byte) : charValue c < 2 ^ 5 := by
  unfold charValue
  cases h : lut c with
  | none => decide
  | some v => exact lut_lt h

theorem shifterHolds_decodeChar {N x : Nat} {sh : Shifter} (h : ShifterHolds 8 (BitVec.ofNat 8) N x sh) (c : Byte) :
    ShifterHolds 8 (BitVec.ofNat 8) (N + 5) (x * 2 ^ 5 + charValue c) (decodeChar sh c) := by
  have hlt : sh.nbits < 8 := h.nbits ▸ Nat.mod_lt N (by decide)
  have hacc : sh.acc <<< 5 ||| (lut c).getD 0 = sh.acc * 2 ^ 5 + charValue c := by
    rw [← charValue, ← Nat.shiftLeft_add_eq_or_of_lt (charValue_lt c), Nat.shiftLeft_eq]
  by_cases hfull : 8 ≤ sh.nbits + 5
  · have hcount : (sh.nbits + 5) / 8 = 1 := by omega
    have hleft : (sh.nbits + 5) % 8 = sh.nbits + 5 - 8 := by omega
    refine h.feed (by decide) (charValue_lt c) ?_ ?_ ?_
    · simp [decodeChar, hfull, hleft]
    · simp only [decodeChar, hacc, if_pos hfull, Nat.one_shiftLeft, Nat.and_two_pow_sub_one_eq_mod]
    · simp only [decodeChar, hacc, if_pos hfull, hcount, hleft, groups_one, List.map_singleton, Nat.shiftRight_eq_div_pow]
      rw [Nat.and_two_pow_sub_one_eq_mod _ 8]
  · have hcount : (sh.nbits + 5) / 8 = 0 := by omega
    have hleft : (sh.nbits + 5) % 8 = sh.nbits + 5 := by omega
    refine h.feed (by decide) (charValue_lt c) ?_ ?_ ?_
    · simp [decodeChar, hfull, hleft]
    · simp only [decodeChar, hacc, if_neg hfull, Nat.one_shiftLeft, Nat.and_two_pow_sub_one_eq_mod]
    · simp [decodeChar, hfull, hcount]

theorem shifterHolds_foldl_decodeChar (src : List Byte) :
    ShifterHolds 8 (BitVec.ofNat 8) (5 * src.length) (bitsOf 5 charValue src) (src.foldl decodeChar Shifter.start) := by
  induction src using List.reverseRecOn with
  | nil => exact shifterHolds_start 8 _
  | append_singleton src c ih =>
    rw [List.foldl_append, List.length_append, Nat.mul_add, bitsOf_concat]
    exact shifterHolds_decodeChar ih c

/-- The bytes of a decoding are the whole groups of eight of the symbols' bits; the residual bits are dropped (R110). -/
theorem b32decode_eq_groups {src r : List Byte} (h : b32decode src = .ok r) :
    r = (groups 8 (5 * (stripPadding src).length / 8)
      (bitsOf 5 charValue (stripPadding src) / 2 ^ (5 * (stripPadding src).length % 8))).map (BitVec.ofNat 8) :=
  (b32decode_ok h).trans (shifterHolds_foldl_decodeChar (stripPadding src)).out

theorem length_b32decode {src r : List Byte} (h : b32decode src = .ok r) : r.length = 5 * (stripPadding src).length / 8 := by
  rw [b32decode_eq_groups h, List.length_map, length_groups]

/-- Settles O33: the groups of eight bits of the symbols, without the residual bits. -/
theorem decodedBytesAreTheSymbolBits : Obligations.DecodedBytesAreTheSymbolBits := by
  intro src r hr
  refine ⟨length_b32decode hr, fun k hk => ?_⟩
  have hlt : k < 5 * (stripPadding src).length / 8 := by omega
  have hexp : 5 * (stripPadding src).length % 8 + 8 * (5 * (stripPadding src).length / 8 - 1 - k) =
      5 * (stripPadding src).length - 8 * (k + 1) := by omega
  rw [b32decode_eq_groups hr, getD_map_groups hlt, Nat.div_div_eq_div_mul, ← pow_add, hexp]
  exact BitVec.eq_of_toNat_eq (by simp [bitsOf, charValue])

theorem charValue_alpha {v : Nat} (h : v < 2 ^ 5) : charValue (alpha v) = v := by
  rw [charValue, lut_alpha h, Option.getD_some]

theorem padByte_not_mem_symbols (src : List Byte) : padByte ∉ symbols src := fun h => by
  obtain ⟨v, hv, heq⟩ := exists_alpha_of_mem_symbols h
  exact alpha_ne_padByte hv heq.symm

theorem stripPadding_b32encode (src : List Byte) : stripPadding (b32encode src) = symbols src := by
  rw [b32encode_eq, stripPadding_append_replicate (padByte_not_mem_symbols src)]

theorem firstInvalid_symbols (src : List Byte) : firstInvalid (symbols src) = none := by
  refine List.findIdx?_eq_none_iff.mpr fun c hc => ?_
  obtain ⟨v, hv, rfl⟩ := exists_alpha_of_mem_symbols hc
  rw [lut_alpha hv, Option.isNone_some]

theorem bitsOf_symbols (src : List Byte) : bitsOf 5 charValue (symbols src) = symbolBits src := by
  obtain ⟨hle, -⟩ := five_mul_symbolCount src
  have hlt := mul_two_pow_add_lt (bitsOf_lt (fun b : Byte => b.isLt) src)
    (Nat.two_pow_pos (5 * symbolCount src - 8 * src.length))
  rw [Nat.add_sub_cancel' hle] at hlt
  exact (bitsOf_map_groups (fun _ => charValue_alpha) _ _).trans (Nat.mod_eq_of_lt hlt)

/-- Settles O34: the padding is stripped, every symbol is valid, and the decoder drops just the zero bits that filled up the
last symbol, so that its groups of eight bits are those of the source. -/
theorem base32RoundTrip : Obligations.Base32RoundTrip := by
  intro b
  rw [b32decode_of_valid ((stripPadding_b32encode b).symm ▸ firstInvalid_symbols b), stripPadding_b32encode]
  obtain ⟨hle, hlt⟩ := five_mul_symbolCount b
  have hcount : 5 * symbolCount b / 8 = b.length := by omega
  have hleft : 5 * symbolCount b % 8 = 5 * symbolCount b - 8 * b.length := by omega
  rw [(shifterHolds_foldl_decodeChar (symbols b)).out, bitsOf_symbols, length_symbols, hcount, hleft, symbolBits,
    Nat.mul_div_cancel _ (Nat.two_pow_pos _), groups_bitsOf (fun b : Byte => b.isLt), List.map_map]
  simp [Function.comp_def]

end Sys2Proof.Proofs.Base32
end

section
/-! PROOFS. The Base32 commands (40_base32.md R106, R108, R112, R113; 30_encoding.md R52): their checks, and what they commit,
byte by byte. -/

namespace Sys2Proof.Proofs.Base32Commands

open Sys2Proof.Machine Sys2Proof.Proofs.Base32 Sys2Proof.Proofs.Operands

/-! ## What is committed -/

/-- A write from the start of a buffer, within its size, read at every offset. -/
theorem byteAt_writeBytes_base (b : Buffer) {bs : List Byte} (h : bs.length ≤ b.size) (s : State) (a : Nat) :
    byteAt (writeBytes b.base bs s) a = if inRun b.base bs.length a then bs.getD (a - b.base) 0#8 else byteAt s a := by
  split
  next hin =>
    have hbuf : bufferAt (b.base + (a - b.base)) = some b := bufferAt_base b (by omega)
    rw [Nat.add_sub_cancel' hin.1] at hbuf
    exact byteAt_writeBytes_inside hin.1 hin.2 (by rw [hbuf, Option.isSome_some])
  next hout => exact byteAt_writeBytes_outside (by omega)

/-- Zeros at the end read as what is read beyond the end. -/
theorem getD_append_replicate (bs : List Byte) (n k : Nat) : (bs ++ List.replicate n 0#8).getD k 0#8 = bs.getD k 0#8 := by
  by_cases hk : k < bs.length
  · exact List.getD_append _ _ _ _ hk
  · have hle : bs.length ≤ k := Nat.not_lt.mp hk
    rw [List.getD_append_right _ _ _ _ hle, List.getD_eq_getElem?_getD, List.getElem?_getD_replicate_default_eq,
      List.getD_eq_default _ _ hle]

section
variable {s : State} (hs : s.Fresh)
include hs

/-- An encode from the command's issue (R106); `sh` is hidden. -/
theorem runJob_encode (src : List Byte) :
    ∃ sh, runJob (.encode src) s = .next ({ s with
      mem := s.mem.write Buffer.bufB.base (b32encode src), dstLen := BitVec.ofNat 9 (b32encode src).length
      shifter := sh }).completed := by
  obtain ⟨-, -, -, hshifter, -, -⟩ := hs
  refine ⟨src.foldl encodeByte Shifter.start, ?_⟩
  rw [runJob, runEncode, hshifter, finishEncode, commit_eq_completed]
  simp only [List.foldl_cons, List.foldl_nil, applyPending, writeBytes]
  rfl

/-- A decode from the command's issue: the bytes of `b32decode` are committed; `sh` is hidden. -/
theorem runJob_decode {src r : List Byte} (hr : b32decode src = .ok r) (dst : DecodeTo) :
    ∃ sh, runJob (.decode (stripPadding src) dst) s = .next (commit (decodeWrites r dst) { s with shifter := sh }) := by
  obtain ⟨-, -, -, hshifter, -, -⟩ := hs
  refine ⟨(stripPadding src).foldl decodeChar Shifter.start, ?_⟩
  rw [runJob, runDecode, hshifter, b32decode_ok hr]
  rfl

/-- A decode into BUF_B (R112). -/
theorem runJob_decode_bufB {src r : List Byte} (hr : b32decode src = .ok r) :
    ∃ sh, runJob (.decode (stripPadding src) .bufB) s = .next ({ s with
      mem := s.mem.write Buffer.bufB.base r, dstLen := BitVec.ofNat 9 r.length, shifter := sh }).completed := by
  obtain ⟨sh, hrun⟩ := runJob_decode hs hr .bufB
  refine ⟨sh, hrun.trans ?_⟩
  simp only [commit_eq_completed, decodeWrites, List.foldl_cons, List.foldl_nil, applyPending, writeBytes]

/-- A decode into KEY (R113). -/
theorem runJob_decode_key {src r : List Byte} (hr : b32decode src = .ok r) :
    ∃ sh, runJob (.decode (stripPadding src) .key) s = .next ({ s with
      mem := s.mem.write Buffer.key.base (r ++ List.replicate (Config.maxKeyLen - r.length) 0#8)
      keyLen := BitVec.ofNat 8 r.length, dstLen := BitVec.ofNat 9 r.length, shifter := sh }).completed := by
  obtain ⟨sh, hrun⟩ := runJob_decode hs hr .key
  refine ⟨sh, hrun.trans ?_⟩
  simp only [commit_eq_completed, decodeWrites, List.foldl_cons, List.foldl_nil, applyPending, writeBytes]

end

/-! ## The commands -/

/-- The LENGTH error of a source that is too long (R106, R112, R113). -/
theorem runJob_length_error (s : State) :
    runJob (.fail .length (s.srcLen.setWidth 32)) s = .next (s.failed .length (BitVec.ofNat 32 s.srcLen.toNat)) := by
  rw [setWidth_eq_ofNat]
  rfl

/-- Settles O35: at most 160 bytes encode to at most 256 characters, which BUF_B holds. -/
theorem b32EncWritesTheEncoding : Obligations.B32EncWritesTheEncoding := by
  intro s hs out
  rw [exec_eq_runJob, jobOf, jobB32Enc]
  refine ⟨fun hlong => ?_, fun hshort => ?_⟩
  · rw [if_pos hlong, runJob_length_error]
  · rw [if_neg (Nat.not_lt.mpr hshort)]
    obtain ⟨sh, hrun⟩ := runJob_encode hs (sourceOf s)
    have hfits : out.length ≤ Buffer.bufB.size := by
      rw [length_b32encode, bytesOf_length, Buffer.size]
      omega
    exact ⟨s.mem.write Buffer.bufB.base out, sh, hrun, byteAt_writeBytes_base .bufB hfits s⟩

/-- The source of a decode has at most 256 characters, and a decoding is no longer than its source. -/
theorem length_decoded_le {s : State} {r : List Byte} (h : s.srcLen.toNat ≤ 256) (hr : b32decode (sourceOf s) = .ok r) :
    r.length ≤ Buffer.bufB.size := by
  have hstripped := stripPadding_length (sourceOf s)
  rw [sourceOf, bytesOf_length] at hstripped
  rw [length_b32decode hr, sourceOf, Buffer.size]
  omega

/-- Settles O36: a decoding of at most 256 characters fits in BUF_B. -/
theorem b32DecWritesTheDecoding : Obligations.B32DecWritesTheDecoding := by
  intro s hs
  rw [exec_eq_runJob, jobOf, jobB32Dec, ← sourceOf]
  refine ⟨fun hlong => ?_, fun hshort => ?_⟩
  · rw [if_pos hlong, runJob_length_error]
  · rw [if_neg (Nat.not_lt.mpr hshort)]
    cases hr : b32decode (sourceOf s) with
    | error i => rfl
    | ok r =>
      obtain ⟨sh, hrun⟩ := runJob_decode_bufB hs hr
      exact ⟨s.mem.write Buffer.bufB.base r, sh, hrun,
        byteAt_writeBytes_base .bufB (length_decoded_le hshort hr) s⟩

/-- KEY after the secret `r` and the zeros that fill it up (R113). -/
theorem byteAt_writeBytes_key {r : List Byte} (h : r.length ≤ 128) (s : State) (a : Nat) :
    byteAt (writeBytes Buffer.key.base (r ++ List.replicate (Config.maxKeyLen - r.length) 0#8) s) a =
      if inRun 0x100 128 a then r.getD (a - 0x100) 0#8 else byteAt s a := by
  have hlen : (r ++ List.replicate (Config.maxKeyLen - r.length) 0#8).length = 128 := by
    rw [List.length_append, List.length_replicate]
    exact Nat.add_sub_cancel' h
  rw [byteAt_writeBytes_base .key hlen.le, hlen, getD_append_replicate, Buffer.base]

/-- Settles O37: the four checks in their order, and zeros fill KEY up to its 128 bytes. -/
theorem b32DeckProvisionsTheKey : Obligations.B32DeckProvisionsTheKey := by
  intro s hs
  rw [exec_eq_runJob, jobOf, jobB32Deck, ← sourceOf]
  refine ⟨fun hlock => ?_, fun hlock hlong => ?_, fun hlock hshort => ?_⟩
  · rw [if_pos hlock]
    rfl
  · rw [if_neg (Bool.eq_false_iff.mp hlock), if_pos hlong, runJob_length_error]
  · rw [if_neg (Bool.eq_false_iff.mp hlock), if_neg (Nat.not_lt.mpr hshort)]
    cases hr : b32decode (sourceOf s) with
    | error i => rfl
    | ok r =>
      dsimp only
      by_cases hlong : 128 < r.length
      · rw [if_pos hlong, if_pos hlong]
        rfl
      · rw [if_neg hlong, if_neg hlong]
        obtain ⟨sh, hrun⟩ := runJob_decode_key hs hr
        exact ⟨_, sh, hrun, byteAt_writeBytes_key (Nat.not_lt.mp hlong) s⟩

end Sys2Proof.Proofs.Base32Commands
end

section
/-! PROOFS. The truncation engine's offset and value, the counter message, and the commands TRUNC and HOTP_GEN (41_hotp.md
R116 to R126; 30_encoding.md R52), with what a generation commits, byte by byte, whatever it commits before its digest. -/

namespace Sys2Proof.Proofs.Hotp

open Sys2Proof.Machine Sys2Proof.Proofs.Completion Sys2Proof.Proofs.Base32 Sys2Proof.Proofs.Base32Commands

/-! ## Dynamic truncation -/

theorem twenty_le_digestLen (h : HashAlg) : 20 ≤ digestLen h := by
  cases h <;> decide

theorem digestLen_le_size (h : HashAlg) : digestLen h ≤ Buffer.digest.size := by
  cases h <;> decide

theorem toNat_truncOffset (d : List Byte) : (truncOffset d).toNat = (d.getD (d.length - 1) 0#8).toNat % 16 := by
  rw [truncOffset, BitVec.extractLsb'_toNat, Nat.shiftRight_zero]

/-- The four bytes from the offset on lie inside every digest (R117): the offset is at most 15, and DL at least 20. -/
theorem truncOffset_add_three_lt {h : HashAlg} {d : List Byte} (hd : d.length = digestLen h) :
    (truncOffset d).toNat + 3 < d.length := by
  have hoffset : (truncOffset d).toNat < 2 ^ 4 := (truncOffset d).isLt
  have hlen := twenty_le_digestLen h
  omega

theorem toNat_append_byte {w : Nat} (x : BitVec w) (b : Byte) : (x ++ b).toNat = x.toNat * 2 ^ 8 + b.toNat := by
  rw [BitVec.toNat_append, ← Nat.shiftLeft_add_eq_or_of_lt b.isLt, Nat.shiftLeft_eq]

theorem toNat_truncBinary (d : List Byte) : (truncBinary d).toNat =
    (((d.getD (truncOffset d).toNat 0#8).toNat % 128 * 2 ^ 8 + (d.getD ((truncOffset d).toNat + 1) 0#8).toNat) * 2 ^ 8 +
      (d.getD ((truncOffset d).toNat + 2) 0#8).toNat) * 2 ^ 8 + (d.getD ((truncOffset d).toNat + 3) 0#8).toNat := by
  rw [truncBinary, toNat_append_byte, toNat_append_byte, toNat_append_byte, BitVec.extractLsb'_toNat, Nat.shiftRight_zero]

/-- Settles O38: the offset is four bits of the last byte, and `binary` the four bytes from it appended. -/
theorem truncationTakesFourBytes : Obligations.TruncationTakesFourBytes := by
  refine ⟨⟨rfl, rfl, rfl⟩, ⟨rfl, rfl, rfl, rfl⟩, fun h d hd => ⟨toNat_truncOffset d, truncOffset_add_three_lt hd, ?_⟩⟩
  rw [toNat_truncBinary]
  ring

/-! ## The message of a counter -/

/-- The message is the counter's eight groups of eight bits (R123). -/
theorem be8_eq_groups (c : DWord) : be8 c = (groups 8 8 c.toNat).map (BitVec.ofNat 8) := by
  have hbyte : ∀ k ∈ List.range 8, c.extractLsb' (56 - 8 * k) 8 =
      BitVec.ofNat 8 (c.toNat / 2 ^ (8 * (8 - 1 - k)) % 2 ^ 8) := fun k hk => by
    have hk : k < 8 := List.mem_range.mp hk
    have hexp : 56 - 8 * k = 8 * (8 - 1 - k) := by omega
    apply BitVec.eq_of_toNat_eq
    rw [hexp, BitVec.extractLsb'_toNat, Nat.shiftRight_eq_div_pow, BitVec.toNat_ofNat, Nat.mod_mod]
  rw [be8, groups, List.map_map]
  exact List.map_congr_left hbyte

/-- The bytes of the message spell the counter, most significant first. -/
theorem bitsOf_be8 (c : DWord) : bitsOf 8 BitVec.toNat (be8 c) = c.toNat := by
  have hbyte : ∀ v, v < 2 ^ 8 → (BitVec.ofNat 8 v).toNat = v := fun v hv => by
    rw [BitVec.toNat_ofNat, Nat.mod_eq_of_lt hv]
  rw [be8_eq_groups, bitsOf_map_groups hbyte]
  exact Nat.mod_eq_of_lt c.isLt

/-- Settles O41: the message spells the counter, which is what tells messages apart. -/
theorem messageHoldsTheWholeCounter : Obligations.MessageHoldsTheWholeCounter := by
  refine fun c => ⟨rfl, bitsOf_be8 c, fun c' hmsg => BitVec.eq_of_toNat_eq ?_⟩
  rw [← bitsOf_be8 c, hmsg, bitsOf_be8]

/-! ## What is committed -/

theorem length_codeBuffer {digits : Nat} (h : digits ≤ 10) (d : List Byte) : (codeBuffer digits d).length = 16 := by
  rw [codeBuffer, List.length_append, decString_length, List.length_replicate]
  omega

/-- The results of a truncation, committed (R121). -/
theorem foldl_codeWrites (digits : Nat) (d : List Byte) (s : State) : (codeWrites digits d).foldl applyPending s =
    ({ s with mem := s.mem.write Buffer.code.base (codeBuffer digits d) }).truncated digits d := rfl

/-- The bytes of the window after the code of a digest is written (R121). -/
theorem byteAt_writeBytes_code {digits : Nat} (h : digits ≤ 10) (d : List Byte) (s : State) (a : Nat) :
    byteAt (writeBytes Buffer.code.base (codeBuffer digits d) s) a =
      if inRun 0x060 16 a then (codeBuffer digits d).getD (a - 0x060) 0#8 else byteAt s a := by
  have hlen := length_codeBuffer h d
  rw [byteAt_writeBytes_base .code hlen.le, hlen, Buffer.base]

/-- The buffers after a generation with the digest `d` (R125, R138). -/
def generatedMem (digits : Nat) (d : List Byte) (m : Memory) : Memory :=
  (m.write Buffer.digest.base d).write Buffer.code.base (codeBuffer digits d)

/-- A generation's commit: the writes `pre`, the digest, and its truncation (R125, R138). -/
theorem commit_generateWrites (e : Engine) (pre : List Pending) (d : List Byte) (s : State) :
    commit (generateWrites e pre d) s = (({ pre.foldl applyPending s with
      mem := generatedMem e.digits d (pre.foldl applyPending s).mem }).truncated e.digits d).completed := by
  rw [commit_eq_completed, generateWrites, List.foldl_append, List.foldl_append, foldl_codeWrites]
  rfl

/-- The bytes of the window after a generation: CODE, DIGEST[0..DL), and the rest as before. -/
theorem byteAt_generatedMem {h : HashAlg} {digits : Nat} {d : List Byte} (hdigits : digits ≤ 10)
    (hd : d.length = digestLen h) (s : State) (a : Nat) :
    byteAt { s with mem := generatedMem digits d s.mem } a =
      if inRun 0x060 16 a then (codeBuffer digits d).getD (a - 0x060) 0#8
      else if inRun 0x080 (digestLen h) a then d.getD (a - 0x080) 0#8 else byteAt s a := by
  have hfits : d.length ≤ Buffer.digest.size := hd ▸ digestLen_le_size h
  have hdigest := byteAt_writeBytes_base .digest hfits s a
  rw [hd, Buffer.base] at hdigest
  rw [← hdigest]
  exact byteAt_writeBytes_code hdigits d (writeBytes Buffer.digest.base d s) a

/-! ## One generation -/

/-- An answer that passes is HMAC_FN's, of the algorithm's length (R72, R74). -/
theorem hmacAnswer_eq_some_iff (r : HmacReq) (d : List Byte) :
    hmacAnswer r = some d ↔ Config.hmacFn r.alg r.key r.msg = some d ∧ d.length = digestLen r.alg := by
  unfold hmacAnswer
  cases Config.hmacFn r.alg r.key r.msg with
  | none => simp
  | some d' =>
    simp only [Option.ite_none_right_eq_some, Option.some.injEq]
    exact ⟨fun ⟨hlen, hd⟩ => ⟨hd, hd ▸ hlen⟩, fun ⟨hd, hlen⟩ => ⟨hd ▸ hlen, hd⟩⟩

section
variable {s : State} (hs : s.Fresh) {e : Engine} {c : DWord}
include hs

/-- A generation whose request fails ends with HMAC_FAIL, its pass index 0 (R124). -/
theorem runJob_generate_of_fail (ha : hmacAnswer (passRequest e c) = none) (pre : List Pending) :
    runJob (.generate e c pre) s =
      .next (({ s with requests := s.requests ++ [passRequest e c] }).failed .hmacFail 0#32) := by
  obtain ⟨-, hj, -, -, hstaged, hrequest⟩ := hs
  simp only [runJob, runGenerate, if_pos hstaged, sendRequest_of_none hrequest, Option.bind_some, ha, hmacFailed, hj]
  rfl

/-- A generation whose request is answered commits what it stages for the digest (R125, R138). -/
theorem runJob_generate_of_answer {d : List Byte} (ha : hmacAnswer (passRequest e c) = some d) (pre : List Pending) :
    runJob (.generate e c pre) s = .next (commit (generateWrites e pre d) { s with
      requests := s.requests ++ [passRequest e c], scratch := d, staged := generateWrites e pre d }) := by
  obtain ⟨hphase, -, -, -, hstaged, hrequest⟩ := hs
  simp only [runJob, runGenerate, if_pos hstaged, sendRequest_of_none hrequest, Option.bind_some, ha, takeGenerated,
    endRequest, hphase, hrequest]

end

/-! ## The commands -/

/-- Settles O40: the lock requirement, then the commit of the truncation's results. -/
theorem truncTruncatesTheDigest : Obligations.TruncTruncatesTheDigest := by
  intro s hlocked
  rw [exec_eq_runJob, jobOf, jobTrunc]
  refine ⟨fun hl => ?_, fun hl => ?_⟩
  · rw [withEngine_of_unlocked hl]
    rfl
  · have haccepted := hlocked hl
    obtain ⟨h, hh, he⟩ := engineOf_of_configFault haccepted
    obtain ⟨-, hdigits, -⟩ := configFault_none haccepted
    refine ⟨h, hh, ?_⟩
    rw [withEngine_of_locked hl he, runJob, commit_eq_completed, foldl_codeWrites]
    exact ⟨_, rfl, byteAt_writeBytes_code hdigits _ s⟩

/-- Settles O42: the lock requirement, then one generation at CTR, with nothing committed before its digest. -/
theorem hotpGenGeneratesAtCtr : Obligations.HotpGenGeneratesAtCtr := by
  refine ⟨hmacAnswer_eq_some_iff, fun s hs hlocked => ?_⟩
  rw [exec_eq_runJob, jobOf, jobHotpGen]
  refine ⟨fun hl => ?_, fun hl => ?_⟩
  · rw [withEngine_of_unlocked hl]
    rfl
  · have haccepted := hlocked hl
    obtain ⟨h, hh, he⟩ := engineOf_of_configFault haccepted
    obtain ⟨-, hdigits, -⟩ := configFault_none haccepted
    refine ⟨h, hh, ?_⟩
    rw [withEngine_of_locked hl he]
    intro r s'
    cases ha : hmacAnswer r with
    | none =>
      refine runJob_generate_of_fail hs ?_ []
      exact ha
    | some d =>
      have hlen : d.length = digestLen h := hmacAnswer_length ha
      refine ⟨hlen, generatedMem s.digits.toNat d s.mem, (runJob_generate_of_answer hs (d := d) ?_ []).trans ?_,
        byteAt_generatedMem hdigits hlen s⟩
      · exact ha
      · rw [commit_generateWrites]
        rfl

end Sys2Proof.Proofs.Hotp
end

section
/-! PROOFS. TOTP (42_totp.md R135 to R146; 30_encoding.md R52): the counter of TIME shifted by whole steps and the passes it
gives, the commands TOTP_GEN and TOTP_REM, and the match of what TOTP_GEN generated by a later TOTP_VER. -/

namespace Sys2Proof.Proofs.Totp

open Sys2Proof.Machine Sys2Proof.Proofs.Completion Sys2Proof.Proofs.Scope Sys2Proof.Proofs.Validator
  Sys2Proof.Proofs.Hotp Sys2Proof.Proofs.Base32Commands

/-! ## The shifted time -/

theorem seconds_eq (s : State) : seconds s = (s.timeHi.toNat * 2 ^ 32 + s.timeLo.toNat) / 1000 := by
  rw [seconds, time_toNat]

/-- A quotient by a positive number is negative exactly when the dividend is, both rounded down. -/
theorem ediv_neg_iff_of_pos {x n : Int} (hn : 0 < n) : x / n < 0 ↔ x < 0 := by
  rw [Int.ediv_lt_iff_lt_mul hn, Int.zero_mul]

/-- Shifting by `i` steps of 1000 `n` milliseconds shifts the seconds by `i * n` (R139). -/
theorem shifted_ediv (now n : Nat) (i : Int) :
    ((now : Int) + 1000 * i * n) / 1000 = ((now / 1000 : Nat) : Int) + i * n := by
  rw [Int.mul_assoc, Int.add_mul_ediv_left _ _ (by decide), Int.natCast_ediv]
  rfl

/-- And the quotient by the step by `i` (R139). -/
theorem shifted_ediv_ediv {n : Nat} (hn : 1 ≤ n) (now : Nat) (i : Int) :
    ((now : Int) + 1000 * i * n) / 1000 / n = ((now / 1000 / n : Nat) : Int) + i := by
  have hn0 : (n : Int) ≠ 0 := by omega
  rw [shifted_ediv, Int.add_mul_ediv_right _ _ hn0, ← Int.natCast_ediv]

/-- A shifted time is before the epoch exactly when its counter is negative (R139). -/
theorem shifted_neg_iff {n : Nat} (hn : 1 ≤ n) (now : Nat) (i : Int) :
    (now : Int) + 1000 * i * n < 0 ↔ ((now / 1000 / n : Nat) : Int) + i < 0 := by
  have hpos : (0 : Int) < n := by omega
  rw [← shifted_ediv_ediv hn, ediv_neg_iff_of_pos hpos, ediv_neg_iff_of_pos (by decide)]

/-- The pass `j` of TOTP_VER is the counter `j - W` away from C, SKIP where that is negative (R140). -/
theorem getElem?_totpPasses {c w j : Nat} (hc : c + w ≤ 2 ^ 64 - 1) (hj : j ≤ 2 * w) : (totpPasses c w)[j]? =
    some (if (c : Int) + (j - w) < 0 then none else some (BitVec.ofNat 64 ((c : Int) + (j - w)).toNat)) := by
  have hentry : (totpPasses c w)[j]? = some (if w ≤ c + j then some (BitVec.ofNat 64 (c + j - w)) else none) := by
    rw [totpPasses_eq hc, List.getElem?_map, List.getElem?_range (by omega), Option.map_some]
  rw [hentry]
  by_cases hle : w ≤ c + j
  · have hnat : ((c : Int) + (j - w)).toNat = c + j - w := by omega
    rw [if_pos hle, if_neg (by omega), hnat]
  · rw [if_neg hle, if_pos (by omega)]

/-- Settles O46: the quotients of the shifted time, exactly, and with them every entry of R140's pass list. -/
theorem shiftedTimeShiftsTheCounter : Obligations.ShiftedTimeShiftsTheCounter := by
  intro e s hstep now shifted
  have hseconds : seconds s = now / 1000 := seconds_eq s
  have hcounter : totpCounter e s = now / 1000 / e.tstep := totpCounter_eq e s
  have hshifted : ∀ i, shifted i / 1000 / e.tstep = totpCounter e s + i := fun i =>
    hcounter ▸ shifted_ediv_ediv hstep now i
  have hepoch : ∀ i, shifted i < 0 ↔ (totpCounter e s : Int) + i < 0 := fun i => hcounter ▸ shifted_neg_iff hstep now i
  refine ⟨hseconds, hcounter, fun i => ⟨hseconds ▸ shifted_ediv now e.tstep i, hshifted i, hepoch i⟩, fun w hw => ?_⟩
  have hroom := totpCounter_add_le e s hw
  refine ⟨by rw [totpPasses_eq hroom, List.length_map, List.length_range], fun j hj => ?_⟩
  simp only [hepoch, hshifted]
  exact getElem?_totpPasses hroom hj

/-! ## The commands -/

/-- A generation at `c` whose request is answered commits TCTR before the digest and its truncation (R138). -/
theorem runJob_generate_tctr {s : State} (hs : s.Fresh) {e : Engine} {c : DWord} {d : List Byte}
    (ha : hmacAnswer (passRequest e c) = some d) : runJob (.generate e c [.tctr c]) s = .next (({ s with
      requests := s.requests ++ [passRequest e c], mem := generatedMem e.digits d s.mem, scratch := d
      tctrLo := loHalf c, tctrHi := hiHalf c }).truncated e.digits d).completed := by
  rw [runJob_generate_of_answer hs ha, commit_generateWrites]
  rfl

/-- Settles O45: the lock requirement, then one generation at C, with TCTR committed before its digest. -/
theorem totpGenGeneratesAtC : Obligations.TotpGenGeneratesAtC := by
  intro s hs hlocked
  rw [exec_eq_runJob, jobOf, jobTotpGen]
  refine ⟨fun hl => ?_, fun hl => ?_⟩
  · rw [withEngine_of_unlocked hl]
    rfl
  · have haccepted := hlocked hl
    obtain ⟨h, hh, he⟩ := engineOf_of_configFault haccepted
    obtain ⟨-, hdigits, -⟩ := configFault_none haccepted
    refine ⟨h, hh, ?_⟩
    rw [withEngine_of_locked hl he, tctrWrite, totpCounter_eq]
    intro c r s'
    cases ha : hmacAnswer r with
    | none => exact runJob_generate_of_fail hs (e := ⟨_, _, _, _, _⟩) ha _
    | some d =>
      have hlen : d.length = digestLen h := hmacAnswer_length ha
      exact ⟨hlen, _, runJob_generate_tctr hs (e := ⟨_, _, _, _, _⟩) ha, byteAt_generatedMem hdigits hlen s⟩

/-- The commit of REMAIN and TCTR (R144). -/
theorem runJob_remain_tctr (r : Word) (c : DWord) (s : State) : runJob (.write [.remain r, .tctr c]) s =
    .next ({ s with remain := r, tctrLo := loHalf c, tctrHi := hiHalf c }).completed := rfl

/-- Settles O48: the lock requirement, then the commit of REMAIN, which is no larger than TSTEP and so fits, and TCTR. -/
theorem totpRemGivesTheRemainder : Obligations.TotpRemGivesTheRemainder := by
  intro s hlocked secs
  rw [exec_eq_runJob, jobOf, jobTotpRem]
  refine ⟨fun hl => ?_, fun hl => ?_⟩
  · rw [withEngine_of_unlocked hl]
    rfl
  · have haccepted := hlocked hl
    obtain ⟨h, -, he⟩ := engineOf_of_configFault haccepted
    obtain ⟨-, -, -, hstep, -⟩ := configFault_none haccepted
    have hmod : secs % s.tstep.toNat < s.tstep.toNat := Nat.mod_lt _ hstep
    have hremain : (BitVec.ofNat 32 (s.tstep.toNat - secs % s.tstep.toNat)).toNat =
        s.tstep.toNat - secs % s.tstep.toNat := by
      rw [BitVec.toNat_ofNat, Nat.mod_eq_of_lt ((Nat.sub_le _ _).trans_lt s.tstep.isLt)]
    refine ⟨BitVec.ofNat 32 (s.tstep.toNat - secs % s.tstep.toNat), ?_, hremain, ?_⟩
    · rw [withEngine_of_locked hl he, tctrWrite, totpCounter_eq, remaining, seconds_eq]
      exact runJob_remain_tctr _ _ s
    · rw [hremain]
      omega

/-! ## Verify after generate -/

theorem bytesOf_eq_of_getD {s : State} {b : Buffer} {bs : List Byte}
    (h : ∀ k < bs.length, byteAt s (b.base + k) = bs.getD k 0#8) : bytesOf s b bs.length = bs := by
  refine List.ext_getElem (bytesOf_length _ _ _) fun k _ hk => ?_
  rw [← List.getD_eq_getElem _ 0#8, bytesOf_getD s b hk, h k hk, List.getD_eq_getElem]

theorem length_codeOf (digits : Nat) (d : List Byte) : (codeOf digits d).length = digits := decString_length _ _

/-- Behind the code the buffer CODE holds zeros only (R43). -/
theorem getD_codeBuffer (digits : Nat) (d : List Byte) (k : Nat) :
    (codeBuffer digits d).getD k 0#8 = (codeOf digits d).getD k 0#8 :=
  getD_append_replicate _ _ _

/-- The first DIGITS bytes of CODE are the code, once CODE holds it (R43, R121). -/
theorem bytesOf_code {s : State} {digits : Nat} (hdigits : digits ≤ 10) (d : List Byte)
    (h : ∀ a, inRun 0x060 16 a → byteAt s a = (codeBuffer digits d).getD (a - 0x060) 0#8) :
    bytesOf s .code digits = codeOf digits d := by
  have hbytes : ∀ k < (codeOf digits d).length, byteAt s (0x060 + k) = (codeOf digits d).getD k 0#8 := fun k hk => by
    rw [length_codeOf] at hk
    rw [h _ (by omega), Nat.add_sub_cancel_left, getD_codeBuffer]
  have hcode := bytesOf_eq_of_getD (b := .code) hbytes
  rwa [length_codeOf] at hcode

/-- When no HMAC request fails, CODE holds the code of the digest for C after TOTP_GEN (R138). -/
theorem totpGen_code {s : State} (hs : s.Fresh) (hl : s.lock = true) (haccepted : configFault s = none) :
    ∃ h g, hashAlg s.alg = some h ∧ exec .totpGen s = .next g ∧ (g.err = false → ∃ d,
      hmacAnswer { alg := h, key := bytesOf s .key s.keyLen.toNat, msg := be8 (BitVec.ofNat 64
        ((s.timeHi.toNat * 2 ^ 32 + s.timeLo.toNat) / 1000 / s.tstep.toNat)) } = some d ∧
      bytesOf g .code s.digits.toNat = codeOf s.digits.toNat d) := by
  obtain ⟨-, hgen⟩ := totpGenGeneratesAtC s hs fun _ => haccepted
  obtain ⟨h, hh, hend⟩ := hgen hl
  obtain ⟨-, hdigits, -⟩ := configFault_none haccepted
  dsimp only at hend
  split at hend
  · exact ⟨h, _, hh, hend, fun herr => nomatch herr⟩
  · next d ha =>
    obtain ⟨-, m, hexec, hmem⟩ := hend
    refine ⟨h, _, hh, hexec, fun _ => ⟨d, ha, ?_⟩⟩
    exact bytesOf_code hdigits d fun a hin => (byteAt_congr rfl rfl a).trans ((hmem a).trans (if_pos hin))

/-- A validation in which no request fails latches a match when one of its passes matches (R129). -/
theorem matched_of_validates {e : Engine} {t : List Byte} {ps : List (Option DWord)} {s base : State}
    {o : Host.Outcome State Fault Refusal} (h : Validates e t ps s base o) :
    ∃ u, o = .next u ∧ (u.err = false → ∀ p ∈ ps, (passMatch e t p).isSome = true → u.matched = true) := by
  unfold Validates at h
  split at h
  · obtain ⟨f, sc, rfl⟩ := h
    exact ⟨_, rfl, fun herr => nomatch herr⟩
  · obtain ⟨f, sc, rfl⟩ := h
    exact ⟨_, rfl, fun _ p hp hmatch => List.findSome?_isSome_iff.mpr ⟨p, hp, hmatch⟩⟩

/-- A candidate of DIGITS characters needs no padding, so that STRICT_LEN does not matter (R127). -/
theorem normalize_of_length {e : Engine} {t : List Byte} (ht : t.length = e.digits) : Machine.normalize e t = t := by
  cases hstrict : e.strict with
  | false => rw [normalize_of_not_strict hstrict, ht, Nat.sub_self, List.replicate_zero, List.nil_append]
  | true => exact normalize_of_strict hstrict t

/-- A pass matches the code of its own digest (R128). -/
theorem passMatch_codeOf {e : Engine} {c : DWord} {d : List Byte} (ha : hmacAnswer (passRequest e c) = some d) :
    (passMatch e (Machine.normalize e (codeOf e.digits d)) (some c)).isSome = true := by
  have hlen := length_codeOf e.digits d
  have hcode : codesMatch e.digits (codeOf e.digits d) (codeOf e.digits d) = true := (codesMatch_iff_eq hlen _).mpr rfl
  simp only [passMatch, ha, normalize_of_length hlen, hcode, if_true, Option.isSome_some]

theorem bytesOf_key_congr {s v : State} {n : Nat} (hn : n ≤ 128)
    (hkey : ∀ a, inRun 0x100 128 a → byteAt v a = byteAt s a) : bytesOf v .key n = bytesOf s .key n :=
  List.map_congr_left fun k hk => by
    have hk : k < n := List.mem_range.mp hk
    exact hkey _ ⟨Nat.le_add_right _ _, Nat.add_lt_add_left (hk.trans_le hn) _⟩

/-- A counter at most W steps back is among the passes of TOTP_VER (R140). -/
theorem mem_passes {c c' w : Nat} (hle : c ≤ c') (hw : c' ≤ c + w) : some (BitVec.ofNat 64 c) ∈
    (List.range (2 * w + 1)).map fun j => if w ≤ c' + j then some (BitVec.ofNat 64 (c' + j - w)) else none := by
  refine List.mem_map.mpr ⟨c + w - c', List.mem_range.mpr (by omega), ?_⟩
  have hsub : c' + (c + w - c') - w = c := by omega
  rw [if_pos (by omega), hsub]

/-- Settles O49: with no failing request the pass at the generated counter makes the same request, and so matches. -/
theorem verifyAfterGenerateMatches : Obligations.VerifyAfterGenerateMatches := by
  intro s v w hs hv hls hlv haccepted hw hdigits halg htstep hkeyLen hkey hcand htime
  obtain ⟨-, hten, -, -, hfits⟩ := configFault_none haccepted
  have hvaccepted : configFault v = none := (configFault_congr hdigits halg htstep hkeyLen).trans haccepted
  obtain ⟨h, g, hh, hgen, hcode⟩ := totpGen_code hs hls haccepted
  obtain ⟨-, -, hver⟩ := totpVerVerifiesTheWindow v w hv (fun _ => hvaccepted) hw
  obtain ⟨h', hh', hvalidates⟩ := hver hlv (by omega)
  obtain rfl : h' = h := Option.some.inj (hh'.symm.trans (halg ▸ hh))
  obtain ⟨t, hexec, hmatched⟩ := matched_of_validates hvalidates
  rw [← htstep] at htime hcode
  obtain ⟨hle, hback⟩ := htime
  refine ⟨g, t, hgen, hexec, fun hg ht hbytes => hmatched ht _ (mem_passes hle hback) ?_⟩
  obtain ⟨d, ha, hd⟩ := hcode hg
  rw [← bytesOf_key_congr hfits hkey, ← hkeyLen] at ha
  rw [hcand, hbytes, hd, ← hdigits]
  exact passMatch_codeOf ha

end Sys2Proof.Proofs.Totp
end

section
/-! PROOFS. The control commands NOP, CFG and CLEAR (43_control.md R147, R148, R150; 30_encoding.md R52). -/

namespace Sys2Proof.Proofs.Control

open Sys2Proof.Machine Sys2Proof.Proofs.Base32Commands

/-! ## NOP and CFG -/

/-- Settles O26: NOP commits no writes. -/
theorem nopOnlyCompletes : Obligations.NopOnlyCompletes := fun s =>
  (exec_eq_runJob .nop s).trans (congrArg Host.Outcome.next (commit_eq_completed [] s))

/-- CFG's field checks (R148), in numbers. -/
theorem configFault_eq (s : State) : configFault s =
    if s.digits.toNat = 0 ∨ 10 < s.digits.toNat then some (.invalidConfig, 1#32)
    else if s.alg.toNat = 3 then some (.invalidConfig, 2#32)
    else if s.tstep.toNat = 0 then some (.invalidConfig, 3#32)
    else if 128 < s.keyLen.toNat then some (.length, BitVec.ofNat 32 s.keyLen.toNat)
    else none := by
  simp only [configFault, ← BitVec.toNat_inj, setWidth_eq_ofNat]
  rfl

/-- Settles O27: LOCK, then each field check in its order, and LOCK is written when none of them fails. -/
theorem cfgChecksThenLocks : Obligations.CfgChecksThenLocks := by
  intro s
  rw [exec_eq_runJob, jobOf, jobCfg, configFault_eq]
  split_ifs with hlock hdigits halg htstep hkeyLen
  · rfl
  · rfl
  · rfl
  · rfl
  · rfl
  · rfl

/-! ## CLEAR -/

/-- All of the buffer set to zero. -/
def zeroBuffer (s : State) (b : Buffer) : State := writeBytes b.base (List.replicate b.size 0#8) s

theorem byteAt_zeroBuffer (s : State) (b : Buffer) (a : Nat) :
    byteAt (zeroBuffer s b) a = if inRun b.base b.size a then 0#8 else byteAt s a := by
  have hzero : (List.replicate b.size 0#8).getD (a - b.base) 0#8 = 0#8 :=
    List.getElem?_getD_replicate_default_eq _ _ _
  rw [zeroBuffer, byteAt_writeBytes_base b List.length_replicate.le, List.length_replicate, hzero]

theorem foldl_zeroBuffer_eq (bs : List Buffer) (s : State) :
    bs.foldl zeroBuffer s = { s with mem := (bs.foldl zeroBuffer s).mem } := by
  induction bs generalizing s with
  | nil => rfl
  | cons b bs ih => exact ih (zeroBuffer s b)

theorem byteAt_foldl_zeroBuffer (bs : List Buffer) (s : State) (a : Nat) :
    byteAt (bs.foldl zeroBuffer s) a = if ∃ b ∈ bs, inRun b.base b.size a then 0#8 else byteAt s a := by
  induction bs generalizing s with
  | nil => simp
  | cons b bs ih =>
    rw [List.foldl_cons, ih, byteAt_zeroBuffer]
    by_cases hb : inRun b.base b.size a
    · rw [if_pos hb, ite_self, if_pos ⟨b, List.mem_cons_self, hb⟩]
    · rw [if_neg hb]
      simp only [List.exists_mem_cons_iff, or_iff_right hb]

theorem loHalf_zero : loHalf 0#64 = 0#32 := by decide

theorem hiHalf_zero : hiHalf 0#64 = 0#32 := by decide

/-- The buffers of CLEAR's row of R52, in the order of its writes. -/
def clearedBuffers : List Buffer := [.key, .digest, .code, .bufA, .bufB]

/-- BUF_A and BUF_B lie side by side. -/
theorem inRun_clearedBuffers (a : Nat) : (∃ b ∈ clearedBuffers, inRun b.base b.size a) ↔
    inRun 0x060 16 a ∨ inRun 0x080 64 a ∨ inRun 0x100 128 a ∨ inRun 0x200 512 a := by
  simp only [clearedBuffers, List.exists_mem_cons_iff, List.not_mem_nil, false_and, exists_false, or_false, Buffer.base,
    Buffer.size]
  omega

/-- Settles O28: the registers of CLEAR's row of R52 take zero, and so do its five buffers. -/
theorem clearZeroizes : Obligations.ClearZeroizes := by
  intro s
  refine ⟨(clearedBuffers.foldl zeroBuffer s).mem, ?_, fun a => ?_⟩
  · rw [exec_eq_runJob, jobOf, jobClear, runJob, commit_eq_completed]
    simp only [List.foldl_cons, List.foldl_nil, applyPending, writeBytes, clearedBuffers, zeroBuffer,
      loHalf_zero, hiHalf_zero]
  · rw [← foldl_zeroBuffer_eq, byteAt_foldl_zeroBuffer]
    exact if_congr (inRun_clearedBuffers a) rfl rfl

end Sys2Proof.Proofs.Control
end

section
/-! PROOFS. The engine instance is fixed while LOCK = 1 (43_control.md R149; 10_state.md R27; 40_base32.md R113): neither the
host's accesses nor any command but CLEAR write LOCK, the configuration or the secret. -/

namespace Sys2Proof.Proofs.EngineInstance

open Sys2Proof.Machine Sys2Proof.Proofs.Completion Sys2Proof.Proofs.Invariant Sys2Proof.Proofs.Window
  Sys2Proof.Proofs.BusyRule Sys2Proof.Proofs.Hotp

/-- LOCK and the registers that it freezes (R27). -/
def lockedFields (s : State) := (s.lock, s.digits, s.alg, s.strictLen, s.tstep, s.keyLen)

/-- `t` has the LOCK, the configuration and the secret of `s` (R149). -/
structure SameEngine (s t : State) : Prop where
  fields : lockedFields t = lockedFields s
  key : ∀ a, inRun 0x100 128 a → byteAt t a = byteAt s a

theorem SameEngine.refl (s : State) : SameEngine s s := ⟨rfl, fun _ _ => rfl⟩

theorem SameEngine.trans {s t u : State} (h : SameEngine s t) (h' : SameEngine t u) : SameEngine s u :=
  ⟨h'.fields.trans h.fields, fun a ha => (h'.key a ha).trans (h.key a ha)⟩

theorem sameEngine_of_hiddenOnly {s t : State} (h : HiddenOnly s t) : SameEngine s t := by
  obtain ⟨_, _, _, _, _, _, _, _, rfl⟩ := h
  exact ⟨rfl, fun _ _ => rfl⟩

theorem sameEngine_raise (e : ErrCode) (info : Word) (s : State) : SameEngine s (raise e info s) :=
  ⟨rfl, fun _ _ => rfl⟩

/-- A write that ends below KEY or begins above it. -/
theorem sameEngine_writeBytes {a : Nat} {bs : List Byte} (h : a + bs.length ≤ 0x100 ∨ 0x180 ≤ a) (s : State) :
    SameEngine s (writeBytes a bs s) :=
  ⟨rfl, fun _ _ => byteAt_writeBytes_outside (by omega)⟩

/-! ## What a command commits -/

/-- The staged write leaves the engine instance alone. -/
def SparesEngine (p : Pending) : Prop := ∀ s, SameEngine s (applyPending s p)

theorem sparesEngine_pair {p q : Pending} (hp : SparesEngine p) (hq : SparesEngine q) : ∀ r ∈ [p, q], SparesEngine r :=
  List.forall_mem_cons.mpr ⟨hp, List.forall_mem_singleton.mpr hq⟩

theorem sameEngine_commit {ws : List Pending} (h : ∀ p ∈ ws, SparesEngine p) (s : State) : SameEngine s (commit ws s) := by
  have hfold : SameEngine s (ws.foldl applyPending s) := by
    induction ws generalizing s with
    | nil => exact .refl s
    | cons p ws ih =>
      obtain ⟨hp, hws⟩ := List.forall_mem_cons.mp h
      exact (hp s).trans (ih hws _)
  exact hfold.trans ⟨rfl, fun _ _ => rfl⟩

/-- DIGEST and CODE lie below KEY. -/
theorem sparesEngine_of_ofGeneration {p : Pending} (h : p.ofGeneration = true) : SparesEngine p := by
  cases p with
  | lock _ | keyLen _ => exact Bool.noConfusion h
  | bytes a bs =>
    have hbelow := (Bool.or_eq_true_iff.mp h).imp of_decide_eq_true of_decide_eq_true
    simp only [Buffer.base, Buffer.size] at hbelow
    exact sameEngine_writeBytes (by omega)
  | _ => exact fun _ => ⟨rfl, fun _ _ => rfl⟩

theorem sparesEngine_of_all {ws : List Pending} (h : ws.all Pending.ofGeneration = true) : ∀ p ∈ ws, SparesEngine p :=
  fun p hp => sparesEngine_of_ofGeneration (List.all_eq_true.mp h p hp)

/-- The truncation of a digest stages results of a generation. -/
theorem sparesEngine_codeWrites {e : Engine} (he : e.digits ≤ 10) {d : List Byte} (hd : d.length ≤ Buffer.digest.size) :
    ∀ p ∈ codeWrites e.digits d, SparesEngine p := fun p hp =>
  sparesEngine_of_all (all_ofGeneration_generateWrites (pre := []) he rfl hd) p (List.mem_append_right _ hp)

/-- What the job writes without a loop leaves the engine instance alone. -/
def WritesSpareEngine : Job → Prop
  | .write ws => ∀ p ∈ ws, SparesEngine p
  | _ => True

/-- Of the commands that need no loop CFG and CLEAR alone write the engine instance, and CFG fails while LOCK = 1 (R148). -/
theorem writesSpareEngine_jobOf {s : State} (h : s.Inv) (hlock : s.lock = true) {i : Instr} (hi : i ≠ .clear) :
    WritesSpareEngine (jobOf i s) := by
  have hfail : ∀ e info, WritesSpareEngine (.fail e info) := fun _ _ => trivial
  cases i with
  | nop => exact List.forall_mem_nil _
  | cfg =>
    rw [jobOf, jobCfg, if_pos hlock]
    trivial
  | clear => exact absurd rfl hi
  | b32Enc =>
    simp only [jobOf, jobB32Enc]
    split <;> trivial
  | b32Dec =>
    simp only [jobOf, jobB32Dec]
    split
    · trivial
    · split <;> trivial
  | b32Deck =>
    rw [jobOf, jobB32Deck, if_pos hlock]
    trivial
  | trunc =>
    refine withEngine_induction h.locked hfail fun e he => sparesEngine_codeWrites he ?_
    rw [bytesOf_length]
    exact digestLen_le_size e.alg
  | hotpGen | totpGen => exact withEngine_induction h.locked hfail fun _ _ => trivial
  | hotpVal _ | totpVer _ =>
    exact withEngine_induction h.locked hfail fun _ _ => withCandidate_induction hfail fun _ => trivial
  | totpRem =>
    refine withEngine_induction h.locked hfail fun e _ => ?_
    exact sparesEngine_pair (fun _ => ⟨rfl, fun _ _ => rfl⟩) fun _ => ⟨rfl, fun _ _ => rfl⟩

/-- Whatever else a job commits: results of a generation, a validation's match, or BUF_B, for KEY is decoded into only while
LOCK = 0 (R113). -/
theorem sparesEngine_of_mayCommit {s : State} {k : Job} {ws : List Pending} (hlock : s.lock = true) (hk : JobSound s k)
    (hstaged : s.staged.all Pending.ofGeneration = true) (hwrites : WritesSpareEngine k) (hws : MayCommit s k ws) :
    ∀ p ∈ ws, SparesEngine p := by
  have hbufB : ∀ out, ∀ p ∈ [.bytes Buffer.bufB.base out, .dstLen (BitVec.ofNat 9 out.length)], SparesEngine p :=
    fun out =>
      sparesEngine_pair (sameEngine_writeBytes (.inr (by decide))) fun _ => ⟨rfl, fun _ _ => rfl⟩
  cases k with
  | fail e info => exact hws.elim
  | unreachable => exact hws.elim
  | write ws' => exact hws ▸ hwrites
  | encode src =>
    obtain ⟨out, rfl⟩ := hws
    exact hbufB out
  | decode src dst =>
    cases hws
    cases dst with
    | bufB => exact hbufB _
    | key => exact Bool.noConfusion ((hk rfl).symm.trans hlock)
  | generate e c pre =>
    obtain rfl | ⟨d, hd, rfl⟩ := hws
    · exact sparesEngine_of_all hstaged
    · obtain ⟨hdigits, hpre⟩ := hk
      exact sparesEngine_of_all (all_ofGeneration_generateWrites hdigits hpre hd)
  | validate e t ps pre =>
    obtain ⟨f, rfl⟩ := hws
    obtain ⟨-, hpre⟩ := hk
    refine List.forall_mem_append.mpr ⟨sparesEngine_of_all hpre, ?_⟩
    exact sparesEngine_pair (fun _ => ⟨rfl, fun _ _ => rfl⟩) fun _ => ⟨rfl, fun _ _ => rfl⟩

/-- An end of the running command, which is not CLEAR. -/
theorem sameEngine_of_endsAt {s t u : State} (h : s.Inv) (hlock : s.lock = true) {i : Instr} (hi : decode s.cmd = .ok i)
    (hclear : i ≠ .clear) (ht : HiddenOnly s t) (hend : EndsAt s (jobOf i s) t u) : SameEngine s u := by
  refine (sameEngine_of_hiddenOnly ht).trans ?_
  obtain ⟨e, info, rfl⟩ | ⟨ws, hws, rfl⟩ := hend
  · exact sameEngine_raise e info t
  · exact sameEngine_commit (sparesEngine_of_mayCommit hlock (jobSound_of_decode (sound_of_inv h) hi) h.staged_kinds
      (writesSpareEngine_jobOf h hlock hclear) hws) t

/-! ## The turns of the sequencer and the HMAC core -/

section
variable {s t : State} (h : s.Inv) (hlock : s.lock = true) (hclear : ¬ (s.busy = true ∧ decode s.cmd = .ok .clear))
include h hlock hclear

theorem sameEngine_runCommand (ht : runCommand s = .next t) : SameEngine s t := by
  unfold runCommand at ht
  split at ht
  next hbusy =>
    split at ht
    next i hi =>
      rw [exec_eq_runJob] at ht
      obtain ⟨u, hu, -, -, hend⟩ := runJob_end ht
      exact sameEngine_of_endsAt h hlock hi (fun hc => hclear ⟨hbusy, hc ▸ hi⟩) hu hend
    next =>
      cases ht
      exact sameEngine_raise _ _ s
  next =>
    cases ht
    exact .refl s

theorem sameEngine_sequencerTurn (ht : sequencerTurn s = .next t) : SameEngine s t := by
  unfold sequencerTurn at ht
  split at ht
  next hphase =>
    have hbusy := h.busy_phase.mpr (by simp [hphase])
    split at ht
    next i hi =>
      obtain hend | ⟨sh, -, rfl⟩ | ⟨-, rfl⟩ | ⟨r, -, rfl⟩ := stepJob_cases ht
      · exact sameEngine_of_endsAt h hlock hi (fun hc => hclear ⟨hbusy, hc ▸ hi⟩) (.refl s) hend
      · exact ⟨rfl, fun _ _ => rfl⟩
      · exact ⟨rfl, fun _ _ => rfl⟩
      · exact sameEngine_of_hiddenOnly (hiddenOnly_sendRequest r s)
    next =>
      cases ht
      exact sameEngine_raise _ _ s
  next =>
    cases ht
    exact .refl s

end

/-- An answer commits nothing. -/
theorem sameEngine_hmacTurn {s t : State} (ht : hmacTurn s = .next t) : SameEngine s t := by
  unfold hmacTurn at ht
  split at ht
  next =>
    cases ht
    exact .refl s
  next r _ =>
    split at ht
    next i _ =>
      injection ht with ht
      subst ht
      obtain ⟨e, info, ha⟩ | ⟨e, c, pre, d, -, -, ha⟩ | ⟨e, cand, c, d, -, ha⟩ | ha := answerJob_cases (jobOf i s) r s
      · exact ha ▸ sameEngine_raise e info s
      · exact ha ▸ ⟨rfl, fun _ _ => rfl⟩
      · exact ha ▸ ⟨rfl, fun _ _ => rfl⟩
      · exact ha ▸ ⟨rfl, fun _ _ => rfl⟩
    next =>
      cases ht
      exact sameEngine_raise _ _ s

/-! ## The host's turn -/

/-- An aligned word of another buffer lies beside KEY. -/
theorem sameEngine_writeWord {b : Buffer} (hb : b ≠ .key) {a : Nat} (ha : inRun b.base b.size a) (h4 : a % 4 = 0)
    (v : Word) (s : State) : SameEngine s (writeBytes a (lanes v) s) := by
  have hlast : inRun b.base b.size (a + 3) := inRun_of_word ha h4 (by omega)
  refine sameEngine_writeBytes (bs := lanes v) ?_ s
  change a + 4 ≤ 0x100 ∨ 0x180 ≤ a
  cases b with
  | key => exact absurd rfl hb
  | _ =>
    simp only [Buffer.base, Buffer.size] at ha hlast
    omega

/-- The locations that LOCK freezes are all that hold the engine instance (R27). -/
theorem sameEngine_writeLoc {n : Nat} (h4 : n % 4 = 0) (hfree : frozenByLock (locate n) = false) (v : Word) (s : State) :
    SameEngine s (writeLoc v s (locate n)) := by
  cases hl : locate n with
  | config | tstep | keyLen =>
    rw [hl] at hfree
    exact Bool.noConfusion hfree
  | buf b a =>
    obtain ⟨rfl, hrun⟩ := locate_eq_buf.mp hl
    cases b with
    | key =>
      rw [hl] at hfree
      exact Bool.noConfusion hfree
    | code => exact .refl s
    | _ => exact sameEngine_writeWord (by decide) hrun h4 v s
  | _ => exact ⟨rfl, fun _ _ => rfl⟩

theorem sameEngine_busWrite {s : State} (hlock : s.lock = true) {n : Nat} (h4 : n % 4 = 0) (v : Word) :
    SameEngine s (busWrite (locate n) v s) := by
  unfold busWrite
  split
  · exact ⟨rfl, fun _ _ => rfl⟩
  split
  · exact .refl s
  next hfree => exact sameEngine_writeLoc h4 (by simpa [hlock] using hfree) v s

theorem sameEngine_access {s : State} (hlock : s.lock = true) (x : Access) : SameEngine s (access x s) := by
  cases x with
  | read w a =>
    obtain ⟨n, r, haccess, -⟩ := hostReadHasNoSideEffect s w a
    exact haccess ▸ ⟨rfl, fun _ _ => rfl⟩
  | write w a v =>
    by_cases hbad : w ≠ .word ∨ a.toNat % 4 ≠ 0
    · obtain ⟨-, hwrite⟩ := refusedAccessHasNoEffect s w a v hbad
      exact hwrite ▸ ⟨rfl, fun _ _ => rfl⟩
    · push Not at hbad
      obtain ⟨rfl, h4⟩ := hbad
      rw [access_write h4]
      exact (sameEngine_busWrite hlock h4 v).trans ⟨rfl, fun _ _ => rfl⟩

theorem sameEngine_hostTurn {s t : State} (hlock : s.lock = true) (ht : hostTurn s = .next t) : SameEngine s t := by
  unfold hostTurn at ht
  split at ht
  · cases ht
    exact .refl s
  next op rest _ =>
  have hprogram : SameEngine s { s with program := rest } := ⟨rfl, fun _ _ => rfl⟩
  have hrest : ∀ x, SameEngine s (access x { s with program := rest }) := fun x =>
    hprogram.trans (sameEngine_access (s := { s with program := rest }) hlock x)
  split at ht
  · cases ht
  split at ht
  · cases ht
    exact hrest _
  · cases ht
    split
    · exact sameEngine_access hlock _
    · exact hrest _

/-! ## Every step -/

theorem sameEngine_takeTurn {s t : State} {turn : Turn} (h : s.Inv) (hlock : s.lock = true)
    (hclear : ¬ (s.busy = true ∧ decode s.cmd = .ok .clear)) (hturn : turn ≠ .assertReset)
    (ht : takeTurn turn s = .next t) : SameEngine s t := by
  cases turn with
  | host => exact sameEngine_hostTurn hlock ht
  | seq => exact sameEngine_sequencerTurn h hlock hclear ht
  | hmac => exact sameEngine_hmacTurn ht
  | run => exact sameEngine_runCommand h hlock hclear ht
  | assertReset => exact absurd rfl hturn
  | releaseReset =>
    cases ht
    exact ⟨rfl, fun _ _ => rfl⟩

/-- The turn that a step takes is an assertion of reset only where that is the next turn to come. -/
theorem step_turn (s : State) : ∃ turn ts, step s = takeTurn turn { s with schedule := ts } ∧
    (turn = .assertReset → upcoming s = .assertReset :: ts) := by
  cases hup : upcoming s with
  | nil =>
    refine ⟨defaultTurn s, s.schedule, step_of_upcoming_nil hup, fun hreset => ?_⟩
    unfold defaultTurn at hreset
    split at hreset <;> cases hreset
  | cons turn ts => exact ⟨turn, ts, step_of_upcoming hup, fun hreset => hreset ▸ rfl⟩

/-- Settles O60: every turn but an assertion of reset keeps the engine instance, unless a CLEAR is running. -/
theorem engineInstanceIsFixed : Obligations.EngineInstanceIsFixed := by
  intro s t h hlock ht
  obtain ⟨turn, ts, hstep, hreset⟩ := step_turn s
  by_cases hclear : s.busy = true ∧ decode s.cmd = .ok .clear
  · exact .inr (.inl hclear)
  by_cases hturn : turn = .assertReset
  · exact .inr (.inr ⟨ts, upcoming_eq_cons.mp (hreset hturn)⟩)
  obtain ⟨hfields, hkey⟩ :=
    sameEngine_takeTurn (s := { s with schedule := ts }) (inv_schedule h ts) hlock hclear hturn (hstep ▸ ht)
  simp only [lockedFields, Prod.mk.injEq] at hfields
  obtain ⟨hl, hdigits, halg, hstrict, htstep, hkeyLen⟩ := hfields
  exact .inl ⟨hl.trans hlock, hdigits, halg, hstrict, htstep, hkeyLen, hkey⟩

end Sys2Proof.Proofs.EngineInstance
end

section
/-! PROOFS. Reset (70_reset_and_hazards.md R171, R173): the reset state, and the command and request that a reset abandons. -/

namespace Sys2Proof.Proofs.Reset

open Sys2Proof.Machine

/-! ## The reset state -/

/-- Where nothing is listed, a byte outside BUF_A and BUF_B holds the reset contents (R172). -/
theorem byteAt_of_mem_nil {s : State} (hmem : s.mem = []) {a : Nat} (ha : a < 0x200) : byteAt s a = 0#8 := by
  have hbelow : ∀ b : Buffer, 0x200 ≤ b.base → b.holds a = false := fun b hb => by
    simp [Buffer.holds, show ¬ b.base ≤ a by omega]
  have hread : s.mem.read a = some 0#8 := by
    simp [hmem, Memory.read, Memory.unlisted, hbelow .bufA (by decide), hbelow .bufB (by decide)]
  simp only [byteAt, hread]

/-- ID, CONFIG and TSTEP are the registers with a nonzero reset value (R19). -/
theorem readLoc_reset {l : Loc} (hl : ∀ b a, l ≠ .buf b a) : readLoc State.reset l =
    if l = .id then 0x4F545031#32 else if l = .config then 0x00000006#32 else if l = .tstep then 30#32 else 0#32 := by
  cases l with
  | buf b a => exact absurd rfl (hl b a)
  | _ => rfl

/-- Settles O23: the registers take the values of R19's table, and the reset state lists no byte of a buffer. -/
theorem resetStateIsTheSpecs : Obligations.ResetStateIsTheSpecs := by
  refine ⟨fun l => readLoc_reset, fun a ha => byteAt_of_mem_nil rfl ?_,
    rfl, rfl, rfl, rfl, fun b => List.eq_of_mem_replicate, rfl, rfl, rfl, rfl, rfl, rfl, rfl⟩
  unfold inRun at ha
  omega

/-! ## A reset while a command runs -/

theorem step_assertReset {s : State} {ts : List Turn} (h : s.schedule = .assertReset :: ts) :
    step s = .next (assertReset { s with schedule := ts }) :=
  step_of_upcoming (upcoming_of_schedule h)

theorem step_releaseReset {s : State} {ts : List Turn} (h : s.schedule = .releaseReset :: ts) :
    step s = .next (releaseReset { s with schedule := ts }) :=
  step_of_upcoming (upcoming_of_schedule h)

/-- A response with no request outstanding is discarded (R173): the step uses up the core's turn and does nothing else. -/
theorem step_hmac_of_request_none {s : State} {ts : List Turn} (h : s.schedule = .hmac :: ts) (hrequest : s.request = none) :
    step s = .next { s with schedule := ts } := by
  rw [step_of_upcoming (upcoming_of_schedule h)]
  simp only [takeTurn, hmacTurn, hrequest]

/-- Settles O24: the reset leaves no request outstanding, so the response after it finds nothing to answer. -/
theorem resetAbandonsTheCommand : Obligations.ResetAbandonsTheCommand := fun _ _ hschedule =>
  ⟨_, _, _, step_assertReset hschedule, step_releaseReset rfl, step_hmac_of_request_none rfl rfl, rfl, rfl⟩

end Sys2Proof.Proofs.Reset
end
